-- ==== Sys2Proof/Word.lean ====
section
/-! DEFINITION. The machine's word types (`00_scope.md` rules R7, R9, R10): a register, an address
and an instruction word are 32-bit vectors, bit 0 the least significant. -/

namespace Sys2Proof

/-- A register value, an address or an instruction word (R7 `XLEN = ILEN = 32`, R10). `+` and `-`
are modulo `2^32`; `toNat` is the rule's `unsigned(v)`, `toInt` its `signed(v)`. -/
abbrev Word := BitVec 32

/-- A byte is 8 bits (R30). -/
abbrev Byte := BitVec 8

/-- The index of a general register, a 5-bit field of an instruction (R21, R96): `NREGS = 32`. -/
abbrev RegIdx := BitVec 5

/-- A set of access flags, three bits (R52): a region's mode, or the mode a request asks for. -/
abbrev AccessMode := BitVec 3

end Sys2Proof
end

