-- ==== Sys2Proof/Machine/Bytes.lean ====
section
/-! DEFINITION. Byte order (`20_memory.md` rule R62): little-endian, for instruction words and for
data, fixed. -/

namespace Sys2Proof

/-- The value whose bits `[8k+7 : 8k]` are the `k`-th byte of the list (R60); bits above the last
byte are zero. -/
def leWord : List Byte → Word
  | [] => 0
  | b :: bs => b.setWidth 32 ||| (leWord bs <<< 8)

/-- The low `n` bytes of a word, least significant first (R61). -/
def leBytes : Nat → Word → List Byte
  | 0, _ => []
  | n + 1, v => v.setWidth 8 :: leBytes n (v >>> 8)

end Sys2Proof
end

