-- ==== Sys2Proof/Syntax.lean ====
section
/-! DEFINITION. The instructions: one constructor per row of `spec/opcode_table.json`, operands in
the assembler's order (`30_encoding.md` rules R112, R118). Immediates have the width their rule gives:
12 bits in formats I and S, 5 for a shift amount, 20 in format U; a branch or jump displacement is
the byte displacement, 13 or 21 bits, whose bit 0 `WellFormed` requires to be zero. -/

namespace Sys2Proof

inductive Instr where
  -- 41_r_type_integer.md
  | add (rd rs1 rs2 : RegIdx)
  | sub (rd rs1 rs2 : RegIdx)
  | sll (rd rs1 rs2 : RegIdx)
  | slt (rd rs1 rs2 : RegIdx)
  | sltu (rd rs1 rs2 : RegIdx)
  | xor (rd rs1 rs2 : RegIdx)
  | srl (rd rs1 rs2 : RegIdx)
  | sra (rd rs1 rs2 : RegIdx)
  | or (rd rs1 rs2 : RegIdx)
  | and (rd rs1 rs2 : RegIdx)
  -- 42_r_type_muldiv.md
  | mul (rd rs1 rs2 : RegIdx)
  | mulh (rd rs1 rs2 : RegIdx)
  | mulhsu (rd rs1 rs2 : RegIdx)
  | mulhu (rd rs1 rs2 : RegIdx)
  | div (rd rs1 rs2 : RegIdx)
  | divu (rd rs1 rs2 : RegIdx)
  | rem (rd rs1 rs2 : RegIdx)
  | remu (rd rs1 rs2 : RegIdx)
  -- 43_i_type_alu.md
  | addi (rd rs1 : RegIdx) (imm : BitVec 12)
  | slti (rd rs1 : RegIdx) (imm : BitVec 12)
  | sltiu (rd rs1 : RegIdx) (imm : BitVec 12)
  | xori (rd rs1 : RegIdx) (imm : BitVec 12)
  | ori (rd rs1 : RegIdx) (imm : BitVec 12)
  | andi (rd rs1 : RegIdx) (imm : BitVec 12)
  | slli (rd rs1 : RegIdx) (shamt : BitVec 5)
  | srli (rd rs1 : RegIdx) (shamt : BitVec 5)
  | srai (rd rs1 : RegIdx) (shamt : BitVec 5)
  -- 44_loads.md
  | lb (rd rs1 : RegIdx) (imm : BitVec 12)
  | lh (rd rs1 : RegIdx) (imm : BitVec 12)
  | lw (rd rs1 : RegIdx) (imm : BitVec 12)
  | lbu (rd rs1 : RegIdx) (imm : BitVec 12)
  | lhu (rd rs1 : RegIdx) (imm : BitVec 12)
  -- 45_stores.md: the value register first
  | sb (rs2 rs1 : RegIdx) (imm : BitVec 12)
  | sh (rs2 rs1 : RegIdx) (imm : BitVec 12)
  | sw (rs2 rs1 : RegIdx) (imm : BitVec 12)
  -- 46_branches.md
  | beq (rs1 rs2 : RegIdx) (disp : BitVec 13)
  | bne (rs1 rs2 : RegIdx) (disp : BitVec 13)
  | blt (rs1 rs2 : RegIdx) (disp : BitVec 13)
  | bge (rs1 rs2 : RegIdx) (disp : BitVec 13)
  | bltu (rs1 rs2 : RegIdx) (disp : BitVec 13)
  | bgeu (rs1 rs2 : RegIdx) (disp : BitVec 13)
  -- 47_upper_imm_and_jumps.md
  | lui (rd : RegIdx) (imm20 : BitVec 20)
  | auipc (rd : RegIdx) (imm20 : BitVec 20)
  | jal (rd : RegIdx) (disp : BitVec 21)
  | jalr (rd rs1 : RegIdx) (imm : BitVec 12)
  -- 48_system.md
  | ecall
  | invalid
deriving DecidableEq, Repr

end Sys2Proof
end

