-- ==== Sys2Proof/WellFormed.lean ====
section
/-! DEFINITION. What an instruction must satisfy beyond its operands' widths: the displacement of a
branch or a `jal` is even, because its bit 0 is not stored (`30_encoding.md` rules R101, R103, R105).
Every other operand has exactly the values its field admits. -/

namespace Sys2Proof

/-- "LSB always 0" (R101, R103). -/
def evenDisplacement {n : Nat} (d : BitVec n) : Bool := !d.getLsbD 0

def Instr.wf : Instr → Bool
  | .beq _ _ d => evenDisplacement d
  | .bne _ _ d => evenDisplacement d
  | .blt _ _ d => evenDisplacement d
  | .bge _ _ d => evenDisplacement d
  | .bltu _ _ d => evenDisplacement d
  | .bgeu _ _ d => evenDisplacement d
  | .jal _ d => evenDisplacement d
  | .add _ _ _ | .sub _ _ _ | .sll _ _ _ | .slt _ _ _ | .sltu _ _ _ => true
  | .xor _ _ _ | .srl _ _ _ | .sra _ _ _ | .or _ _ _ | .and _ _ _ => true
  | .mul _ _ _ | .mulh _ _ _ | .mulhsu _ _ _ | .mulhu _ _ _ => true
  | .div _ _ _ | .divu _ _ _ | .rem _ _ _ | .remu _ _ _ => true
  | .addi _ _ _ | .slti _ _ _ | .sltiu _ _ _ | .xori _ _ _ | .ori _ _ _ | .andi _ _ _ => true
  | .slli _ _ _ | .srli _ _ _ | .srai _ _ _ => true
  | .lb _ _ _ | .lh _ _ _ | .lw _ _ _ | .lbu _ _ _ | .lhu _ _ _ => true
  | .sb _ _ _ | .sh _ _ _ | .sw _ _ _ => true
  | .lui _ _ | .auipc _ _ | .jalr _ _ _ => true
  | .ecall | .invalid => true

/-- The instruction is one the encoding can hold. -/
abbrev Instr.WellFormed (i : Instr) : Prop := i.wf = true

end Sys2Proof
end

