-- ==== Sys2Proof/Decode.lean ====
section
/-! DEFINITION. The bit-field codec, the six formats, the opcode map, the decoder and the encoder
(`30_encoding.md`). The decoder matches the table's `match` and `mask` columns (R113); the encoder
packs its `opcode`, `funct3` and `funct7` columns (R104). -/

namespace Sys2Proof

/-! ## Bit-field codec (R90 to R94) -/

/-- A field of a word: its lowest bit and its width. A call with `width = 0` or `pos + width > 32` is
a type error (R94, U1). -/
structure Field where
  pos   : Nat
  width : Nat
  valid : 1 ≤ width ∧ pos + width ≤ 32 := by decide

/-- `2^width - 1`. -/
def fieldMask (width : Nat) : Word := BitVec.ofNat 32 (2 ^ width - 1)

/-- R90, unsigned extract. -/
def extractU (w : Word) (f : Field) : Word := (w >>> f.pos) &&& fieldMask f.width

/-- `sext_N` of R91, as a 32-bit vector. -/
def sextN (n : Nat) (v : Word) : Word :=
  if (v &&& fieldMask n).getLsbD (n - 1) then (v &&& fieldMask n) - BitVec.ofNat 32 (2 ^ n)
  else v &&& fieldMask n

/-- R91, signed extract. -/
def extractS (w : Word) (f : Field) : Word := sextN f.width (extractU w f)

/-- R92: the value masked to the field's width and OR'd into the accumulator. -/
def pack (acc v : Word) (f : Field) : Word := acc ||| ((v &&& fieldMask f.width) <<< f.pos)

/-- The bits of the fields of a list, the first field the most significant (R93). -/
def concatFields (w : Word) : Word → List Field → Word
  | acc, [] => acc
  | acc, f :: fs => concatFields w ((acc <<< f.width) ||| extractU w f) fs

/-- An ordered list of fields of at most 32 bits together (R93, U1). -/
structure Composite where
  fields : List Field
  valid  : 1 ≤ (fields.map Field.width).sum ∧ (fields.map Field.width).sum ≤ 32 := by decide

/-- R93, composite signed extract: sign-extended at the combined width. -/
def extractMultiS (w : Word) (c : Composite) : Word :=
  sextN (c.fields.map Field.width).sum (concatFields w 0 c.fields)

/-! ## Field positions (R96 to R103) -/

def fOpcode : Field where
  pos := 0
  width := 7
def fRd : Field where
  pos := 7
  width := 5
def fFunct3 : Field where
  pos := 12
  width := 3
def fRs1 : Field where
  pos := 15
  width := 5
def fRs2 : Field where
  pos := 20
  width := 5
def fFunct7 : Field where
  pos := 25
  width := 7
/-- `imm[11:0]` of format I (R98). -/
def fImmI : Field where
  pos := 20
  width := 12
/-- `imm[4:0]` of format S (R100). -/
def fImmSLo : Field where
  pos := 7
  width := 5
/-- `imm[11:5]` of format S (R100). -/
def fImmSHi : Field where
  pos := 25
  width := 7
/-- `imm[12]`, `imm[11]`, `imm[10:5]`, `imm[4:1]` of format B (R101). -/
def fImmB12 : Field where
  pos := 31
  width := 1
def fImmB11 : Field where
  pos := 7
  width := 1
def fImmBHi : Field where
  pos := 25
  width := 6
def fImmBLo : Field where
  pos := 8
  width := 4
/-- `imm[31:12]` of format U (R102). -/
def fImmU : Field where
  pos := 12
  width := 20
/-- `imm[20]`, `imm[19:12]`, `imm[11]`, `imm[10:1]` of format J (R103). -/
def fImmJ20 : Field where
  pos := 31
  width := 1
def fImmJHi : Field where
  pos := 12
  width := 8
def fImmJ11 : Field where
  pos := 20
  width := 1
def fImmJLo : Field where
  pos := 21
  width := 10

/-! ## Operands of a fetched word (R105) -/

def opcodeOf (w : Word) : Word := extractU w fOpcode
def funct3Of (w : Word) : Word := extractU w fFunct3
def funct7Of (w : Word) : Word := extractU w fFunct7
def rdOf (w : Word) : RegIdx := (extractU w fRd).setWidth 5
def rs1Of (w : Word) : RegIdx := (extractU w fRs1).setWidth 5
def rs2Of (w : Word) : RegIdx := (extractU w fRs2).setWidth 5
def shamtOf (w : Word) : Word := extractU w fRs2
def imm20Of (w : Word) : BitVec 20 := (extractU w fImmU).setWidth 20

def compS : Composite where
  fields := [fImmSHi, fImmSLo]
def compB : Composite where
  fields := [fImmB12, fImmB11, fImmBHi, fImmBLo]
def compJ : Composite where
  fields := [fImmJ20, fImmJHi, fImmJ11, fImmJLo]

def immI (w : Word) : Word := extractS w fImmI
def immS (w : Word) : Word := extractMultiS w compS
def immB (w : Word) : Word := extractMultiS w compB <<< 1
def immU (w : Word) : Word := extractU w fImmU <<< 12
def immJ (w : Word) : Word := extractMultiS w compJ <<< 1

/-! ## The opcode map (R112) -/

/-- The rows of R112 by name: ENC's input `sel` (R111). -/
inductive Mnemonic where
  | add | sub | sll | slt | sltu | xor | srl | sra | or | and
  | mul | mulh | mulhsu | mulhu | div | divu | rem | remu
  | addi | slti | sltiu | xori | ori | andi
  | slli | srli | srai
  | lb | lh | lw | lbu | lhu
  | sb | sh | sw
  | beq | bne | blt | bge | bltu | bgeu
  | lui | auipc
  | jal
  | jalr
  | ecall | invalid
deriving DecidableEq, Repr

/-- The formats of R97 to R103; `system` is `ecall`'s (format I, all fields fixed), `zeroWord` that
of `invalid`, which has none. -/
inductive Format where
  | R | I | shift | S | B | U | J | system | zeroWord
deriving DecidableEq, Repr

/-- One row of R112: the fixed bits the encoder packs, the pair the decoder matches. A field the
row's format has not is zero. -/
structure Row where
  format  : Format
  opcode  : Word
  funct3  : Word
  funct7  : Word
  pattern : Word
  mask    : Word
deriving DecidableEq, Repr

/-- R112. -/
def row : Mnemonic → Row
  | .add => ⟨.R, 0b0110011, 0b000, 0b0000000, 0x00000033, 0xFE00707F⟩
  | .sub => ⟨.R, 0b0110011, 0b000, 0b0100000, 0x40000033, 0xFE00707F⟩
  | .sll => ⟨.R, 0b0110011, 0b001, 0b0000000, 0x00001033, 0xFE00707F⟩
  | .slt => ⟨.R, 0b0110011, 0b010, 0b0000000, 0x00002033, 0xFE00707F⟩
  | .sltu => ⟨.R, 0b0110011, 0b011, 0b0000000, 0x00003033, 0xFE00707F⟩
  | .xor => ⟨.R, 0b0110011, 0b100, 0b0000000, 0x00004033, 0xFE00707F⟩
  | .srl => ⟨.R, 0b0110011, 0b101, 0b0000000, 0x00005033, 0xFE00707F⟩
  | .sra => ⟨.R, 0b0110011, 0b101, 0b0100000, 0x40005033, 0xFE00707F⟩
  | .or => ⟨.R, 0b0110011, 0b110, 0b0000000, 0x00006033, 0xFE00707F⟩
  | .and => ⟨.R, 0b0110011, 0b111, 0b0000000, 0x00007033, 0xFE00707F⟩
  | .mul => ⟨.R, 0b0110011, 0b000, 0b0000001, 0x02000033, 0xFE00707F⟩
  | .mulh => ⟨.R, 0b0110011, 0b001, 0b0000001, 0x02001033, 0xFE00707F⟩
  | .mulhsu => ⟨.R, 0b0110011, 0b010, 0b0000001, 0x02002033, 0xFE00707F⟩
  | .mulhu => ⟨.R, 0b0110011, 0b011, 0b0000001, 0x02003033, 0xFE00707F⟩
  | .div => ⟨.R, 0b0110011, 0b100, 0b0000001, 0x02004033, 0xFE00707F⟩
  | .divu => ⟨.R, 0b0110011, 0b101, 0b0000001, 0x02005033, 0xFE00707F⟩
  | .rem => ⟨.R, 0b0110011, 0b110, 0b0000001, 0x02006033, 0xFE00707F⟩
  | .remu => ⟨.R, 0b0110011, 0b111, 0b0000001, 0x02007033, 0xFE00707F⟩
  | .addi => ⟨.I, 0b0010011, 0b000, 0b0000000, 0x00000013, 0x0000707F⟩
  | .slti => ⟨.I, 0b0010011, 0b010, 0b0000000, 0x00002013, 0x0000707F⟩
  | .sltiu => ⟨.I, 0b0010011, 0b011, 0b0000000, 0x00003013, 0x0000707F⟩
  | .xori => ⟨.I, 0b0010011, 0b100, 0b0000000, 0x00004013, 0x0000707F⟩
  | .ori => ⟨.I, 0b0010011, 0b110, 0b0000000, 0x00006013, 0x0000707F⟩
  | .andi => ⟨.I, 0b0010011, 0b111, 0b0000000, 0x00007013, 0x0000707F⟩
  | .slli => ⟨.shift, 0b0010011, 0b001, 0b0000000, 0x00001013, 0xFE00707F⟩
  | .srli => ⟨.shift, 0b0010011, 0b101, 0b0000000, 0x00005013, 0xFE00707F⟩
  | .srai => ⟨.shift, 0b0010011, 0b101, 0b0100000, 0x40005013, 0xFE00707F⟩
  | .lb => ⟨.I, 0b0000011, 0b000, 0b0000000, 0x00000003, 0x0000707F⟩
  | .lh => ⟨.I, 0b0000011, 0b001, 0b0000000, 0x00001003, 0x0000707F⟩
  | .lw => ⟨.I, 0b0000011, 0b010, 0b0000000, 0x00002003, 0x0000707F⟩
  | .lbu => ⟨.I, 0b0000011, 0b100, 0b0000000, 0x00004003, 0x0000707F⟩
  | .lhu => ⟨.I, 0b0000011, 0b101, 0b0000000, 0x00005003, 0x0000707F⟩
  | .sb => ⟨.S, 0b0100011, 0b000, 0b0000000, 0x00000023, 0x0000707F⟩
  | .sh => ⟨.S, 0b0100011, 0b001, 0b0000000, 0x00001023, 0x0000707F⟩
  | .sw => ⟨.S, 0b0100011, 0b010, 0b0000000, 0x00002023, 0x0000707F⟩
  | .beq => ⟨.B, 0b1100011, 0b000, 0b0000000, 0x00000063, 0x0000707F⟩
  | .bne => ⟨.B, 0b1100011, 0b001, 0b0000000, 0x00001063, 0x0000707F⟩
  | .blt => ⟨.B, 0b1100011, 0b100, 0b0000000, 0x00004063, 0x0000707F⟩
  | .bge => ⟨.B, 0b1100011, 0b101, 0b0000000, 0x00005063, 0x0000707F⟩
  | .bltu => ⟨.B, 0b1100011, 0b110, 0b0000000, 0x00006063, 0x0000707F⟩
  | .bgeu => ⟨.B, 0b1100011, 0b111, 0b0000000, 0x00007063, 0x0000707F⟩
  | .lui => ⟨.U, 0b0110111, 0b000, 0b0000000, 0x00000037, 0x0000007F⟩
  | .auipc => ⟨.U, 0b0010111, 0b000, 0b0000000, 0x00000017, 0x0000007F⟩
  | .jal => ⟨.J, 0b1101111, 0b000, 0b0000000, 0x0000006F, 0x0000007F⟩
  | .jalr => ⟨.I, 0b1100111, 0b000, 0b0000000, 0x00000067, 0x0000707F⟩
  | .ecall => ⟨.system, 0b1110011, 0b000, 0b0000000, 0x00000073, 0xFFFFFFFF⟩
  | .invalid => ⟨.zeroWord, 0b0000000, 0b000, 0b0000000, 0x00000000, 0xFFFFFFFF⟩

def mnemonicsR : List Mnemonic := [.add, .sub, .sll, .slt, .sltu, .xor, .srl, .sra, .or, .and]
def mnemonicsM : List Mnemonic := [.mul, .mulh, .mulhsu, .mulhu, .div, .divu, .rem, .remu]
def mnemonicsI : List Mnemonic := [.addi, .slti, .sltiu, .xori, .ori, .andi]
def mnemonicsSh : List Mnemonic := [.slli, .srli, .srai]
def mnemonicsL : List Mnemonic := [.lb, .lh, .lw, .lbu, .lhu]
def mnemonicsS : List Mnemonic := [.sb, .sh, .sw]
def mnemonicsB : List Mnemonic := [.beq, .bne, .blt, .bge, .bltu, .bgeu]
def mnemonicsU : List Mnemonic := [.lui, .auipc]
def mnemonicsJ : List Mnemonic := [.jal]
def mnemonicsJR : List Mnemonic := [.jalr]

/-- Every row but `invalid`, in the table's order. -/
def decodable : List Mnemonic :=
  mnemonicsR ++ mnemonicsM ++ mnemonicsI ++ mnemonicsSh ++ mnemonicsL ++ mnemonicsS ++ mnemonicsB ++
    mnemonicsU ++ mnemonicsJ ++ mnemonicsJR ++ [.ecall]

/-- "a word `w` is this instruction iff `(w & mask) = match`" (R112). -/
def Row.matchesWord (r : Row) (w : Word) : Bool := w &&& r.mask == r.pattern

/-! ## Decoding (R113 to R115) -/

/-- The instruction of a row, its operands taken from the word by R105. -/
def build (w : Word) : Mnemonic → Instr
  | .add => .add (rdOf w) (rs1Of w) (rs2Of w)
  | .sub => .sub (rdOf w) (rs1Of w) (rs2Of w)
  | .sll => .sll (rdOf w) (rs1Of w) (rs2Of w)
  | .slt => .slt (rdOf w) (rs1Of w) (rs2Of w)
  | .sltu => .sltu (rdOf w) (rs1Of w) (rs2Of w)
  | .xor => .xor (rdOf w) (rs1Of w) (rs2Of w)
  | .srl => .srl (rdOf w) (rs1Of w) (rs2Of w)
  | .sra => .sra (rdOf w) (rs1Of w) (rs2Of w)
  | .or => .or (rdOf w) (rs1Of w) (rs2Of w)
  | .and => .and (rdOf w) (rs1Of w) (rs2Of w)
  | .mul => .mul (rdOf w) (rs1Of w) (rs2Of w)
  | .mulh => .mulh (rdOf w) (rs1Of w) (rs2Of w)
  | .mulhsu => .mulhsu (rdOf w) (rs1Of w) (rs2Of w)
  | .mulhu => .mulhu (rdOf w) (rs1Of w) (rs2Of w)
  | .div => .div (rdOf w) (rs1Of w) (rs2Of w)
  | .divu => .divu (rdOf w) (rs1Of w) (rs2Of w)
  | .rem => .rem (rdOf w) (rs1Of w) (rs2Of w)
  | .remu => .remu (rdOf w) (rs1Of w) (rs2Of w)
  | .addi => .addi (rdOf w) (rs1Of w) ((immI w).setWidth 12)
  | .slti => .slti (rdOf w) (rs1Of w) ((immI w).setWidth 12)
  | .sltiu => .sltiu (rdOf w) (rs1Of w) ((immI w).setWidth 12)
  | .xori => .xori (rdOf w) (rs1Of w) ((immI w).setWidth 12)
  | .ori => .ori (rdOf w) (rs1Of w) ((immI w).setWidth 12)
  | .andi => .andi (rdOf w) (rs1Of w) ((immI w).setWidth 12)
  | .slli => .slli (rdOf w) (rs1Of w) ((shamtOf w).setWidth 5)
  | .srli => .srli (rdOf w) (rs1Of w) ((shamtOf w).setWidth 5)
  | .srai => .srai (rdOf w) (rs1Of w) ((shamtOf w).setWidth 5)
  | .lb => .lb (rdOf w) (rs1Of w) ((immI w).setWidth 12)
  | .lh => .lh (rdOf w) (rs1Of w) ((immI w).setWidth 12)
  | .lw => .lw (rdOf w) (rs1Of w) ((immI w).setWidth 12)
  | .lbu => .lbu (rdOf w) (rs1Of w) ((immI w).setWidth 12)
  | .lhu => .lhu (rdOf w) (rs1Of w) ((immI w).setWidth 12)
  | .sb => .sb (rs2Of w) (rs1Of w) ((immS w).setWidth 12)
  | .sh => .sh (rs2Of w) (rs1Of w) ((immS w).setWidth 12)
  | .sw => .sw (rs2Of w) (rs1Of w) ((immS w).setWidth 12)
  | .beq => .beq (rs1Of w) (rs2Of w) ((immB w).setWidth 13)
  | .bne => .bne (rs1Of w) (rs2Of w) ((immB w).setWidth 13)
  | .blt => .blt (rs1Of w) (rs2Of w) ((immB w).setWidth 13)
  | .bge => .bge (rs1Of w) (rs2Of w) ((immB w).setWidth 13)
  | .bltu => .bltu (rs1Of w) (rs2Of w) ((immB w).setWidth 13)
  | .bgeu => .bgeu (rs1Of w) (rs2Of w) ((immB w).setWidth 13)
  | .lui => .lui (rdOf w) (imm20Of w)
  | .auipc => .auipc (rdOf w) (imm20Of w)
  | .jal => .jal (rdOf w) ((immJ w).setWidth 21)
  | .jalr => .jalr (rdOf w) (rs1Of w) ((immI w).setWidth 12)
  | .ecall => .ecall
  | .invalid => .invalid

/-- Why bytes are no instruction: there are fewer than four, or the word is illegal, by the row of
R114 it falls under. -/
inductive Reject where
  | truncated                 -- fewer than four bytes
  | lowBitsNotOnes (w : Word) -- `bits[1:0] != 11`, word not zero
  | fence (w : Word)          -- `opcode = 0001111`
  | system (w : Word)         -- `opcode = 1110011`, word other than `ecall`
  | opFunct (w : Word)        -- `opcode = 0110011`, no such `funct7`, `funct3`
  | shiftFunct (w : Word)     -- `opcode = 0010011`, a shift with other `bits[31:25]`
  | loadFunct (w : Word)      -- `opcode = 0000011`, no such `funct3`
  | storeFunct (w : Word)     -- `opcode = 0100011`, no such `funct3`
  | branchFunct (w : Word)    -- `opcode = 1100011`, no such `funct3`
  | jalrFunct (w : Word)      -- `opcode = 1100111`, `funct3` not `000`
  | otherOpcode (w : Word)    -- every other opcode
deriving DecidableEq, Repr

/-- The row of R114 an illegal word falls under. -/
def rejectIllegal (w : Word) : Reject :=
  if w &&& 3 ≠ 3 then .lowBitsNotOnes w
  else if opcodeOf w = 0b0001111 then .fence w
  else if opcodeOf w = 0b1110011 then .system w
  else if opcodeOf w = 0b0110011 then .opFunct w
  else if opcodeOf w = 0b0010011 then .shiftFunct w
  else if opcodeOf w = 0b0000011 then .loadFunct w
  else if opcodeOf w = 0b0100011 then .storeFunct w
  else if opcodeOf w = 0b1100011 then .branchFunct w
  else if opcodeOf w = 0b1100111 then .jalrFunct w
  else .otherOpcode w

/-- R113: the halt word first (R115), then the row that matches, else illegal. -/
def decodeWord (w : Word) : Except Reject Instr :=
  if w = 0#32 then .ok .invalid
  else
    match decodable.find? (fun m => (row m).matchesWord w) with
    | some m => .ok (build w m)
    | none => .error (rejectIllegal w)

/-- The instruction at the front of a list of bytes, and the rest of the list (R95). -/
def decodeBytes : List Byte → Except Reject (Instr × List Byte)
  | b0 :: b1 :: b2 :: b3 :: rest =>
    match decodeWord (leWord [b0, b1, b2, b3]) with
    | .ok i => .ok (i, rest)
    | .error r => .error r
  | _ => .error .truncated

/-- The four bytes of an instruction whose bits are `w`; the bits above `nbits` are zero. -/
def tableBytes (nbits w : Nat) : List Byte := leBytes 4 (BitVec.ofNat 32 (w % 2 ^ nbits))

/-- The decoder's reading of an instruction given as one number. -/
def decodeTableWord (nbits w : Nat) : Option Instr :=
  match decodeBytes (tableBytes nbits w) with
  | .ok (i, _) => some i
  | .error _ => none

/-! ## Encoding (R104, R106) -/

def encR (op f3 f7 rd rs1 rs2 : Word) : Word :=
  pack (pack (pack (pack (pack (pack 0 op fOpcode) rd fRd) f3 fFunct3) rs1 fRs1) rs2 fRs2) f7 fFunct7

def encI (op f3 rd rs1 imm : Word) : Word :=
  pack (pack (pack (pack (pack 0 op fOpcode) rd fRd) f3 fFunct3) rs1 fRs1) imm fImmI

/-- The shift form: the amount in the `rs2` position. -/
def encShift (op f3 f7 rd rs1 sh : Word) : Word := encR op f3 f7 rd rs1 sh

def encS (op f3 rs1 rs2 imm : Word) : Word :=
  pack (pack (pack (pack (pack (pack 0 op fOpcode) imm fImmSLo) f3 fFunct3) rs1 fRs1) rs2 fRs2)
    (imm.sshiftRight 5) fImmSHi

def encB (op f3 rs1 rs2 d : Word) : Word :=
  pack (pack (pack (pack (pack (pack (pack (pack 0 op fOpcode) (d.sshiftRight 11) fImmB11)
    (d.sshiftRight 1) fImmBLo) f3 fFunct3) rs1 fRs1) rs2 fRs2) (d.sshiftRight 5) fImmBHi)
    (d.sshiftRight 12) fImmB12

def encU (op rd imm20 : Word) : Word := pack (pack (pack 0 op fOpcode) rd fRd) imm20 fImmU

def encJ (op rd d : Word) : Word :=
  pack (pack (pack (pack (pack (pack 0 op fOpcode) rd fRd) (d.sshiftRight 12) fImmJHi)
    (d.sshiftRight 11) fImmJ11) (d.sshiftRight 1) fImmJLo) (d.sshiftRight 20) fImmJ20

/-- ENC's word path (R111): the word of row `m` with the given operands, each masked to its field
(R106). `imm` is the immediate, shift amount, 20-bit field value or byte displacement, by format. -/
def encWord (m : Mnemonic) (rd rs1 rs2 imm : Word) : Word :=
  match (row m).format with
  | .R => encR (row m).opcode (row m).funct3 (row m).funct7 rd rs1 rs2
  | .I => encI (row m).opcode (row m).funct3 rd rs1 imm
  | .shift => encShift (row m).opcode (row m).funct3 (row m).funct7 rd rs1 imm
  | .S => encS (row m).opcode (row m).funct3 rs1 rs2 imm
  | .B => encB (row m).opcode (row m).funct3 rs1 rs2 imm
  | .U => encU (row m).opcode rd imm
  | .J => encJ (row m).opcode rd imm
  | .system => encI (row m).opcode (row m).funct3 0 0 0
  | .zeroWord => 0

/-- The row an instruction belongs to. -/
def Instr.mnemonic : Instr → Mnemonic
  | .add _ _ _ => .add
  | .sub _ _ _ => .sub
  | .sll _ _ _ => .sll
  | .slt _ _ _ => .slt
  | .sltu _ _ _ => .sltu
  | .xor _ _ _ => .xor
  | .srl _ _ _ => .srl
  | .sra _ _ _ => .sra
  | .or _ _ _ => .or
  | .and _ _ _ => .and
  | .mul _ _ _ => .mul
  | .mulh _ _ _ => .mulh
  | .mulhsu _ _ _ => .mulhsu
  | .mulhu _ _ _ => .mulhu
  | .div _ _ _ => .div
  | .divu _ _ _ => .divu
  | .rem _ _ _ => .rem
  | .remu _ _ _ => .remu
  | .addi _ _ _ => .addi
  | .slti _ _ _ => .slti
  | .sltiu _ _ _ => .sltiu
  | .xori _ _ _ => .xori
  | .ori _ _ _ => .ori
  | .andi _ _ _ => .andi
  | .slli _ _ _ => .slli
  | .srli _ _ _ => .srli
  | .srai _ _ _ => .srai
  | .lb _ _ _ => .lb
  | .lh _ _ _ => .lh
  | .lw _ _ _ => .lw
  | .lbu _ _ _ => .lbu
  | .lhu _ _ _ => .lhu
  | .sb _ _ _ => .sb
  | .sh _ _ _ => .sh
  | .sw _ _ _ => .sw
  | .beq _ _ _ => .beq
  | .bne _ _ _ => .bne
  | .blt _ _ _ => .blt
  | .bge _ _ _ => .bge
  | .bltu _ _ _ => .bltu
  | .bgeu _ _ _ => .bgeu
  | .lui _ _ => .lui
  | .auipc _ _ => .auipc
  | .jal _ _ => .jal
  | .jalr _ _ _ => .jalr
  | .ecall => .ecall
  | .invalid => .invalid

/-- An instruction's operands, as the word path takes them; one the instruction has not is zero. -/
structure InstrFields where
  rd  : RegIdx
  rs1 : RegIdx
  rs2 : RegIdx
  imm : Word
deriving DecidableEq, Repr

def Instr.operands : Instr → InstrFields
  | .add rd rs1 rs2 => ⟨rd, rs1, rs2, 0⟩
  | .sub rd rs1 rs2 => ⟨rd, rs1, rs2, 0⟩
  | .sll rd rs1 rs2 => ⟨rd, rs1, rs2, 0⟩
  | .slt rd rs1 rs2 => ⟨rd, rs1, rs2, 0⟩
  | .sltu rd rs1 rs2 => ⟨rd, rs1, rs2, 0⟩
  | .xor rd rs1 rs2 => ⟨rd, rs1, rs2, 0⟩
  | .srl rd rs1 rs2 => ⟨rd, rs1, rs2, 0⟩
  | .sra rd rs1 rs2 => ⟨rd, rs1, rs2, 0⟩
  | .or rd rs1 rs2 => ⟨rd, rs1, rs2, 0⟩
  | .and rd rs1 rs2 => ⟨rd, rs1, rs2, 0⟩
  | .mul rd rs1 rs2 => ⟨rd, rs1, rs2, 0⟩
  | .mulh rd rs1 rs2 => ⟨rd, rs1, rs2, 0⟩
  | .mulhsu rd rs1 rs2 => ⟨rd, rs1, rs2, 0⟩
  | .mulhu rd rs1 rs2 => ⟨rd, rs1, rs2, 0⟩
  | .div rd rs1 rs2 => ⟨rd, rs1, rs2, 0⟩
  | .divu rd rs1 rs2 => ⟨rd, rs1, rs2, 0⟩
  | .rem rd rs1 rs2 => ⟨rd, rs1, rs2, 0⟩
  | .remu rd rs1 rs2 => ⟨rd, rs1, rs2, 0⟩
  | .addi rd rs1 imm => ⟨rd, rs1, 0, imm.signExtend 32⟩
  | .slti rd rs1 imm => ⟨rd, rs1, 0, imm.signExtend 32⟩
  | .sltiu rd rs1 imm => ⟨rd, rs1, 0, imm.signExtend 32⟩
  | .xori rd rs1 imm => ⟨rd, rs1, 0, imm.signExtend 32⟩
  | .ori rd rs1 imm => ⟨rd, rs1, 0, imm.signExtend 32⟩
  | .andi rd rs1 imm => ⟨rd, rs1, 0, imm.signExtend 32⟩
  | .slli rd rs1 shamt => ⟨rd, rs1, 0, shamt.setWidth 32⟩
  | .srli rd rs1 shamt => ⟨rd, rs1, 0, shamt.setWidth 32⟩
  | .srai rd rs1 shamt => ⟨rd, rs1, 0, shamt.setWidth 32⟩
  | .lb rd rs1 imm => ⟨rd, rs1, 0, imm.signExtend 32⟩
  | .lh rd rs1 imm => ⟨rd, rs1, 0, imm.signExtend 32⟩
  | .lw rd rs1 imm => ⟨rd, rs1, 0, imm.signExtend 32⟩
  | .lbu rd rs1 imm => ⟨rd, rs1, 0, imm.signExtend 32⟩
  | .lhu rd rs1 imm => ⟨rd, rs1, 0, imm.signExtend 32⟩
  | .sb rs2 rs1 imm => ⟨0, rs1, rs2, imm.signExtend 32⟩
  | .sh rs2 rs1 imm => ⟨0, rs1, rs2, imm.signExtend 32⟩
  | .sw rs2 rs1 imm => ⟨0, rs1, rs2, imm.signExtend 32⟩
  | .beq rs1 rs2 disp => ⟨0, rs1, rs2, disp.signExtend 32⟩
  | .bne rs1 rs2 disp => ⟨0, rs1, rs2, disp.signExtend 32⟩
  | .blt rs1 rs2 disp => ⟨0, rs1, rs2, disp.signExtend 32⟩
  | .bge rs1 rs2 disp => ⟨0, rs1, rs2, disp.signExtend 32⟩
  | .bltu rs1 rs2 disp => ⟨0, rs1, rs2, disp.signExtend 32⟩
  | .bgeu rs1 rs2 disp => ⟨0, rs1, rs2, disp.signExtend 32⟩
  | .lui rd imm20 => ⟨rd, 0, 0, imm20.setWidth 32⟩
  | .auipc rd imm20 => ⟨rd, 0, 0, imm20.setWidth 32⟩
  | .jal rd disp => ⟨rd, 0, 0, disp.signExtend 32⟩
  | .jalr rd rs1 imm => ⟨rd, rs1, 0, imm.signExtend 32⟩
  | .ecall => ⟨0, 0, 0, 0⟩
  | .invalid => ⟨0, 0, 0, 0⟩

/-- The word of an instruction. -/
def encode (i : Instr) : Word :=
  encWord i.mnemonic (i.operands.rd.setWidth 32) (i.operands.rs1.setWidth 32)
    (i.operands.rs2.setWidth 32) i.operands.imm

/-- The four bytes of an instruction, lowest address first (R95). -/
def encodeBytes (i : Instr) : List Byte := leBytes 4 (encode i)

end Sys2Proof
end

