-- ==== Sys2Proof/Machine/Flags.lean ====
section
/-! DEFINITION. Comparisons. The machine has no flags (`10_state.md` rule R27): a comparison writes 0
or 1 to a register or decides a branch. -/

namespace Sys2Proof.Machine

open Sys2Proof

/-- `signed(a) < signed(b)`. -/
def ltSigned (a b : Word) : Bool := decide (a.toInt < b.toInt)

/-- `unsigned(a) < unsigned(b)`. -/
def ltUnsigned (a b : Word) : Bool := decide (a.toNat < b.toNat)

/-- The 0 or 1 a comparison writes. -/
def boolWord (b : Bool) : Word := if b then 1 else 0

/-- The comparator's conditions (R152, R261 to R266). -/
inductive BranchCond where
  | eq | ne | lt | ge | ltu | geu
deriving DecidableEq, Repr

def condHolds : BranchCond → Word → Word → Bool
  | .eq, a, b => decide (a = b)
  | .ne, a, b => !decide (a = b)
  | .lt, a, b => ltSigned a b
  | .ge, a, b => !ltSigned a b
  | .ltu, a, b => ltUnsigned a b
  | .geu, a, b => !ltUnsigned a b

end Sys2Proof.Machine
end

