-- ==== Sys2Proof/Machine/Alu.lean ====
section
/-! DEFINITION. The ALU (`40_engine_step.md` rule R151) and the arithmetic of the multiply and divide
instructions (`42_r_type_muldiv.md` rules R191 to R199). -/

namespace Sys2Proof.Machine

open Sys2Proof

inductive AluOp where
  | add | sub | sll | slt | sltu | xor | or | and | srl | sra
  | mul | mulh | mulhsu | mulhu | div | divu | rem | remu
deriving DecidableEq, Repr

/-- A shift amount: the low 5 bits of the operand (R173, R177, R178). -/
def shiftAmount (b : Word) : Nat := (b &&& 31).toNat

/-- Bits `[63:32]` of the 64-bit two's-complement product (R192 to R194). -/
def productHigh (p : Int) : Word := (BitVec.ofInt 64 p).extractLsb' 32 32

/-- R195. -/
def divSigned (a b : Word) : Word :=
  if b.toInt = 0 then 0xFFFFFFFF
  else if a.toInt = -2 ^ 31 ∧ b.toInt = -1 then 0x80000000
  else BitVec.ofInt 32 (a.toInt.tdiv b.toInt)

/-- R196. -/
def divUnsigned (a b : Word) : Word :=
  if b.toNat = 0 then 0xFFFFFFFF else BitVec.ofNat 32 (a.toNat / b.toNat)

/-- R197. -/
def remSigned (a b : Word) : Word :=
  if b.toInt = 0 then a
  else if a.toInt = -2 ^ 31 ∧ b.toInt = -1 then 0
  else BitVec.ofInt 32 (a.toInt - b.toInt * a.toInt.tdiv b.toInt)

/-- R198. -/
def remUnsigned (a b : Word) : Word :=
  if b.toNat = 0 then a else BitVec.ofNat 32 (a.toNat % b.toNat)

/-- R151. -/
def alu : AluOp → Word → Word → Word
  | .add, a, b => a + b
  | .sub, a, b => a - b
  | .sll, a, b => a <<< shiftAmount b
  | .slt, a, b => boolWord (ltSigned a b)
  | .sltu, a, b => boolWord (ltUnsigned a b)
  | .xor, a, b => a ^^^ b
  | .or, a, b => a ||| b
  | .and, a, b => a &&& b
  | .srl, a, b => a >>> shiftAmount b
  | .sra, a, b => a.sshiftRight (shiftAmount b)
  | .mul, a, b => a * b
  | .mulh, a, b => productHigh (a.toInt * b.toInt)
  | .mulhsu, a, b => productHigh (a.toInt * b.toNat)
  | .mulhu, a, b => productHigh (a.toNat * b.toNat)
  | .div, a, b => divSigned a b
  | .divu, a, b => divUnsigned a b
  | .rem, a, b => remSigned a b
  | .remu, a, b => remUnsigned a b

end Sys2Proof.Machine
end

