-- ==== Sys2Proof/Machine/Memory.lean ====
section
/-! DEFINITION. The block `AS` (`20_memory.md`): regions, lookup, the gated access and allocation.
The contents are ONE list of (address, byte) cells in canonical form; an address that no cell lists
reads as the region fill (R37, R54). -/

namespace Sys2Proof.Machine

open Sys2Proof

/-- A region's place and mode (R50). Its `bytes` are the cells of `Memory` at addresses
`base .. base + length - 1`. `length` is a natural number because a region may span all `2^32`
addresses. -/
structure Region where
  base   : Word
  length : Nat
  mode   : AccessMode
deriving DecidableEq, Repr, Inhabited

/-- The address space (R30): the regions, sorted by base, and the bytes that differ from the fill. -/
structure Memory where
  regions : List Region
  cells   : List Host.Cell
deriving DecidableEq, Repr, Inhabited

/-- Why an access is refused (R57, R342). -/
inductive ViolationReason where
  | unmapped     -- no region covers the first byte, or the access runs past its region's end
  | modeMissing  -- a requested flag is absent from the covering region's mode
deriving DecidableEq, Repr

/-- What a refused access records (R342): the reason, the first address, the request mode. -/
structure Violation where
  reason : ViolationReason
  addr   : Word
  req    : AccessMode
deriving DecidableEq, Repr

/-- The number of bytes one engine access moves (R64): 1, 2 or 4. -/
inductive AccessSize where
  | byte | half | word
deriving DecidableEq, Repr

def AccessSize.bytes : AccessSize → Nat
  | .byte => 1
  | .half => 2
  | .word => 4

/-- `MODE_READ = 4`, `MODE_WRITE = 2`, `MODE_EXEC = 1` (R7, R52), and the loader port's request
mode 0 (R69). -/
def modeRead : AccessMode := 4
def modeWrite : AccessMode := 2
def modeExec : AccessMode := 1
def modeLoader : AccessMode := 0

/-! ## Contents -/

/-- What an address that no cell lists reads as: `REGION_FILL`, in every byte of a newly allocated
region (R37, R54). -/
def unlistedByte (fill : Byte) : Byte := fill

/-- The byte at an address. -/
def cellGet (fill : Byte) : List Host.Cell → Nat → Byte
  | [], _ => unlistedByte fill
  | (k, v) :: cs, a => if k = a then v else cellGet fill cs a

/-- A cell in front of a list, left out when it holds what an unlisted address reads as. -/
def cellCons (fill : Byte) (a : Nat) (b : Byte) (cs : List Host.Cell) : List Host.Cell :=
  if b = unlistedByte fill then cs else (a, b) :: cs

/-- The cells with one byte replaced, in canonical form again. -/
def cellSet (fill : Byte) : List Host.Cell → Nat → Byte → List Host.Cell
  | [], a, b => cellCons fill a b []
  | (k, v) :: cs, a, b =>
    if a < k then cellCons fill a b ((k, v) :: cs)
    else if a = k then cellCons fill a b cs
    else (k, v) :: cellSet fill cs a b

/-- `n` bytes from address `a` up. -/
def cellGetN (fill : Byte) (cs : List Host.Cell) : Nat → Nat → List Byte
  | 0, _ => []
  | n + 1, a => cellGet fill cs a :: cellGetN fill cs n (a + 1)

/-- Consecutive bytes written from address `a` up. -/
def cellSetN (fill : Byte) : List Host.Cell → Nat → List Byte → List Host.Cell
  | cs, _, [] => cs
  | cs, a, b :: bs => cellSetN fill (cellSet fill cs a b) (a + 1) bs

/-! ## Lookup and the access check -/

/-- The region with the greatest base. -/
def highest : List Region → Option Region
  | [] => none
  | r :: rs =>
    match highest rs with
    | none => some r
    | some q => if r.base.toNat ≤ q.base.toNat then some q else some r

/-- R53: the region with the greatest base not above the address, if the address falls within it. -/
def Memory.lookup (m : Memory) (addr : Word) : Option Region :=
  match highest (m.regions.filter fun r => decide (r.base.toNat ≤ addr.toNat)) with
  | none => none
  | some r => if addr.toNat - r.base.toNat < r.length then some r else none

/-- R57: the three tests, in the rule's order (`Unmapped`, `ModeMissing`, past the region's end). -/
def Memory.check (m : Memory) (addr : Word) (n : Nat) (req : AccessMode) : Except Violation Region :=
  match m.lookup addr with
  | none => .error ⟨.unmapped, addr, req⟩
  | some r =>
    if req &&& ~~~r.mode &&& 7 ≠ 0 then .error ⟨.modeMissing, addr, req⟩
    else if (addr.toNat - r.base.toNat) + n > r.length then .error ⟨.unmapped, addr, req⟩
    else .ok r

/-! ## Gated accesses -/

/-- `ReadByte` (R58). -/
def Memory.readByte (fill : Byte) (m : Memory) (addr : Word) (req : AccessMode) :
    Except Violation Byte :=
  match m.check addr 1 req with
  | .error v => .error v
  | .ok _ => .ok (cellGet fill m.cells addr.toNat)

/-- `WriteByte` (R59). -/
def Memory.writeByte (fill : Byte) (m : Memory) (addr : Word) (req : AccessMode) (b : Byte) :
    Except Violation Memory :=
  match m.check addr 1 req with
  | .error v => .error v
  | .ok _ => .ok { m with cells := cellSet fill m.cells addr.toNat b }

/-- `ReadN` (R60): one check, then the little-endian value, zero-extended to a word. -/
def Memory.readN (fill : Byte) (m : Memory) (addr : Word) (n : Nat) (req : AccessMode) :
    Except Violation Word :=
  match m.check addr n req with
  | .error v => .error v
  | .ok _ => .ok (leWord (cellGetN fill m.cells n addr.toNat))

/-- `WriteN` (R61): one check before any byte is written, then the low `n` bytes of the value. -/
def Memory.writeN (fill : Byte) (m : Memory) (addr : Word) (n : Nat) (req : AccessMode) (v : Word) :
    Except Violation Memory :=
  match m.check addr n req with
  | .error e => .error e
  | .ok _ => .ok { m with cells := cellSetN fill m.cells addr.toNat (leBytes n v) }

/-! ## Allocation -/

/-- `roundup` of R54: the length rounded up to the next multiple of the page size. -/
def roundUp (page length : Nat) : Nat := (length + page - 1) / page * page

/-- Whether the span `[base, base + length)` meets a region's span. -/
def Region.meets (r : Region) (base length : Nat) : Bool :=
  decide (base < r.base.toNat + r.length) && decide (r.base.toNat < base + length)

/-- A region inserted in sorted position (R51, R54). -/
def insertRegion (r : Region) : List Region → List Region
  | [] => [r]
  | q :: qs => if r.base.toNat < q.base.toNat then r :: q :: qs else q :: insertRegion r qs

/-- `Allocate(base, length, mode)` (R54); `none` is the rejection, which changes nothing. Every byte
of the new region reads as the fill, because no cell lists it. -/
def Memory.allocate (page : Nat) (m : Memory) (base : Word) (length : Nat) (mode : AccessMode) :
    Option Memory :=
  if length = 0 ∨ base.toNat % page ≠ 0 ∨ base.toNat + roundUp page length > 2 ^ 32 ∨
      m.regions.any (fun r => r.meets base.toNat (roundUp page length)) = true then none
  else some { m with regions := insertRegion ⟨base, roundUp page length, mode⟩ m.regions }

/-- The base `AllocateAnywhere` asks for (R55): one page past the end of the highest region, or
`PAGE_SIZE` when there is none. -/
def Memory.anywhereBase (page : Nat) (m : Memory) : Nat :=
  match highest m.regions with
  | none => page
  | some r => r.base.toNat + r.length + page

/-- `AllocateAnywhere(length, mode)` (R55): the base chosen and the new address space. -/
def Memory.allocateAnywhere (page : Nat) (m : Memory) (length : Nat) (mode : AccessMode) :
    Option (Word × Memory) :=
  if m.anywhereBase page < 2 ^ 32 then
    match m.allocate page (BitVec.ofNat 32 (m.anywhereBase page)) length mode with
    | none => none
    | some m' => some (BitVec.ofNat 32 (m.anywhereBase page), m')
  else none

/-! ## The canonical form -/

/-- R50 for one region: page-aligned, a positive whole number of pages, below `2^32`. -/
def Region.wf (page : Nat) (r : Region) : Bool :=
  decide (0 < r.length) && decide (r.length % page = 0) && decide (r.base.toNat % page = 0) &&
    decide (r.base.toNat + r.length ≤ 2 ^ 32)

/-- R51: sorted by base, no two overlapping. -/
def regionsSorted : List Region → Bool
  | [] => true
  | [_] => true
  | r :: q :: rs => decide (r.base.toNat + r.length ≤ q.base.toNat) && regionsSorted (q :: rs)

/-- Every listed address is above the bound, they rise strictly, and no cell holds the fill. -/
def cellsSortedFrom (fill : Byte) : Nat → List Host.Cell → Bool
  | _, [] => true
  | lo, (k, v) :: cs =>
    decide (lo ≤ k) && decide (v ≠ unlistedByte fill) && cellsSortedFrom fill (k + 1) cs

/-- Whether some region holds the address: an address in none "holds nothing" (R30). -/
def covered (rs : List Region) (a : Nat) : Bool :=
  rs.any fun r => decide (r.base.toNat ≤ a) && decide (a < r.base.toNat + r.length)

/-- The address space is in its one form: R50 and R51 hold, and the cells are canonical and lie in
regions. -/
def Memory.wf (page : Nat) (fill : Byte) (m : Memory) : Bool :=
  m.regions.all (Region.wf page) && regionsSorted m.regions && cellsSortedFrom fill 0 m.cells &&
    m.cells.all (fun c => covered m.regions c.1)

end Sys2Proof.Machine
end

