-- ==== Sys2Proof/Config.lean ====
section
/-! DEFINITION. The parameters of `00_scope.md` rule R8, and the one thing the hardware does not fix:
what the external trap handler does (R157, R352). -/

namespace Sys2Proof

/-- The parameters a model takes as arguments (R8). They stand in a field of State that nothing
writes, so that every claim holds for all their values. -/
structure Params where
  /-- `WATCHDOG_BUDGET`: how many instructions one run executes (R148). -/
  watchdogBudget : Nat
  /-- `PAGE_SIZE`: the region granule in bytes, a power of two (R8, D4). -/
  pageSize : Nat
  /-- `REGION_FILL`: every byte of a newly allocated region (R37). -/
  regionFill : Byte
  /-- Whether a trap handler is attached (R383 item 7). -/
  handlerAttached : Bool
  /-- `SYS_WRITE`, `SYS_READ`, `SYS_OPEN`, `SYS_CLOSE` (R353): open, not in the source. -/
  sysWrite : Word
  sysRead : Word
  sysOpen : Word
  sysClose : Word
  /-- `SYS_RET_REG`: the register a syscall's return value goes to (R351). -/
  sysRetReg : RegIdx
deriving DecidableEq, Repr

/-- The limits the spec puts on the parameters: a page size that is a power of two, at least 4 (D4),
syscall numbers pairwise distinct and not zero (D14). -/
def Params.wf (p : Params) : Bool :=
  decide (p.pageSize = 2 ^ Nat.log2 p.pageSize) && decide (4 ≤ p.pageSize) &&
    decide (([0, p.sysWrite, p.sysRead, p.sysOpen, p.sysClose] : List Word).Nodup)

/-- The defaults of R8. DESIGN CHOICE for the four syscall numbers, which have none (log entry 3). -/
def Params.default : Params where
  watchdogBudget := 2000
  pageSize := 4096
  regionFill := 0x00
  handlerAttached := true
  sysWrite := 1
  sysRead := 2
  sysOpen := 3
  sysClose := 4
  sysRetReg := 10

/-- The host's launch arguments as `State.reset` takes them (R37, R380). DESIGN CHOICE (log entry 1). -/
def Config.entry : Word := 0
def Config.initRegs : Vector Word 32 := Vector.replicate 32 0
def Config.cursorInit : Word := 0

/-- `SYS_NUM_REG` and `SYS_ARG_REGS` (R7, R351). -/
def Config.sysNumReg : RegIdx := 17
def Config.sysArg0Reg : RegIdx := 10
def Config.sysArg1Reg : RegIdx := 11
def Config.sysArg2Reg : RegIdx := 12

/-- `SYS_EXIT` (R7, R354). -/
def Config.sysExit : Word := 0

/-- A syscall with its arguments, as R353 writes them: the number from register 17, the arguments in
order from registers 10 to 12. -/
inductive Syscall where
  | exit (code : Word)
  | write (handle address length : Word)
  | read (handle address length : Word)
  | openFile (pathAddress flags : Word)
  | close (handle : Word)
  | other (number : Word)
deriving DecidableEq, Repr

/-- One access a handler makes to the machine (R352). -/
inductive TrapAccess where
  | readByte (addr : Word)
  | writeByte (addr : Word) (b : Byte)
  | writeReg (i : RegIdx) (v : Word)
deriving DecidableEq, Repr

/-- How a handler ends (R291, R352): it returns, with or without a return value, or calls `Stop`, at
most once and last (U14). -/
inductive TrapEnding where
  | returned (result : Option Word)
  | stop (code : Word)
deriving DecidableEq, Repr

/-- What the handler does with one `ecall`: nothing, because it implements no such number (R344), or
some accesses and then an ending. -/
inductive TrapReply where
  | unimplemented
  | runs (accesses : List TrapAccess) (ending : TrapEnding)
deriving DecidableEq, Repr, Inhabited

/-- What the handler may read (R352): the registers, `pc` and the address space. -/
structure TrapView where
  regs : Vector Word 32
  pc   : Word
  mem  : Machine.Memory
deriving DecidableEq, Repr

/-- FREE VALUE (log entry 4): what the external handler does with a syscall other than `exit`. The
first argument is the number of traps taken so far, so that two calls from equal states need not be
answered alike: the handler has a state of its own outside the machine. -/
opaque Config.handlerReply : Nat → Syscall → TrapView → TrapReply

end Sys2Proof
end

