-- ==== Sys2Proof/Machine/State.lean ====
section
/-! DEFINITION. The complete state of the hardware (`10_state.md` rule R20), its reset values (R37,
R380, R382), and the reasons a step or a host operation is refused. -/

namespace Sys2Proof.Machine

open Sys2Proof

/-- The three kinds of execution-time fault, with what each records (R340, R345). They are values of
`status`, not stops of the model: raising one is a next state (R341). -/
inductive FaultKind where
  | memoryProtectionViolation (v : Violation)
  | illegalInstruction (word : Word)
  | unimplementedSyscall (number : Word)
deriving DecidableEq, Repr

/-- The run status (R28). Every value but `running` is terminal. A fault records the `pc` of its
instruction besides its kind (R345); an exit code is a signed 32-bit value. -/
inductive RunStatus where
  | running
  | halted
  | exited (code : Int)
  | watchdogExpired
  | faulted (kind : FaultKind) (pc : Word)
deriving DecidableEq, Repr

/-- The name of a symbol: one the user wrote, or `AUTO_SYM(n)` (R309). Two constructors make `AUTO_SYM`
injective and its range disjoint from the user's names (D23). -/
inductive SymName where
  | user (name : String)
  | auto (n : Nat)
deriving DecidableEq, Repr

/-- The kinds of relocation (R33). -/
inductive RelocKind where
  | jumpPcRel
  | branchPcRel
  | absoluteWord32
  | hiPcRel20
  | loPcRel12
deriving DecidableEq, Repr

/-- A relocation (R33). -/
structure Reloc where
  siteOffset       : Word
  kind             : RelocKind
  targetSymbolName : SymName
deriving DecidableEq, Repr

/-- A diagnostic record (R330). -/
inductive Diagnostic where
  | duplicateSymbol (name : SymName)
  | unknownSymbol (name : SymName) (site : Word)
  | missingHiPair (site hiAddr : Word)
deriving DecidableEq, Repr

/-- The state (R20). `linked`, `trapCount` and `cfg` are the model's own: whether `Relocate()` has run
(U7, log entry 6), how many traps have been taken (the index of the free value, log entry 4), and the
parameters, which nothing writes (log entry 2). -/
structure State where
  /-- `x[0..31]` (R21, R22). -/
  regs : Vector Word 32
  /-- `pc` (R24 to R26). -/
  pc : Word
  /-- `icount` (R28). -/
  icount : Nat
  /-- `status` (R28). -/
  status : RunStatus
  /-- `regions`, with their bytes (R30). -/
  mem : Memory
  /-- `cursor` (R31). -/
  cursor : Word
  /-- `symbols` (R32). -/
  symbols : List (SymName × Word)
  /-- `relocs`, in recording order (R33). -/
  relocs : List Reloc
  /-- `autoCount` (R32). -/
  autoCount : Nat
  /-- `diagnostics`, oldest first (R34). -/
  diagnostics : List Diagnostic
  linked : Bool
  trapCount : Nat
  cfg : Params
deriving DecidableEq, Repr

/-- Why a step stops. -/
inductive Fault where
  /-- Raised by `step` in a state whose status is not `Running`: `Step()` is "allowed only when
  `status = Running`" (R156), "no step is taken from it" (R28). Safe: it allows no behaviour. -/
  | runEnded
deriving DecidableEq, Repr

/-- Why an operation is refused. No instruction refuses; the host operations do, and change nothing. -/
inductive Refusal where
  /-- For an instruction of the table that has no meaning; no arm of `exec` uses it. Safe. -/
  | notModelled (mnemonic : String)
  /-- Raised by the encoder and the linker: a loader-port access R57 refuses is a host error, "writes
  nothing and is reported to the host" (R69, U18). Safe. -/
  | loaderAccess (v : Violation)
  /-- Raised by `Allocate` and `AllocateAnywhere`: the request "is rejected, with no change of state"
  (R54, R55, U19). Safe. -/
  | allocationRejected
  /-- Raised by the symbolic emit operations: a mnemonic the operand does not go with, for example
  `%pcrel_lo` on a store (R311, R327). Safe. -/
  | operandRefused
  /-- Raised by a second `Relocate()` of one session (R320, U7). Safe. -/
  | alreadyLinked
deriving DecidableEq, Repr

/-- What a step or a host operation answers. -/
abbrev StepResult := Host.Outcome State Fault Refusal

/-- R37: a new address space without regions, a new session, and a launch with the host's default
arguments. The values the spec leaves to the host are those of log entries 1 to 3. -/
def State.reset : State where
  regs := Config.initRegs.set 0 0#32
  pc := Config.entry
  icount := 0
  status := .running
  mem := ⟨[], []⟩
  cursor := Config.cursorInit
  symbols := []
  relocs := []
  autoCount := 0
  diagnostics := []
  linked := false
  trapCount := 0
  cfg := Params.default

end Sys2Proof.Machine
end

