-- ==== Sys2Proof/Machine/Ops.lean ====
section
/-! DEFINITION. The shared operations over the state: registers, `pc`, the engine's ports and the
loader port, raising a fault, and the trap boundary of `ecall`. -/

namespace Sys2Proof.Machine

open Sys2Proof

/-! ## Registers and pc -/

/-- `x[i]`: register 0 reads 0 always (R21). -/
def State.x (s : State) (i : RegIdx) : Word := if i = 0#5 then 0#32 else s.regs.get i.toFin

/-- `x[i] <- v`: the write helper, which discards a write to register 0 and forces it to zero (R22). -/
def State.setX (s : State) (i : RegIdx) (v : Word) : State :=
  { s with regs := (if i = 0#5 then s.regs else s.regs.set i.toNat v i.isLt).set 0 0#32 }

/-- The pc commit at the end of a step: only while the status is `Running` (R147). -/
def State.commitPc (s : State) (npc : Word) : State :=
  if s.status = .running then { s with pc := npc } else s

/-- `icount := icount + 1`, as a step begins (R141 (a)). -/
def State.tick (s : State) : State := { s with icount := s.icount + 1 }

def State.setStatus (s : State) (st : RunStatus) : State := { s with status := st }

def State.setMem (s : State) (m : Memory) : State := { s with mem := m }

/-- `Stop(exitCode)`: the code read as signed 32 bits (R149, R354). -/
def State.stop (s : State) (code : Word) : State := s.setStatus (.exited code.toInt)

/-! ## Faults (R341) -/

/-- `raise K(info)`: the status becomes `Faulted`, with the `pc` of the instruction recorded; no
register, byte or `pc` is written. -/
def State.raise (s : State) (k : FaultKind) : State := s.setStatus (.faulted k s.pc)

/-! ## Ports (R66 to R69) -/

/-- `MemRead`: the Read flag, little-endian, zero-extended. -/
def State.memRead (s : State) (addr : Word) (n : AccessSize) : Except Violation Word :=
  s.mem.readN s.cfg.regionFill addr n.bytes modeRead

/-- `MemWrite`: the Write flag. -/
def State.memWrite (s : State) (addr : Word) (n : AccessSize) (v : Word) : Except Violation State :=
  match s.mem.writeN s.cfg.regionFill addr n.bytes modeWrite v with
  | .error e => .error e
  | .ok m => .ok (s.setMem m)

/-- `MemFetch`: four bytes, the Execute flag. -/
def State.memFetch (s : State) (addr : Word) : Except Violation Word :=
  s.mem.readN s.cfg.regionFill addr 4 modeExec

/-- `LoaderRead`: a covering region, no flag. -/
def State.loaderRead (s : State) (addr : Word) (n : AccessSize) : Except Violation Word :=
  s.mem.readN s.cfg.regionFill addr n.bytes modeLoader

/-- `LoaderWrite`. -/
def State.loaderWrite (s : State) (addr : Word) (n : AccessSize) (v : Word) :
    Except Violation State :=
  match s.mem.writeN s.cfg.regionFill addr n.bytes modeLoader v with
  | .error e => .error e
  | .ok m => .ok (s.setMem m)

/-! ## The trap boundary (R350 to R356) -/

/-- What the handler is given (R352). -/
def State.trapView (s : State) : TrapView := ⟨s.regs, s.pc, s.mem⟩

/-- The syscall the registers name (R351, R353). -/
def State.syscall (s : State) : Syscall :=
  if s.x Config.sysNumReg = Config.sysExit then .exit (s.x Config.sysArg0Reg)
  else if s.x Config.sysNumReg = s.cfg.sysWrite then
    .write (s.x Config.sysArg0Reg) (s.x Config.sysArg1Reg) (s.x Config.sysArg2Reg)
  else if s.x Config.sysNumReg = s.cfg.sysRead then
    .read (s.x Config.sysArg0Reg) (s.x Config.sysArg1Reg) (s.x Config.sysArg2Reg)
  else if s.x Config.sysNumReg = s.cfg.sysOpen then
    .openFile (s.x Config.sysArg0Reg) (s.x Config.sysArg1Reg)
  else if s.x Config.sysNumReg = s.cfg.sysClose then .close (s.x Config.sysArg0Reg)
  else .other (s.x Config.sysNumReg)

/-- What the attached handler answers: `exit` stops with the whole of register 10 and does nothing
else (R354); any other syscall is the external collaborator's (R353). With no handler attached no
number is implemented (R383 item 7). -/
def State.handlerReply (s : State) : TrapReply :=
  if s.cfg.handlerAttached then
    match s.syscall with
    | .exit code => .runs [] (.stop code)
    | call => Config.handlerReply s.trapCount call s.trapView
  else .unimplemented

def State.countTrap (s : State) : State := { s with trapCount := s.trapCount + 1 }

/-- One access of the handler: bytes are gated like loads and stores, registers go through the write
helper (R70, R352). -/
def State.trapAccess (s : State) : TrapAccess → Except Violation State
  | .readByte a =>
    match s.mem.readByte s.cfg.regionFill a modeRead with
    | .error v => .error v
    | .ok _ => .ok s
  | .writeByte a b =>
    match s.mem.writeByte s.cfg.regionFill a modeWrite b with
    | .error v => .error v
    | .ok m => .ok (s.setMem m)
  | .writeReg i v => .ok (s.setX i v)

/-- The handler's accesses in order, up to the first refused one; what was written before it stays
(R341). -/
def State.trapAccesses : List TrapAccess → State → State × Option Violation
  | [], s => (s, none)
  | a :: as, s =>
    match s.trapAccess a with
    | .error v => (s, some v)
    | .ok s' => State.trapAccesses as s'

/-- The trap's return (R355): nothing is restored, for nothing was saved; the step completes with
`pc + 4`, the return value in `SYS_RET_REG` if there is one. `Stop` ends the run instead (R149). -/
def State.trapReturn (s : State) : TrapEnding → State
  | .returned none => s.commitPc (s.pc + 4)
  | .returned (some v) => (s.setX s.cfg.sysRetReg v).commitPc (s.pc + 4)
  | .stop code => s.stop code

/-- Taking the trap (R291, R350): nothing is saved and no mode changes; the handler runs
synchronously inside the step. -/
def State.takeTrap (s : State) : TrapReply → State
  | .unimplemented => s.raise (.unimplementedSyscall (s.x Config.sysNumReg))
  | .runs accesses ending =>
    match State.trapAccesses accesses s with
    | (s', some v) => s'.raise (.memoryProtectionViolation v)
    | (s', none) => s'.trapReturn ending

end Sys2Proof.Machine
end

