-- ==== Sys2Proof/Machine/Operands.lean ====
section
/-! DEFINITION. Operand forms and the shapes of a step that the instruction families share
(`40_engine_step.md` rules R145 to R155). -/

namespace Sys2Proof.Machine

open Sys2Proof

/-- `sext_12` of the immediate of formats I and S (R105). -/
def sext12 (imm : BitVec 12) : Word := imm.signExtend 32

/-- `imm_U`: the 20-bit field in bits 31..12 (R105, R276). -/
def upperImm (imm20 : BitVec 20) : Word := imm20.setWidth 32 <<< 12

/-- Sign and zero extension of a loaded value (R231 to R235). -/
def sext8 (v : Word) : Word := (v.setWidth 8).signExtend 32
def zext8 (v : Word) : Word := (v.setWidth 8).setWidth 32
def sext16 (v : Word) : Word := (v.setWidth 16).signExtend 32
def zext16 (v : Word) : Word := (v.setWidth 16).setWidth 32

/-- The one addressing mode: base plus signed 12-bit displacement, modulo `2^32` (R230, R245). -/
def State.ea (s : State) (rs1 : RegIdx) (imm : BitVec 12) : Word := s.x rs1 + sext12 imm

/-- Events (f) and (h): the result written through the helper, then the next pc committed. -/
def writeAndGo (s : State) (rd : RegIdx) (v npc : Word) : StepResult :=
  .next ((s.setX rd v).commitPc npc)

/-- A register-register instruction (R170, R190). -/
def aluReg (op : AluOp) (rd rs1 rs2 : RegIdx) (s : State) : StepResult :=
  writeAndGo s rd (alu op (s.x rs1) (s.x rs2)) (s.pc + 4)

/-- A register-immediate instruction (R210). -/
def aluImm (op : AluOp) (rd rs1 : RegIdx) (b : Word) (s : State) : StepResult :=
  writeAndGo s rd (alu op (s.x rs1) b) (s.pc + 4)

/-- A load (R230): the access is made whatever `rd` is; a refused one faults before anything is
written. -/
def load (n : AccessSize) (extend : Word → Word) (rd rs1 : RegIdx) (imm : BitVec 12) (s : State) :
    StepResult :=
  match s.memRead (s.ea rs1 imm) n with
  | .error v => .next (s.raise (.memoryProtectionViolation v))
  | .ok v => writeAndGo s rd (extend v) (s.pc + 4)

/-- A store (R245). -/
def store (n : AccessSize) (rs2 rs1 : RegIdx) (imm : BitVec 12) (s : State) : StepResult :=
  match s.memWrite (s.ea rs1 imm) n (s.x rs2) with
  | .error v => .next (s.raise (.memoryProtectionViolation v))
  | .ok s' => .next (s'.commitPc (s.pc + 4))

/-- A conditional branch (R260). -/
def branch (c : BranchCond) (rs1 rs2 : RegIdx) (disp : BitVec 13) (s : State) : StepResult :=
  .next (s.commitPc (if condHolds c (s.x rs1) (s.x rs2) then s.pc + disp.signExtend 32 else s.pc + 4))

end Sys2Proof.Machine
end

