-- ==== Sys2Proof/Machine/Branches.lean ====
section
/-! DEFINITION. Conditional branches (`46_branches.md`). -/

namespace Sys2Proof.Machine

open Sys2Proof

/-- R261. -/
def execBeq (rs1 rs2 : RegIdx) (disp : BitVec 13) (s : State) : StepResult :=
  branch .eq rs1 rs2 disp s

/-- R262. -/
def execBne (rs1 rs2 : RegIdx) (disp : BitVec 13) (s : State) : StepResult :=
  branch .ne rs1 rs2 disp s

/-- R263. -/
def execBlt (rs1 rs2 : RegIdx) (disp : BitVec 13) (s : State) : StepResult :=
  branch .lt rs1 rs2 disp s

/-- R264. -/
def execBge (rs1 rs2 : RegIdx) (disp : BitVec 13) (s : State) : StepResult :=
  branch .ge rs1 rs2 disp s

/-- R265. -/
def execBltu (rs1 rs2 : RegIdx) (disp : BitVec 13) (s : State) : StepResult :=
  branch .ltu rs1 rs2 disp s

/-- R266. -/
def execBgeu (rs1 rs2 : RegIdx) (disp : BitVec 13) (s : State) : StepResult :=
  branch .geu rs1 rs2 disp s


end Sys2Proof.Machine
end

