-- ==== Sys2Proof/Machine/ITypeAlu.lean ====
section
/-! DEFINITION. Register-immediate integer instructions (`43_i_type_alu.md`). -/

namespace Sys2Proof.Machine

open Sys2Proof

/-- R211. -/
def execAddi (rd rs1 : RegIdx) (imm : BitVec 12) (s : State) : StepResult :=
  aluImm .add rd rs1 (sext12 imm) s

/-- R212. -/
def execSlti (rd rs1 : RegIdx) (imm : BitVec 12) (s : State) : StepResult :=
  aluImm .slt rd rs1 (sext12 imm) s

/-- R213. -/
def execSltiu (rd rs1 : RegIdx) (imm : BitVec 12) (s : State) : StepResult :=
  aluImm .sltu rd rs1 (sext12 imm) s

/-- R214. -/
def execXori (rd rs1 : RegIdx) (imm : BitVec 12) (s : State) : StepResult :=
  aluImm .xor rd rs1 (sext12 imm) s

/-- R215. -/
def execOri (rd rs1 : RegIdx) (imm : BitVec 12) (s : State) : StepResult :=
  aluImm .or rd rs1 (sext12 imm) s

/-- R216. -/
def execAndi (rd rs1 : RegIdx) (imm : BitVec 12) (s : State) : StepResult :=
  aluImm .and rd rs1 (sext12 imm) s

/-- R217: the amount is the 5-bit field. -/
def execSlli (rd rs1 : RegIdx) (shamt : BitVec 5) (s : State) : StepResult :=
  aluImm .sll rd rs1 (shamt.setWidth 32) s

/-- R218: the amount is the 5-bit field. -/
def execSrli (rd rs1 : RegIdx) (shamt : BitVec 5) (s : State) : StepResult :=
  aluImm .srl rd rs1 (shamt.setWidth 32) s

/-- R219: the amount is the 5-bit field. -/
def execSrai (rd rs1 : RegIdx) (shamt : BitVec 5) (s : State) : StepResult :=
  aluImm .sra rd rs1 (shamt.setWidth 32) s


end Sys2Proof.Machine
end

