-- ==== Sys2Proof/Machine/Loads.lean ====
section
/-! DEFINITION. Loads (`44_loads.md`). -/

namespace Sys2Proof.Machine

open Sys2Proof

/-- R231. -/
def execLb (rd rs1 : RegIdx) (imm : BitVec 12) (s : State) : StepResult :=
  load .byte sext8 rd rs1 imm s

/-- R232. -/
def execLh (rd rs1 : RegIdx) (imm : BitVec 12) (s : State) : StepResult :=
  load .half sext16 rd rs1 imm s

/-- R233. -/
def execLw (rd rs1 : RegIdx) (imm : BitVec 12) (s : State) : StepResult :=
  load .word id rd rs1 imm s

/-- R234. -/
def execLbu (rd rs1 : RegIdx) (imm : BitVec 12) (s : State) : StepResult :=
  load .byte zext8 rd rs1 imm s

/-- R235. -/
def execLhu (rd rs1 : RegIdx) (imm : BitVec 12) (s : State) : StepResult :=
  load .half zext16 rd rs1 imm s


end Sys2Proof.Machine
end

