-- ==== Sys2Proof/Machine/MulDiv.lean ====
section
/-! DEFINITION. Multiply and divide instructions (`42_r_type_muldiv.md`). -/

namespace Sys2Proof.Machine

open Sys2Proof

/-- R191. -/
def execMul (rd rs1 rs2 : RegIdx) (s : State) : StepResult := aluReg .mul rd rs1 rs2 s

/-- R192. -/
def execMulh (rd rs1 rs2 : RegIdx) (s : State) : StepResult := aluReg .mulh rd rs1 rs2 s

/-- R193. -/
def execMulhsu (rd rs1 rs2 : RegIdx) (s : State) : StepResult := aluReg .mulhsu rd rs1 rs2 s

/-- R194. -/
def execMulhu (rd rs1 rs2 : RegIdx) (s : State) : StepResult := aluReg .mulhu rd rs1 rs2 s

/-- R195. -/
def execDiv (rd rs1 rs2 : RegIdx) (s : State) : StepResult := aluReg .div rd rs1 rs2 s

/-- R196. -/
def execDivu (rd rs1 rs2 : RegIdx) (s : State) : StepResult := aluReg .divu rd rs1 rs2 s

/-- R197. -/
def execRem (rd rs1 rs2 : RegIdx) (s : State) : StepResult := aluReg .rem rd rs1 rs2 s

/-- R198. -/
def execRemu (rd rs1 rs2 : RegIdx) (s : State) : StepResult := aluReg .remu rd rs1 rs2 s


end Sys2Proof.Machine
end

