-- ==== Sys2Proof/Machine/RType.lean ====
section
/-! DEFINITION. Register-register integer instructions (`41_r_type_integer.md`). -/

namespace Sys2Proof.Machine

open Sys2Proof

/-- R171. -/
def execAdd (rd rs1 rs2 : RegIdx) (s : State) : StepResult := aluReg .add rd rs1 rs2 s

/-- R172. -/
def execSub (rd rs1 rs2 : RegIdx) (s : State) : StepResult := aluReg .sub rd rs1 rs2 s

/-- R173. -/
def execSll (rd rs1 rs2 : RegIdx) (s : State) : StepResult := aluReg .sll rd rs1 rs2 s

/-- R174. -/
def execSlt (rd rs1 rs2 : RegIdx) (s : State) : StepResult := aluReg .slt rd rs1 rs2 s

/-- R175. -/
def execSltu (rd rs1 rs2 : RegIdx) (s : State) : StepResult := aluReg .sltu rd rs1 rs2 s

/-- R176. -/
def execXor (rd rs1 rs2 : RegIdx) (s : State) : StepResult := aluReg .xor rd rs1 rs2 s

/-- R177. -/
def execSrl (rd rs1 rs2 : RegIdx) (s : State) : StepResult := aluReg .srl rd rs1 rs2 s

/-- R178. -/
def execSra (rd rs1 rs2 : RegIdx) (s : State) : StepResult := aluReg .sra rd rs1 rs2 s

/-- R179. -/
def execOr (rd rs1 rs2 : RegIdx) (s : State) : StepResult := aluReg .or rd rs1 rs2 s

/-- R180. -/
def execAnd (rd rs1 rs2 : RegIdx) (s : State) : StepResult := aluReg .and rd rs1 rs2 s


end Sys2Proof.Machine
end

