-- ==== Sys2Proof/Machine/Stores.lean ====
section
/-! DEFINITION. Stores (`45_stores.md`). -/

namespace Sys2Proof.Machine

open Sys2Proof

/-- R246: the low byte of `x[rs2]`. -/
def execSb (rs2 rs1 : RegIdx) (imm : BitVec 12) (s : State) : StepResult :=
  store .byte rs2 rs1 imm s

/-- R247: the low two bytes of `x[rs2]`. -/
def execSh (rs2 rs1 : RegIdx) (imm : BitVec 12) (s : State) : StepResult :=
  store .half rs2 rs1 imm s

/-- R248: the low four bytes of `x[rs2]`. -/
def execSw (rs2 rs1 : RegIdx) (imm : BitVec 12) (s : State) : StepResult :=
  store .word rs2 rs1 imm s


end Sys2Proof.Machine
end

