-- ==== Sys2Proof/Machine/System.lean ====
section
/-! DEFINITION. `ecall` and the halt word (`48_system.md`). -/

namespace Sys2Proof.Machine

open Sys2Proof

/-- R291: the synchronous call of the external handler. -/
def execEcall (s : State) : StepResult := .next (s.countTrap.takeTrap s.handlerReply)

/-- R292, R143: the halt word; nothing but the status changes. -/
def execInvalid (s : State) : StepResult := .next (s.setStatus .halted)


end Sys2Proof.Machine
end

