-- ==== Sys2Proof/Machine/UpperJumps.lean ====
section
/-! DEFINITION. Upper-immediate instructions and jumps (`47_upper_imm_and_jumps.md`). -/

namespace Sys2Proof.Machine

open Sys2Proof

/-- R276. -/
def execLui (rd : RegIdx) (imm20 : BitVec 20) (s : State) : StepResult :=
  writeAndGo s rd (upperImm imm20) (s.pc + 4)

/-- R277. -/
def execAuipc (rd : RegIdx) (imm20 : BitVec 20) (s : State) : StepResult :=
  writeAndGo s rd (s.pc + upperImm imm20) (s.pc + 4)

/-- R278. -/
def execJal (rd : RegIdx) (disp : BitVec 21) (s : State) : StepResult :=
  writeAndGo s rd (s.pc + 4) (s.pc + disp.signExtend 32)

/-- R279: the target is computed from the old `x[rs1]`; bit 0 of the sum is cleared. -/
def execJalr (rd rs1 : RegIdx) (imm : BitVec 12) (s : State) : StepResult :=
  writeAndGo s rd (s.pc + 4) ((s.x rs1 + sext12 imm) &&& 0xFFFFFFFE)


end Sys2Proof.Machine
end

