-- ==== Sys2Proof/Machine/Engine.lean ====
section
/-! DEFINITION. The engine (`40_engine_step.md`): one step, a run, and the placing of a fetch word. -/

namespace Sys2Proof.Machine

open Sys2Proof

/-- Events (b) to (h) of R141, after `icount` has been incremented: fetch, halt check and decode,
execute. A refused fetch and an illegal word are faults of the run. -/
def fetchAndExecute (s : State) : StepResult :=
  match s.memFetch s.pc with
  | .error v => .next (s.raise (.memoryProtectionViolation v))
  | .ok w =>
    match decodeWord w with
    | .error _ => .next (s.raise (.illegalInstruction w))
    | .ok i => exec i s

/-- One step (R141): allowed only while `Running`; the watchdog is tested first (R148). -/
def engineStep (s : State) : StepResult :=
  if s.status ≠ .running then .fault .runEnded
  else if s.cfg.watchdogBudget ≤ s.icount then .next (s.setStatus .watchdogExpired)
  else fetchAndExecute s.tick

/-- `Run()` (R140): at most `fuel` steps, stopping when the status is not `Running`. -/
def runFor : Nat → State → State
  | 0, s => s
  | fuel + 1, s =>
    match engineStep s with
    | .next s' => runFor fuel s'
    | .fault _ => s
    | .refused _ => s

/-- `Run()` with all the steps a run can need: one for each instruction the budget still admits, and
the one that finds it used up. -/
def run (s : State) : State := runFor (s.cfg.watchdogBudget - s.icount + 1) s

/-- The region that covers an address given the Execute flag. -/
def makeExecutable (addr : Word) (rs : List Region) : List Region :=
  rs.map fun r =>
    if r.base.toNat ≤ addr.toNat ∧ addr.toNat < r.base.toNat + r.length then
      { r with mode := r.mode ||| modeExec }
    else r

/-- An address space in which the word at `addr` can be fetched: if no region covers `addr`, the pages
its four bytes lie in are allocated with Execute; otherwise the covering region gets the flag. -/
def mapForFetch (page : Nat) (m : Memory) (addr : Word) : Memory :=
  match m.lookup addr with
  | some _ => { m with regions := makeExecutable addr m.regions }
  | none =>
    (m.allocate page (BitVec.ofNat 32 (addr.toNat / page * page)) (addr.toNat % page + 4) modeExec).getD m

/-- A word stored where the next step fetches, with all that the fetch takes. A word that cannot be
placed there (the four bytes pass the end of the covering region or of the address space) changes
nothing. -/
def placeFetchWord (s : State) (w : Word) : State :=
  match (s.setMem (mapForFetch s.cfg.pageSize s.mem s.pc)).loaderWrite s.pc .word w with
  | .ok s' => s'
  | .error _ => s

end Sys2Proof.Machine
end

