-- ==== Sys2Proof/Machine/Step.lean ====
section
/-! DEFINITION. The step the host runs. -/

namespace Sys2Proof.Machine

open Sys2Proof

/-- `Step()` (R141, R156). -/
def step (s : State) : Host.Outcome State Fault Refusal := engineStep s

/-- The instruction whose bits are `w` placed where the next step fetches (log entry 5). -/
def State.withFetchWord (s : State) (nbits w : Nat) : State :=
  placeFetchWord s (leWord (tableBytes nbits w))

end Sys2Proof.Machine
end

