-- ==== Sys2Proof/Machine/Datapath.lean ====
section
/-! DEFINITION. The datapath skeleton (`40_engine_step.md` rules R150 to R155): the control values of
R155, the operand, write-back and next-pc multiplexers, and a step's events (e) to (h) computed through
them from the fetched word. "It adds no behaviour": the instruction rules govern. -/

namespace Sys2Proof.Machine

open Sys2Proof

/-- The first ALU operand (R152). -/
inductive AluA where
  | rs1 | pc | zero
deriving DecidableEq, Repr

/-- The second ALU operand (R152). -/
inductive AluB where
  | rs2 | immI | immS | immU | shamt
deriving DecidableEq, Repr

/-- What the memory stage does (R155). `read` names the extension of the loaded value. -/
inductive MemCtl where
  | idle
  | read (n : AccessSize) (signed : Bool)
  | write (n : AccessSize)
  | trapCall
deriving DecidableEq, Repr

/-- `wb_sel` (R153). -/
inductive WbSel where
  | aluResult | memResult | pc4 | noWrite
deriving DecidableEq, Repr

/-- `pc_sel` (R154); `br` takes the branch target when the comparator's condition holds. -/
inductive PcSel where
  | pc4 | br (c : BranchCond) | jal | jalr
deriving DecidableEq, Repr

/-- The select values decode produces (R155). -/
structure Control where
  aluA  : AluA
  aluB  : AluB
  aluOp : AluOp
  mem   : MemCtl
  wbSel : WbSel
  pcSel : PcSel
deriving DecidableEq, Repr

def ctlOp (op : AluOp) : Control := ⟨.rs1, .rs2, op, .idle, .aluResult, .pc4⟩
def ctlOpImm (op : AluOp) : Control := ⟨.rs1, .immI, op, .idle, .aluResult, .pc4⟩
def ctlShift (op : AluOp) : Control := ⟨.rs1, .shamt, op, .idle, .aluResult, .pc4⟩
def ctlLoad (n : AccessSize) (signed : Bool) : Control :=
  ⟨.rs1, .immI, .add, .read n signed, .memResult, .pc4⟩
def ctlStore (n : AccessSize) : Control := ⟨.rs1, .immS, .add, .write n, .noWrite, .pc4⟩
/-- The ALU is not used by branches, `jal`, `ecall`; its selects are then of no effect. -/
def ctlBranch (c : BranchCond) : Control := ⟨.zero, .immI, .add, .idle, .noWrite, .br c⟩

/-- R155, by row. The halt word never reaches the decode stage (R143). -/
def controlOf : Mnemonic → Control
  | .add => ctlOp .add
  | .sub => ctlOp .sub
  | .sll => ctlOp .sll
  | .slt => ctlOp .slt
  | .sltu => ctlOp .sltu
  | .xor => ctlOp .xor
  | .srl => ctlOp .srl
  | .sra => ctlOp .sra
  | .or => ctlOp .or
  | .and => ctlOp .and
  | .mul => ctlOp .mul
  | .mulh => ctlOp .mulh
  | .mulhsu => ctlOp .mulhsu
  | .mulhu => ctlOp .mulhu
  | .div => ctlOp .div
  | .divu => ctlOp .divu
  | .rem => ctlOp .rem
  | .remu => ctlOp .remu
  | .addi => ctlOpImm .add
  | .slti => ctlOpImm .slt
  | .sltiu => ctlOpImm .sltu
  | .xori => ctlOpImm .xor
  | .ori => ctlOpImm .or
  | .andi => ctlOpImm .and
  | .slli => ctlShift .sll
  | .srli => ctlShift .srl
  | .srai => ctlShift .sra
  | .lb => ctlLoad .byte true
  | .lh => ctlLoad .half true
  | .lw => ctlLoad .word true
  | .lbu => ctlLoad .byte false
  | .lhu => ctlLoad .half false
  | .sb => ctlStore .byte
  | .sh => ctlStore .half
  | .sw => ctlStore .word
  | .beq => ctlBranch .eq
  | .bne => ctlBranch .ne
  | .blt => ctlBranch .lt
  | .bge => ctlBranch .ge
  | .bltu => ctlBranch .ltu
  | .bgeu => ctlBranch .geu
  | .lui => ⟨.zero, .immU, .add, .idle, .aluResult, .pc4⟩
  | .auipc => ⟨.pc, .immU, .add, .idle, .aluResult, .pc4⟩
  | .jal => ⟨.zero, .immI, .add, .idle, .pc4, .jal⟩
  | .jalr => ⟨.rs1, .immI, .add, .idle, .pc4, .jalr⟩
  | .ecall => ⟨.zero, .immI, .add, .trapCall, .noWrite, .pc4⟩
  | .invalid => ⟨.zero, .immI, .add, .idle, .noWrite, .pc4⟩

/-- The operand multiplexers (R152). -/
def aluAVal (s : State) (w : Word) : AluA → Word
  | .rs1 => s.x (rs1Of w)
  | .pc => s.pc
  | .zero => 0

def aluBVal (s : State) (w : Word) : AluB → Word
  | .rs2 => s.x (rs2Of w)
  | .immI => immI w
  | .immS => immS w
  | .immU => immU w
  | .shamt => shamtOf w

/-- The extension in the load path (R153). -/
def extendLoaded : AccessSize → Bool → Word → Word
  | .byte, true, v => sext8 v
  | .byte, false, v => zext8 v
  | .half, true, v => sext16 v
  | .half, false, v => zext16 v
  | .word, _, v => v

/-- The memory stage: the value loaded, with the state after a store, or the refused access. -/
def memStage (c : MemCtl) (addr : Word) (value : Word) (s : State) : Except Violation (State × Word) :=
  match c with
  | .idle => .ok (s, 0)
  | .trapCall => .ok (s, 0)
  | .read n sg =>
    match s.memRead addr n with
    | .error v => .error v
    | .ok v => .ok (s, extendLoaded n sg v)
  | .write n =>
    match s.memWrite addr n value with
    | .error v => .error v
    | .ok s' => .ok (s', 0)

/-- The write-back stage's register write (R153). -/
def writeBack (sel : WbSel) (rd : RegIdx) (aluOut memOut pc4 : Word) (s : State) : State :=
  match sel with
  | .aluResult => s.setX rd aluOut
  | .memResult => s.setX rd memOut
  | .pc4 => s.setX rd pc4
  | .noWrite => s

/-- The next-pc multiplexer (R154), its inputs taken before anything is written (R145). -/
def nextPc (sel : PcSel) (s : State) (w : Word) (aluOut : Word) : Word :=
  match sel with
  | .pc4 => s.pc + 4
  | .br c => if condHolds c (s.x (rs1Of w)) (s.x (rs2Of w)) then s.pc + immB w else s.pc + 4
  | .jal => s.pc + immJ w
  | .jalr => aluOut &&& 0xFFFFFFFE

/-- Stages D to W for a word of row `m` (R150): the trap call stands in the memory stage, and its
outcome decides whether `pc` is committed. -/
def datapath (m : Mnemonic) (w : Word) (s : State) : State :=
  let c := controlOf m
  let aluOut := alu c.aluOp (aluAVal s w c.aluA) (aluBVal s w c.aluB)
  let npc := nextPc c.pcSel s w aluOut
  if c.mem = .trapCall then s.countTrap.takeTrap s.handlerReply
  else
    match memStage c.mem aluOut (s.x (rs2Of w)) s with
    | .error v => s.raise (.memoryProtectionViolation v)
    | .ok (s', memOut) => (writeBack c.wbSel (rdOf w) aluOut memOut (s.pc + 4) s').commitPc npc

end Sys2Proof.Machine
end

