-- ==== Sys2Proof/Machine/HostOps.lean ====
section
/-! DEFINITION. What the host does to the machine between steps: allocation (`20_memory.md` rules R54,
R55), the loader port (R69), launch and the observers (`40_engine_step.md` rule R156, R380). A refused
operation changes nothing. -/

namespace Sys2Proof.Machine

open Sys2Proof

/-- One operation after another; a refusal refuses the whole. -/
def andThen (r : StepResult) (f : State → StepResult) : StepResult :=
  match r with
  | .next s => f s
  | .fault e => .fault e
  | .refused e => .refused e

/-- `Allocate(base, length, mode)` (R54); the base returned is the one asked for. -/
def hostAllocate (base : Word) (length : Nat) (mode : AccessMode) (s : State) : StepResult :=
  match s.mem.allocate s.cfg.pageSize base length mode with
  | none => .refused .allocationRejected
  | some m => .next (s.setMem m)

/-- `AllocateAnywhere(length, mode)` (R55). -/
def hostAllocateAnywhere (length : Nat) (mode : AccessMode) (s : State) : StepResult :=
  match s.mem.allocateAnywhere s.cfg.pageSize length mode with
  | none => .refused .allocationRejected
  | some (_, m) => .next (s.setMem m)

/-- The base `AllocateAnywhere` returns when it is not rejected (R55). -/
def allocatedAnywhereAt (length : Nat) (mode : AccessMode) (s : State) : Option Word :=
  (s.mem.allocateAnywhere s.cfg.pageSize length mode).map Prod.fst

/-- `LoaderWrite` by a host loader (R69, R383 item 2, R386). -/
def hostLoaderWrite (addr : Word) (n : AccessSize) (v : Word) (s : State) : StepResult :=
  match s.loaderWrite addr n v with
  | .error e => .refused (.loaderAccess e)
  | .ok s' => .next s'

/-- `Launch(entry, initRegs)` (R156, R380): the registers, `pc`, `icount` and `status` of a new run;
the address space, the session and the parameters stay. DESIGN CHOICE: it has no guard (log entry 21),
and `initRegs` is the whole of `INIT_REGS`, so a `hostWriteReg` made before it is overwritten unless its
value stands in `initRegs` (log entry 23). -/
def launch (entry : Word) (initRegs : Vector Word 32) (s : State) : State :=
  { s with regs := initRegs.set 0 0#32, pc := entry, icount := 0, status := .running }

/-- `WriteReg(i, v)` by the host (R156, R380). DESIGN CHOICE (log entry 21): it acts in every state,
where R156 gives it to the host before the run only and U13 asks a claim about a run to assume that the
host changes nothing between its steps. A later `launch` overwrites it (log entry 23). -/
def hostWriteReg (i : RegIdx) (v : Word) (s : State) : State := s.setX i v

/-- The observers of R156. -/
def readReg (i : RegIdx) (s : State) : Word := s.x i
def readPc (s : State) : Word := s.pc
def readStatus (s : State) : RunStatus := s.status

/-- A new assembly session (R382): `cursor = CURSOR_INIT`, empty tables. -/
def newSession (cursorInit : Word) (s : State) : State :=
  { s with cursor := cursorInit, symbols := [], relocs := [], autoCount := 0, diagnostics := [],
           linked := false }

end Sys2Proof.Machine
end

