-- ==== Sys2Proof/Machine/Encoder.lean ====
section
/-! DEFINITION. The encoder's operations (`30_encoding.md` rules R107 to R111) and the symbol and
relocation recorder it feeds (`49_relocation.md` rules R305 to R313). -/

namespace Sys2Proof.Machine

open Sys2Proof

/-! ## Session state -/

def State.setCursor (s : State) (c : Word) : State := { s with cursor := c }

def State.diagnose (s : State) (d : Diagnostic) : State :=
  { s with diagnostics := s.diagnostics ++ [d] }

/-- A symbol's address. -/
def lookupSymbol : List (SymName × Word) → SymName → Option Word
  | [], _ => none
  | (n, a) :: rest, name => if n = name then some a else lookupSymbol rest name

/-- `AddSymbol` (R307): the first binding is kept, a duplicate is reported. -/
def State.addSymbol (s : State) (name : SymName) (addr : Word) : State :=
  match lookupSymbol s.symbols name with
  | some _ => s.diagnose (.duplicateSymbol name)
  | none => { s with symbols := s.symbols ++ [(name, addr)] }

/-- What `AddSymbol` returns (R307). -/
def State.addSymbolOk (s : State) (name : SymName) : Bool := (lookupSymbol s.symbols name).isNone

/-- `label(name)` (R306). -/
def label (name : String) (s : State) : State := s.addSymbol (.user name) s.cursor

/-- `record(kind, name)` (R310): a pure append at the current cursor. -/
def State.record (s : State) (kind : RelocKind) (name : SymName) : State :=
  { s with relocs := s.relocs ++ [⟨s.cursor, kind, name⟩] }

/-! ## Emission -/

/-- `emit_word(v)` (R108), and the write every `emit_m` makes (R107): the word at the cursor through
the loader port, the cursor advanced by 4. -/
def emitWord (v : Word) (s : State) : StepResult :=
  match s.loaderWrite s.cursor .word v with
  | .error e => .refused (.loaderAccess e)
  | .ok s' => .next (s'.setCursor (s.cursor + 4))

/-- `emit_m(operands)` for the mnemonic `m` with numeric operands, each masked to its field (R107). -/
def emit (m : Mnemonic) (rd rs1 rs2 imm : Word) (s : State) : StepResult :=
  emitWord (encWord m rd rs1 rs2 imm) s

/-- The emission of an instruction. -/
def emitInstr (i : Instr) (s : State) : StepResult := emitWord (encode i) s

/-- `emit_invalid()` (R109). -/
def emitInvalid (s : State) : StepResult := emitWord 0 s

/-- The bytes of `emit_bytes`, written one by one from an address up. -/
def writeBytesAt : Word → List Byte → State → StepResult
  | _, [], s => .next s
  | a, b :: bs, s =>
    match s.loaderWrite a .byte (b.setWidth 32) with
    | .error e => .refused (.loaderAccess e)
    | .ok s' => writeBytesAt (a + 1) bs s'

/-- `emit_bytes(b...)` (R108): the cursor advances by the byte length written. -/
def emitBytes (bs : List Byte) (s : State) : StepResult :=
  andThen (writeBytesAt s.cursor bs s) fun s' =>
    .next (s'.setCursor (s.cursor + BitVec.ofNat 32 bs.length))

/-- `emit_addr(symbol)` (R108). DESIGN CHOICE (log entry 22): after `Relocate()` too, as `emitJalTo`. -/
def emitAddr (symbol : SymName) (s : State) : StepResult :=
  emitWord 0 (s.record .absoluteWord32 symbol)

/-! ## Symbolic operands (R110, R311): a relocation, and the instruction with the field zero -/

/-- `jal rd, label`. DESIGN CHOICE (log entry 22), here and in the other symbolic emissions: after
`Relocate()` they emit and record as before it, as R386's table says; U7 lists that under `refuse`. -/
def emitJalTo (rd : Word) (name : SymName) (s : State) : StepResult :=
  emit .jal rd 0 0 0 (s.record .jumpPcRel name)

/-- `beq rs1, rs2, label` and the other five branches; after `Relocate()`, log entry 22. -/
def emitBranchTo (m : Mnemonic) (rs1 rs2 : Word) (name : SymName) (s : State) : StepResult :=
  if (row m).format = .B then emit m 0 rs1 rs2 0 (s.record .branchPcRel name)
  else .refused .operandRefused

/-- `auipc rd, %pcrel_hi(symbol)` (R312); after `Relocate()`, log entry 22. -/
def emitAuipcHi (rd : Word) (symbol : SymName) (s : State) : StepResult :=
  emit .auipc rd 0 0 0 (s.record .hiPcRel20 symbol)

/-- `pcrel_lo(byteOffsetToHi)` (R313): an auto symbol at the hi instruction's address, and the
Lo-relocation that names it. -/
def State.pcrelLo (s : State) (byteOffsetToHi : Word) : State :=
  State.record
    (State.addSymbol { s with autoCount := s.autoCount + 1 } (.auto s.autoCount)
      (s.cursor + byteOffsetToHi))
    .loPcRel12 (.auto s.autoCount)

/-- A format-I instruction with `imm = %pcrel_lo(offset)` (R311); on any other, a store among them, the
operand is refused and nothing is recorded (R327). After `Relocate()`: log entry 22. -/
def emitWithLo (m : Mnemonic) (rd rs1 : Word) (byteOffsetToHi : Word) (s : State) : StepResult :=
  if (row m).format = .I then emit m rd rs1 0 0 (s.pcrelLo byteOffsetToHi)
  else .refused .operandRefused

end Sys2Proof.Machine
end

