-- ==== Sys2Proof/Machine/Linker.lean ====
section
/-! DEFINITION. The linker (`49_relocation.md` rules R320 to R330). -/

namespace Sys2Proof.Machine

open Sys2Proof

/-- Bits `[31:12]` of a displacement after the `+0x800` bias (R324). -/
def hi20 (d : Word) : Word := extractU (d + 0x800) fImmU

/-- Bits `[11:0]` of a displacement (R325). -/
def fLo12 : Field where
  pos := 0
  width := 12
def lo12 (d : Word) : Word := extractU d fLo12

/-- The Hi-relocation recorded at an address: the linker's side index (R320). No two share a site
(D29). -/
def hiIndex : List Reloc → Word → Option Reloc
  | [], _ => none
  | r :: rs, a => if r.kind = .hiPcRel20 ∧ r.siteOffset = a then some r else hiIndex rs a

/-- The word at a site read, changed and written back through the loader port. -/
def patchWord (site : Word) (f : Word → Word) (s : State) : StepResult :=
  match s.loaderRead site .word with
  | .error e => .refused (.loaderAccess e)
  | .ok w => hostLoaderWrite site .word (f w) s

/-- `AbsoluteWord32` overwrites; the old word is not read (R323). -/
def patchAbsolute (site addr : Word) (s : State) : StepResult := hostLoaderWrite site .word addr s

/-- A relocation's target address, or the diagnostic of R322 with the word left alone. -/
def withTarget (name : SymName) (site : Word) (s : State) (f : Word → StepResult) : StepResult :=
  match lookupSymbol s.symbols name with
  | none => .next (s.diagnose (.unknownSymbol name site))
  | some a => f a

/-- `patch(r)` (R321 to R325). -/
def patch (r : Reloc) (s : State) : StepResult :=
  withTarget r.targetSymbolName r.siteOffset s fun a =>
    match r.kind with
    | .jumpPcRel => patchWord r.siteOffset (fun w => w ||| encJ 0 0 (a - r.siteOffset)) s
    | .branchPcRel => patchWord r.siteOffset (fun w => w ||| encB 0 0 0 0 (a - r.siteOffset)) s
    | .absoluteWord32 => patchAbsolute r.siteOffset a s
    | .hiPcRel20 => patchWord r.siteOffset (fun w => w ||| (hi20 (a - r.siteOffset) <<< 12)) s
    | .loPcRel12 =>
      match hiIndex s.relocs a with
      | none => .next (s.diagnose (.missingHiPair r.siteOffset a))
      | some h =>
        withTarget h.targetSymbolName r.siteOffset s fun t =>
          patchWord r.siteOffset (fun w => w ||| (lo12 (t - h.siteOffset) <<< 20)) s

/-- The patches in recorded order. -/
def patchAll : List Reloc → State → StepResult
  | [], s => .next s
  | r :: rs, s => andThen (patch r s) (patchAll rs)

/-- `Relocate()` (R320): once per session. -/
def relocate (s : State) : StepResult :=
  if s.linked then .refused .alreadyLinked
  else andThen (patchAll s.relocs s) fun s' => .next { s' with linked := true }

end Sys2Proof.Machine
end

