-- ==== Sys2Proof/Safety.lean ====
section
/-! DEFINITION. The words the claims are stated in: the invariant, what one byte holds, when an access
is admitted, the six formats as fields side by side, and what a step may change. -/

namespace Sys2Proof.Machine

open Sys2Proof

/-! ## The invariant -/

/-- An auto-generated name is one of the first `n` (R309). -/
def autoBelow (n : Nat) : SymName → Bool
  | .user _ => true
  | .auto k => decide (k < n)

/-- What holds in every state the machine and its host operations reach: register 0 holds zero (R22);
the parameters are within their limits (R8); the address space is in its one form (R50, R51); the
instruction count has not passed the budget (R148); a symbol name is bound once and an auto name is
not used ahead of its turn (R32, R309). -/
abbrev State.Inv (s : State) : Prop :=
  s.regs.get 0 = 0#32 ∧ s.cfg.wf = true ∧ s.mem.wf s.cfg.pageSize s.cfg.regionFill = true ∧
    s.icount ≤ s.cfg.watchdogBudget ∧ (s.symbols.map Prod.fst).Nodup ∧
    (s.symbols.all fun p => autoBelow s.autoCount p.1) = true

/-- The address space is in its one form. -/
abbrev State.MemWf (s : State) : Prop := s.mem.wf s.cfg.pageSize s.cfg.regionFill = true

/-! ## Bytes and accesses -/

/-- The byte at an address, as the address space holds it. -/
def State.byteAt (s : State) (a : Nat) : Byte := cellGet s.cfg.regionFill s.mem.cells a

/-- One byte read with a request mode, through the gate (R58). -/
def State.readByte (s : State) (a : Word) (req : AccessMode) : Except Violation Byte :=
  s.mem.readByte s.cfg.regionFill a req

/-- Whether one region holds all `n` bytes at an address and has every flag asked for (R57). -/
def State.Admits (s : State) (a : Word) (n : Nat) (req : AccessMode) : Prop :=
  ∃ r ∈ s.mem.regions, r.base.toNat ≤ a.toNat ∧ a.toNat + n ≤ r.base.toNat + r.length ∧
    req &&& ~~~r.mode &&& 7 = 0

/-- The 2 or 4 bytes at an address, the byte at the lowest address the least significant (R62). -/
def State.halfAt (s : State) (a : Nat) : BitVec 16 := s.byteAt (a + 1) ++ s.byteAt a
def State.wordAt (s : State) (a : Nat) : Word :=
  s.byteAt (a + 3) ++ s.byteAt (a + 2) ++ s.byteAt (a + 1) ++ s.byteAt a

/-- An address outside the `n` bytes at `a`. -/
def Outside (a : Word) (n : Nat) (b : Word) : Prop := b.toNat < a.toNat ∨ a.toNat + n ≤ b.toNat

/-! ## The formats (R97 to R103), a word as its fields side by side, bit 31 first -/

def wordR (f7 : BitVec 7) (rs2 rs1 : RegIdx) (f3 : BitVec 3) (rd : RegIdx) (op : BitVec 7) : Word :=
  f7 ++ rs2 ++ rs1 ++ f3 ++ rd ++ op

def wordI (imm : BitVec 12) (rs1 : RegIdx) (f3 : BitVec 3) (rd : RegIdx) (op : BitVec 7) : Word :=
  imm ++ rs1 ++ f3 ++ rd ++ op

def wordS (imm : BitVec 12) (rs2 rs1 : RegIdx) (f3 : BitVec 3) (op : BitVec 7) : Word :=
  imm.extractLsb' 5 7 ++ rs2 ++ rs1 ++ f3 ++ imm.extractLsb' 0 5 ++ op

def wordB (d : BitVec 13) (rs2 rs1 : RegIdx) (f3 : BitVec 3) (op : BitVec 7) : Word :=
  d.extractLsb' 12 1 ++ d.extractLsb' 5 6 ++ rs2 ++ rs1 ++ f3 ++ d.extractLsb' 1 4 ++
    d.extractLsb' 11 1 ++ op

def wordU (imm20 : BitVec 20) (rd : RegIdx) (op : BitVec 7) : Word := imm20 ++ rd ++ op

def wordJ (d : BitVec 21) (rd : RegIdx) (op : BitVec 7) : Word :=
  d.extractLsb' 20 1 ++ d.extractLsb' 1 10 ++ d.extractLsb' 11 1 ++ d.extractLsb' 12 8 ++ rd ++ op

/-- The words R114 lists as illegal, by opcode, `funct3` and `funct7`; the last line is its "every
other opcode", which takes in the low bits other than `11`. -/
def IllegalShape (w : Word) : Prop :=
  let op := w.extractLsb' 0 7
  let f3 := w.extractLsb' 12 3
  let f7 := w.extractLsb' 25 7
  (op = 0b0110011#7 ∧ f7 ≠ 0b0000000#7 ∧ f7 ≠ 0b0000001#7 ∧
    ¬ (f7 = 0b0100000#7 ∧ (f3 = 0b000#3 ∨ f3 = 0b101#3))) ∨
  (op = 0b0010011#7 ∧ f3 = 0b001#3 ∧ f7 ≠ 0b0000000#7) ∨
  (op = 0b0010011#7 ∧ f3 = 0b101#3 ∧ f7 ≠ 0b0000000#7 ∧ f7 ≠ 0b0100000#7) ∨
  (op = 0b0000011#7 ∧ (f3 = 0b011#3 ∨ f3 = 0b110#3 ∨ f3 = 0b111#3)) ∨
  (op = 0b0100011#7 ∧ f3 ≠ 0b000#3 ∧ f3 ≠ 0b001#3 ∧ f3 ≠ 0b010#3) ∨
  (op = 0b1100011#7 ∧ (f3 = 0b010#3 ∨ f3 = 0b011#3)) ∨
  (op = 0b1100111#7 ∧ f3 ≠ 0b000#3) ∨
  (op = 0b1110011#7 ∧ w ≠ 0x00000073#32) ∨
  (w ≠ 0#32 ∧ op ∉ ([0b0110011#7, 0b0010011#7, 0b0000011#7, 0b0100011#7, 0b1100011#7, 0b1100111#7,
    0b1110011#7, 0b0110111#7, 0b0010111#7, 0b1101111#7] : List (BitVec 7)))

/-! ## What a step changes -/

/-- Only registers and `pc` differ: `rd` holds `v`, or nothing if it is register 0, which the helper has
forced to zero (R22), and every other register reads as before. -/
def RegStep (s t : State) (rd : RegIdx) (v npc : Word) : Prop :=
  t = { s with regs := t.regs, pc := npc } ∧ t.regs.get 0 = 0#32 ∧ (rd ≠ 0#5 → t.x rd = v) ∧
    ∀ j, j ≠ rd → t.x j = s.x j

/-- The instruction completes with `v` for `rd` and `npc` as the next pc, and no other effect. -/
def ResultIs (i : Instr) (s : State) (rd : RegIdx) (v npc : Word) : Prop :=
  ∃ t, exec i s = .next t ∧ RegStep s t rd v npc

/-- Only memory bytes and `pc` differ: the `n` bytes at `a` hold the low bytes of `v`, least significant
first, and every byte outside them reads as before in every request mode. -/
def StoreStep (s t : State) (a : Word) (n : Nat) (v : Word) : Prop :=
  t = { s with mem := t.mem, pc := s.pc + 4#32 } ∧ t.mem.regions = s.mem.regions ∧
    (∀ k < n, t.byteAt (a.toNat + k) = v.extractLsb' (8 * k) 8) ∧
    ∀ b req, Outside a n b → t.readByte b req = s.readByte b req

/-- The store completes, with that effect and no other. -/
def StoreIs (i : Instr) (s : State) (a : Word) (n : Nat) (v : Word) : Prop :=
  ∃ t, exec i s = .next t ∧ StoreStep s t a n v

/-- The step ended the run with a fault and no other effect (R341). -/
def faultedState (s : State) (k : FaultKind) : State := { s with status := .faulted k s.pc }

/-- The reason a refused access records (R57, R342), by the state alone and in the order of R347: no
region at the first address; then a flag its region lacks; then the end of that region passed. -/
def RefusalReason (s : State) (a : Word) (req : AccessMode) (why : ViolationReason) : Prop :=
  (¬ s.Admits a 1 modeLoader → why = .unmapped) ∧
    (s.Admits a 1 modeLoader → ¬ s.Admits a 1 req → why = .modeMissing) ∧
    (s.Admits a 1 req → why = .unmapped)

/-- The instruction's memory access is refused: the fault names the reason, the first address and the
request mode, and nothing else changes (R341, R342). -/
def AccessFaults (i : Instr) (s : State) (a : Word) (req : AccessMode) : Prop :=
  ∃ why, RefusalReason s a req why ∧
    exec i s = .next (faultedState s (.memoryProtectionViolation ⟨why, a, req⟩))

/-- Only one register is written, through the helper (R22): `i` holds `v`, or nothing if it is register
0, and every other register reads as before. -/
def RegWritten (s t : State) (i : RegIdx) (v : Word) : Prop :=
  t = { s with regs := t.regs } ∧ t.regs.get 0 = 0#32 ∧ (i ≠ 0#5 → t.x i = v) ∧
    ∀ j, j ≠ i → t.x j = s.x j

/-- Only memory bytes differ: the `n` bytes at `a` hold the low bytes of `v`, least significant first,
and every byte outside them reads as before in every request mode. -/
def BytesWritten (s t : State) (a : Word) (n : Nat) (v : Word) : Prop :=
  t = { s with mem := t.mem } ∧ t.mem.regions = s.mem.regions ∧
    (∀ k < n, t.byteAt (a.toNat + k) = v.extractLsb' (8 * k) 8) ∧
    ∀ b req, Outside a n b → t.readByte b req = s.readByte b req

/-- One word was emitted (R107): it stands at the old cursor, the cursor is 4 further, the relocations
are `rs`, and nothing else differs. -/
def EmitStep (s t : State) (w : Word) (rs : List Reloc) : Prop :=
  t = { s with mem := t.mem, cursor := s.cursor + 4#32, relocs := rs } ∧
    t.mem.regions = s.mem.regions ∧ t.wordAt s.cursor.toNat = w ∧
    ∀ b req, Outside s.cursor 4 b → t.readByte b req = s.readByte b req

/-- What a step never touches: the regions, the encoder's and linker's session, the parameters. -/
def SessionKept (s t : State) : Prop :=
  t.mem.regions = s.mem.regions ∧ t.cursor = s.cursor ∧ t.symbols = s.symbols ∧
    t.relocs = s.relocs ∧ t.autoCount = s.autoCount ∧ t.diagnostics = s.diagnostics ∧
    t.linked = s.linked ∧ t.cfg = s.cfg

/-- The engine's state, which no host operation of the encoder or the linker touches. -/
def EngineKept (s t : State) : Prop :=
  t.regs = s.regs ∧ t.pc = s.pc ∧ t.icount = s.icount ∧ t.status = s.status ∧
    t.mem.regions = s.mem.regions ∧ t.trapCount = s.trapCount ∧ t.cfg = s.cfg

/-- What an instruction can read: all of the state but the count and the assembly session. -/
def SameEngine (s t : State) : Prop :=
  t.regs = s.regs ∧ t.pc = s.pc ∧ t.status = s.status ∧ t.mem = s.mem ∧
    t.trapCount = s.trapCount ∧ t.cfg = s.cfg

/-- The instructions that may set a next pc other than `pc + 4` (R25). -/
def transfers (i : Instr) : Bool :=
  match (row i.mnemonic).format with
  | .B => true
  | .J => true
  | .I => decide (i.mnemonic = .jalr)
  | .R => false
  | .shift => false
  | .S => false
  | .U => false
  | .system => false
  | .zeroWord => false

end Sys2Proof.Machine
end

