-- ==== Sys2Proof/Certificates/Slice0/Obligations.lean ====
section
/-! DEFINITION. The statements for the provers. Each docstring names the rules it formalises; the words
they are stated in are those of `Sys2Proof/Safety.lean`. -/

open Sys2Proof Sys2Proof.Machine

/-! ## Encoding -/

/-- Decoding an encoded well-formed instruction gives it back, as a word and as bytes with anything
behind them. -/
def Obligations.DecodeOfEncode : Prop :=
  ∀ i : Instr, i.WellFormed →
    decodeWord (encode i) = .ok i ∧
      ∀ rest : List Byte, decodeBytes (encodeBytes i ++ rest) = .ok (i, rest)

/-- Every word the decoder accepts is the one encoding of the instruction it is read as (R113). -/
def Obligations.EncodeOfDecode : Prop :=
  ∀ (w : Word) (i : Instr), decodeWord w = .ok i → i.WellFormed ∧ encode i = w

/-- R113, R115: the zero word first; then the one row that matches, with the operands of R105; a word
that matches none is illegal. No word matches two rows. That every fixed bit of a row counts is the
spec's own decision (D3). -/
def Obligations.DecodingFollowsTheRows : Prop :=
  ∀ w : Word,
    (w = 0#32 → decodeWord w = .ok .invalid) ∧
    (∀ m : Mnemonic, m ≠ .invalid → w &&& (row m).mask = (row m).pattern →
      decodeWord w = .ok (build w m) ∧
        ∀ n : Mnemonic, n ≠ .invalid → w &&& (row n).mask = (row n).pattern → n = m) ∧
    (w ≠ 0#32 → (∀ m : Mnemonic, m ≠ .invalid → w &&& (row m).mask ≠ (row m).pattern) →
      ∃ r, decodeWord w = .error r)

/-- R105: each operand as the bits of the word, and the range of each immediate. -/
def Obligations.OperandsOfAWord : Prop :=
  ∀ w : Word,
    rdOf w = w.extractLsb' 7 5 ∧ rs1Of w = w.extractLsb' 15 5 ∧ rs2Of w = w.extractLsb' 20 5 ∧
    opcodeOf w = (w.extractLsb' 0 7).setWidth 32 ∧ funct3Of w = (w.extractLsb' 12 3).setWidth 32 ∧
    funct7Of w = (w.extractLsb' 25 7).setWidth 32 ∧ shamtOf w = (w.extractLsb' 20 5).setWidth 32 ∧
    immI w = (w.extractLsb' 20 12).signExtend 32 ∧
    immS w = (w.extractLsb' 25 7 ++ w.extractLsb' 7 5).signExtend 32 ∧
    immB w = (w.extractLsb' 31 1 ++ w.extractLsb' 7 1 ++ w.extractLsb' 25 6 ++ w.extractLsb' 8 4 ++
      0#1).signExtend 32 ∧
    immU w = w.extractLsb' 12 20 ++ 0#12 ∧
    immJ w = (w.extractLsb' 31 1 ++ w.extractLsb' 12 8 ++ w.extractLsb' 20 1 ++ w.extractLsb' 21 10 ++
      0#1).signExtend 32 ∧
    (-2048 ≤ (immI w).toInt ∧ (immI w).toInt ≤ 2047) ∧ (shamtOf w).toNat ≤ 31 ∧
    (-2048 ≤ (immS w).toInt ∧ (immS w).toInt ≤ 2047) ∧
    (-4096 ≤ (immB w).toInt ∧ (immB w).toInt ≤ 4094 ∧ (immB w).toInt % 2 = 0) ∧
    (immU w).toNat % 4096 = 0 ∧
    (-1048576 ≤ (immJ w).toInt ∧ (immJ w).toInt ≤ 1048574 ∧ (immJ w).toInt % 2 = 0)

/-- R90 to R93: packing into an empty field and extracting gives the value masked to the width; a field
that shares no bit with it reads as before; a signed extract, of one field or of several, is the
two's-complement value of the unsigned bits at their combined width. -/
def Obligations.CodecLaws : Prop :=
  (∀ (acc v : Word) (f g : Field),
    (extractU acc f = 0#32 → extractU (pack acc v f) f = v &&& fieldMask f.width) ∧
    (f.pos + f.width ≤ g.pos ∨ g.pos + g.width ≤ f.pos →
      extractU (pack acc v f) g = extractU acc g)) ∧
  (∀ (w : Word) (f : Field), (extractS w f).toInt =
    if 2 ^ (f.width - 1) ≤ (extractU w f).toNat then ((extractU w f).toNat : Int) - 2 ^ f.width
    else (extractU w f).toNat) ∧
  (∀ (w : Word) (c : Composite) (n : Nat), n = (c.fields.map Field.width).sum →
    (extractMultiS w c).toInt =
      if 2 ^ (n - 1) ≤ (concatFields w 0#32 c.fields).toNat then
        ((concatFields w 0#32 c.fields).toNat : Int) - 2 ^ n
      else (concatFields w 0#32 c.fields).toNat)

/-- R106, the spec's own inference from R92 and R94: the encoder drops what a field cannot hold. -/
def Obligations.OperandsAreTruncated : Prop :=
  ∀ (m : Mnemonic) (rd rs1 rs2 imm : Word),
    encWord m rd rs1 rs2 imm = encWord m (rd &&& 31#32) (rs1 &&& 31#32) (rs2 &&& 31#32) imm ∧
    ((row m).format = .I ∨ (row m).format = .S →
      encWord m rd rs1 rs2 imm = encWord m rd rs1 rs2 (imm &&& 0x00000FFF#32)) ∧
    ((row m).format = .B → encWord m rd rs1 rs2 imm = encWord m rd rs1 rs2 (imm &&& 0x00001FFE#32)) ∧
    ((row m).format = .J → encWord m rd rs1 rs2 imm = encWord m rd rs1 rs2 (imm &&& 0x001FFFFE#32)) ∧
    ((row m).format = .U → encWord m rd rs1 rs2 imm = encWord m rd rs1 rs2 (imm &&& 0x000FFFFF#32)) ∧
    ((row m).format = .shift → encWord m rd rs1 rs2 imm = encWord m rd rs1 rs2 (imm &&& 31#32))

/-- The words the rules' examples give, one or more of each family, decode to what they stand for. That
`ebreak` and `fence` are rejected is the spec's decision D2 (log entry 18). -/
def Obligations.SampleWordsDecode : Prop :=
  decodeWord 0x002081B3#32 = .ok (.add 3 1 2) ∧ decodeWord 0x4020D1B3#32 = .ok (.sra 3 1 2) ∧
  decodeWord 0x03FA88B3#32 = .ok (.mul 17 21 31) ∧ decodeWord 0xFFEAA893#32 = .ok (.slti 17 21 0xFFE) ∧
  decodeWord 0x40435293#32 = .ok (.srai 5 6 4) ∧ decodeWord 0xFFC40383#32 = .ok (.lb 7 8 0xFFC) ∧
  decodeWord 0x12428223#32 = .ok (.sb 4 5 0x124) ∧ decodeWord 0x8020C063#32 = .ok (.blt 1 2 0x1000) ∧
  decodeWord 0x0020E0E3#32 = .ok (.bltu 1 2 2048) ∧ decodeWord 0x12345537#32 = .ok (.lui 10 0x12345) ∧
  decodeWord 0x001000EF#32 = .ok (.jal 1 2048) ∧ decodeWord 0xFFE280E7#32 = .ok (.jalr 1 5 0xFFE) ∧
  decodeWord 0x00000073#32 = .ok .ecall ∧ decodeWord 0x00000000#32 = .ok .invalid ∧
  decodeWord 0x00100073#32 = .error (.system 0x00100073#32) ∧
  decodeWord 0x0000000F#32 = .error (.fence 0x0000000F#32)

/-- R114, R181, R220, R236, R249, R267, R295: a fetched word of a listed illegal shape raises
`IllegalInstruction` and does nothing else. That the system and fence words, `jalr` with another
`funct3` and the other `funct7` values are illegal is the spec's decision D2, D3 (log entry 18). -/
def Obligations.IllegalWordsRaise : Prop :=
  ∀ (s : State) (w : Word), s.status = .running → s.icount < s.cfg.watchdogBudget →
    s.memFetch s.pc = .ok w → IllegalShape w →
    step s = .next { s with icount := s.icount + 1, status := .faulted (.illegalInstruction w) s.pc }

/-! ## What the instructions do -/

/-- R171 to R180. -/
def Obligations.RegisterRegisterResults : Prop :=
  ∀ (s : State) (rd rs1 rs2 : RegIdx), s.status = .running →
    (encode (.add rd rs1 rs2) = wordR 0b0000000#7 rs2 rs1 0b000#3 rd 0b0110011#7 ∧
      ResultIs (.add rd rs1 rs2) s rd (s.x rs1 + s.x rs2) (s.pc + 4#32)) ∧
    (encode (.sub rd rs1 rs2) = wordR 0b0100000#7 rs2 rs1 0b000#3 rd 0b0110011#7 ∧
      ResultIs (.sub rd rs1 rs2) s rd (s.x rs1 - s.x rs2) (s.pc + 4#32)) ∧
    (encode (.sll rd rs1 rs2) = wordR 0b0000000#7 rs2 rs1 0b001#3 rd 0b0110011#7 ∧
      ResultIs (.sll rd rs1 rs2) s rd (s.x rs1 <<< ((s.x rs2).toNat % 32)) (s.pc + 4#32)) ∧
    (encode (.slt rd rs1 rs2) = wordR 0b0000000#7 rs2 rs1 0b010#3 rd 0b0110011#7 ∧
      ResultIs (.slt rd rs1 rs2) s rd (if (s.x rs1).toInt < (s.x rs2).toInt then 1#32 else 0#32)
        (s.pc + 4#32)) ∧
    (encode (.sltu rd rs1 rs2) = wordR 0b0000000#7 rs2 rs1 0b011#3 rd 0b0110011#7 ∧
      ResultIs (.sltu rd rs1 rs2) s rd (if (s.x rs1).toNat < (s.x rs2).toNat then 1#32 else 0#32)
        (s.pc + 4#32)) ∧
    (encode (.xor rd rs1 rs2) = wordR 0b0000000#7 rs2 rs1 0b100#3 rd 0b0110011#7 ∧
      ResultIs (.xor rd rs1 rs2) s rd (s.x rs1 ^^^ s.x rs2) (s.pc + 4#32)) ∧
    (encode (.srl rd rs1 rs2) = wordR 0b0000000#7 rs2 rs1 0b101#3 rd 0b0110011#7 ∧
      ResultIs (.srl rd rs1 rs2) s rd (s.x rs1 >>> ((s.x rs2).toNat % 32)) (s.pc + 4#32)) ∧
    (encode (.sra rd rs1 rs2) = wordR 0b0100000#7 rs2 rs1 0b101#3 rd 0b0110011#7 ∧
      ResultIs (.sra rd rs1 rs2) s rd ((s.x rs1).sshiftRight ((s.x rs2).toNat % 32)) (s.pc + 4#32)) ∧
    (encode (.or rd rs1 rs2) = wordR 0b0000000#7 rs2 rs1 0b110#3 rd 0b0110011#7 ∧
      ResultIs (.or rd rs1 rs2) s rd (s.x rs1 ||| s.x rs2) (s.pc + 4#32)) ∧
    (encode (.and rd rs1 rs2) = wordR 0b0000000#7 rs2 rs1 0b111#3 rd 0b0110011#7 ∧
      ResultIs (.and rd rs1 rs2) s rd (s.x rs1 &&& s.x rs2) (s.pc + 4#32))

/-- R173, R177, R178 in numbers: a left shift multiplies modulo `2^32`, a logical right shift divides the
unsigned value, an arithmetic one divides the signed value rounding toward minus infinity. -/
def Obligations.ShiftsMultiplyAndDivide : Prop :=
  ∀ (s : State) (rd rs1 rs2 : RegIdx) (n : Nat), s.status = .running → n = (s.x rs2).toNat % 32 →
    (∃ v, ResultIs (.sll rd rs1 rs2) s rd v (s.pc + 4#32) ∧
      v.toNat = (s.x rs1).toNat * 2 ^ n % 2 ^ 32) ∧
    (∃ v, ResultIs (.srl rd rs1 rs2) s rd v (s.pc + 4#32) ∧ v.toNat = (s.x rs1).toNat / 2 ^ n) ∧
    (∃ v, ResultIs (.sra rd rs1 rs2) s rd v (s.pc + 4#32) ∧
      v.toInt = (s.x rs1).toInt.fdiv (2 ^ n))

/-- R191 to R194: the low half, the same whether the operands are read as signed or unsigned, and the
high half of the 64-bit product of the operands extended by their signs. -/
def Obligations.MultiplyResults : Prop :=
  ∀ (s : State) (rd rs1 rs2 : RegIdx), s.status = .running →
    (encode (.mul rd rs1 rs2) = wordR 0b0000001#7 rs2 rs1 0b000#3 rd 0b0110011#7 ∧
      ResultIs (.mul rd rs1 rs2) s rd
        (((s.x rs1).setWidth 64 * (s.x rs2).setWidth 64).extractLsb' 0 32) (s.pc + 4#32) ∧
      ResultIs (.mul rd rs1 rs2) s rd
        (((s.x rs1).signExtend 64 * (s.x rs2).signExtend 64).extractLsb' 0 32) (s.pc + 4#32)) ∧
    (encode (.mulh rd rs1 rs2) = wordR 0b0000001#7 rs2 rs1 0b001#3 rd 0b0110011#7 ∧
      ResultIs (.mulh rd rs1 rs2) s rd
        (((s.x rs1).signExtend 64 * (s.x rs2).signExtend 64).extractLsb' 32 32) (s.pc + 4#32)) ∧
    (encode (.mulhsu rd rs1 rs2) = wordR 0b0000001#7 rs2 rs1 0b010#3 rd 0b0110011#7 ∧
      ResultIs (.mulhsu rd rs1 rs2) s rd
        (((s.x rs1).signExtend 64 * (s.x rs2).setWidth 64).extractLsb' 32 32) (s.pc + 4#32)) ∧
    (encode (.mulhu rd rs1 rs2) = wordR 0b0000001#7 rs2 rs1 0b011#3 rd 0b0110011#7 ∧
      ResultIs (.mulhu rd rs1 rs2) s rd
        (((s.x rs1).setWidth 64 * (s.x rs2).setWidth 64).extractLsb' 32 32) (s.pc + 4#32))

/-- R195 to R198. The values at a zero divisor and at the overflow are the spec's own decision (D19,
log entry 10). -/
def Obligations.DivideResults : Prop :=
  ∀ (s : State) (rd rs1 rs2 : RegIdx), s.status = .running →
    (encode (.div rd rs1 rs2) = wordR 0b0000001#7 rs2 rs1 0b100#3 rd 0b0110011#7 ∧
      ResultIs (.div rd rs1 rs2) s rd
        (if s.x rs2 = 0#32 then 0xFFFFFFFF#32
         else if s.x rs1 = 0x80000000#32 ∧ s.x rs2 = 0xFFFFFFFF#32 then 0x80000000#32
         else (s.x rs1).sdiv (s.x rs2)) (s.pc + 4#32)) ∧
    (encode (.divu rd rs1 rs2) = wordR 0b0000001#7 rs2 rs1 0b101#3 rd 0b0110011#7 ∧
      ResultIs (.divu rd rs1 rs2) s rd
        (if s.x rs2 = 0#32 then 0xFFFFFFFF#32 else (s.x rs1).udiv (s.x rs2)) (s.pc + 4#32)) ∧
    (encode (.rem rd rs1 rs2) = wordR 0b0000001#7 rs2 rs1 0b110#3 rd 0b0110011#7 ∧
      ResultIs (.rem rd rs1 rs2) s rd
        (if s.x rs2 = 0#32 then s.x rs1
         else if s.x rs1 = 0x80000000#32 ∧ s.x rs2 = 0xFFFFFFFF#32 then 0#32
         else (s.x rs1).srem (s.x rs2)) (s.pc + 4#32)) ∧
    (encode (.remu rd rs1 rs2) = wordR 0b0000001#7 rs2 rs1 0b111#3 rd 0b0110011#7 ∧
      ResultIs (.remu rd rs1 rs2) s rd
        (if s.x rs2 = 0#32 then s.x rs1 else (s.x rs1).umod (s.x rs2)) (s.pc + 4#32))

/-- R199: dividend = divisor * quotient + remainder, the remainder smaller than the divisor and, signed,
of the dividend's sign. -/
def Obligations.DivisionLaw : Prop :=
  ∀ (s : State) (rd rs1 rs2 : RegIdx), s.status = .running → s.x rs2 ≠ 0#32 →
    (∃ q r : Word, ResultIs (.divu rd rs1 rs2) s rd q (s.pc + 4#32) ∧
      ResultIs (.remu rd rs1 rs2) s rd r (s.pc + 4#32) ∧
      (s.x rs1).toNat = (s.x rs2).toNat * q.toNat + r.toNat ∧ r.toNat < (s.x rs2).toNat) ∧
    (¬ (s.x rs1 = 0x80000000#32 ∧ s.x rs2 = 0xFFFFFFFF#32) →
      ∃ q r : Word, ResultIs (.div rd rs1 rs2) s rd q (s.pc + 4#32) ∧
        ResultIs (.rem rd rs1 rs2) s rd r (s.pc + 4#32) ∧
        (s.x rs1).toInt = (s.x rs2).toInt * q.toInt + r.toInt ∧
        r.toInt.natAbs < (s.x rs2).toInt.natAbs ∧
        (0 ≤ (s.x rs1).toInt → 0 ≤ r.toInt) ∧ ((s.x rs1).toInt ≤ 0 → r.toInt ≤ 0))

/-- R211 to R219. -/
def Obligations.RegisterImmediateResults : Prop :=
  ∀ (s : State) (rd rs1 : RegIdx) (imm : BitVec 12) (sh : BitVec 5), s.status = .running →
    (encode (.addi rd rs1 imm) = wordI imm rs1 0b000#3 rd 0b0010011#7 ∧
      ResultIs (.addi rd rs1 imm) s rd (s.x rs1 + imm.signExtend 32) (s.pc + 4#32)) ∧
    (encode (.slti rd rs1 imm) = wordI imm rs1 0b010#3 rd 0b0010011#7 ∧
      ResultIs (.slti rd rs1 imm) s rd
        (if (s.x rs1).toInt < (imm.signExtend 32).toInt then 1#32 else 0#32) (s.pc + 4#32)) ∧
    (encode (.sltiu rd rs1 imm) = wordI imm rs1 0b011#3 rd 0b0010011#7 ∧
      ResultIs (.sltiu rd rs1 imm) s rd
        (if (s.x rs1).toNat < (imm.signExtend 32).toNat then 1#32 else 0#32) (s.pc + 4#32)) ∧
    (encode (.xori rd rs1 imm) = wordI imm rs1 0b100#3 rd 0b0010011#7 ∧
      ResultIs (.xori rd rs1 imm) s rd (s.x rs1 ^^^ imm.signExtend 32) (s.pc + 4#32)) ∧
    (encode (.ori rd rs1 imm) = wordI imm rs1 0b110#3 rd 0b0010011#7 ∧
      ResultIs (.ori rd rs1 imm) s rd (s.x rs1 ||| imm.signExtend 32) (s.pc + 4#32)) ∧
    (encode (.andi rd rs1 imm) = wordI imm rs1 0b111#3 rd 0b0010011#7 ∧
      ResultIs (.andi rd rs1 imm) s rd (s.x rs1 &&& imm.signExtend 32) (s.pc + 4#32)) ∧
    (encode (.slli rd rs1 sh) = wordR 0b0000000#7 sh rs1 0b001#3 rd 0b0010011#7 ∧
      ResultIs (.slli rd rs1 sh) s rd (s.x rs1 <<< sh.toNat) (s.pc + 4#32)) ∧
    (encode (.srli rd rs1 sh) = wordR 0b0000000#7 sh rs1 0b101#3 rd 0b0010011#7 ∧
      ResultIs (.srli rd rs1 sh) s rd (s.x rs1 >>> sh.toNat) (s.pc + 4#32)) ∧
    (encode (.srai rd rs1 sh) = wordR 0b0100000#7 sh rs1 0b101#3 rd 0b0010011#7 ∧
      ResultIs (.srai rd rs1 sh) s rd ((s.x rs1).sshiftRight sh.toNat) (s.pc + 4#32))

/-- R231 to R235: the loaded bytes extended, when they are all in one region with Read, at any address,
aligned or not (R63); otherwise a `MemoryProtectionViolation` that names the reason of R57 (whose test
that all bytes are in one region is the spec's decision D8), the first address and the request mode and
has no other effect, whatever `rd` is (R230, R341, R342). -/
def Obligations.LoadResults : Prop :=
  ∀ (s : State) (rd rs1 : RegIdx) (imm : BitVec 12), s.status = .running → s.MemWf →
    encode (.lb rd rs1 imm) = wordI imm rs1 0b000#3 rd 0b0000011#7 ∧
    encode (.lh rd rs1 imm) = wordI imm rs1 0b001#3 rd 0b0000011#7 ∧
    encode (.lw rd rs1 imm) = wordI imm rs1 0b010#3 rd 0b0000011#7 ∧
    encode (.lbu rd rs1 imm) = wordI imm rs1 0b100#3 rd 0b0000011#7 ∧
    encode (.lhu rd rs1 imm) = wordI imm rs1 0b101#3 rd 0b0000011#7 ∧
    s.ea rs1 imm = s.x rs1 + imm.signExtend 32 ∧
    (s.Admits (s.ea rs1 imm) 1 modeRead →
      ResultIs (.lb rd rs1 imm) s rd ((s.byteAt (s.ea rs1 imm).toNat).signExtend 32) (s.pc + 4#32) ∧
      ResultIs (.lbu rd rs1 imm) s rd ((s.byteAt (s.ea rs1 imm).toNat).setWidth 32) (s.pc + 4#32)) ∧
    (¬ s.Admits (s.ea rs1 imm) 1 modeRead →
      AccessFaults (.lb rd rs1 imm) s (s.ea rs1 imm) modeRead ∧
      AccessFaults (.lbu rd rs1 imm) s (s.ea rs1 imm) modeRead) ∧
    (s.Admits (s.ea rs1 imm) 2 modeRead →
      ResultIs (.lh rd rs1 imm) s rd ((s.halfAt (s.ea rs1 imm).toNat).signExtend 32) (s.pc + 4#32) ∧
      ResultIs (.lhu rd rs1 imm) s rd ((s.halfAt (s.ea rs1 imm).toNat).setWidth 32) (s.pc + 4#32)) ∧
    (¬ s.Admits (s.ea rs1 imm) 2 modeRead →
      AccessFaults (.lh rd rs1 imm) s (s.ea rs1 imm) modeRead ∧
      AccessFaults (.lhu rd rs1 imm) s (s.ea rs1 imm) modeRead) ∧
    (s.Admits (s.ea rs1 imm) 4 modeRead →
      ResultIs (.lw rd rs1 imm) s rd (s.wordAt (s.ea rs1 imm).toNat) (s.pc + 4#32)) ∧
    (¬ s.Admits (s.ea rs1 imm) 4 modeRead → AccessFaults (.lw rd rs1 imm) s (s.ea rs1 imm) modeRead)

/-- R246 to R248: the low bytes stored, when they are all in one region with Write, at any address,
aligned or not (R63); otherwise the fault with the reason of R57 (D8), and no byte is written (R245,
R341, R342). -/
def Obligations.StoreResults : Prop :=
  ∀ (s : State) (rs2 rs1 : RegIdx) (imm : BitVec 12), s.status = .running → s.MemWf →
    encode (.sb rs2 rs1 imm) = wordS imm rs2 rs1 0b000#3 0b0100011#7 ∧
    encode (.sh rs2 rs1 imm) = wordS imm rs2 rs1 0b001#3 0b0100011#7 ∧
    encode (.sw rs2 rs1 imm) = wordS imm rs2 rs1 0b010#3 0b0100011#7 ∧
    s.ea rs1 imm = s.x rs1 + imm.signExtend 32 ∧
    (s.Admits (s.ea rs1 imm) 1 modeWrite →
      StoreIs (.sb rs2 rs1 imm) s (s.ea rs1 imm) 1 (s.x rs2)) ∧
    (¬ s.Admits (s.ea rs1 imm) 1 modeWrite →
      AccessFaults (.sb rs2 rs1 imm) s (s.ea rs1 imm) modeWrite) ∧
    (s.Admits (s.ea rs1 imm) 2 modeWrite →
      StoreIs (.sh rs2 rs1 imm) s (s.ea rs1 imm) 2 (s.x rs2)) ∧
    (¬ s.Admits (s.ea rs1 imm) 2 modeWrite →
      AccessFaults (.sh rs2 rs1 imm) s (s.ea rs1 imm) modeWrite) ∧
    (s.Admits (s.ea rs1 imm) 4 modeWrite →
      StoreIs (.sw rs2 rs1 imm) s (s.ea rs1 imm) 4 (s.x rs2)) ∧
    (¬ s.Admits (s.ea rs1 imm) 4 modeWrite →
      AccessFaults (.sw rs2 rs1 imm) s (s.ea rs1 imm) modeWrite)

/-- R261 to R266: only `pc` changes. -/
def Obligations.BranchResults : Prop :=
  ∀ (s : State) (rs1 rs2 : RegIdx) (d : BitVec 13), s.status = .running →
    (encode (.beq rs1 rs2 d) = wordB d rs2 rs1 0b000#3 0b1100011#7 ∧
      exec (.beq rs1 rs2 d) s = .next { s with
        pc := if s.x rs1 = s.x rs2 then s.pc + d.signExtend 32 else s.pc + 4#32 }) ∧
    (encode (.bne rs1 rs2 d) = wordB d rs2 rs1 0b001#3 0b1100011#7 ∧
      exec (.bne rs1 rs2 d) s = .next { s with
        pc := if s.x rs1 ≠ s.x rs2 then s.pc + d.signExtend 32 else s.pc + 4#32 }) ∧
    (encode (.blt rs1 rs2 d) = wordB d rs2 rs1 0b100#3 0b1100011#7 ∧
      exec (.blt rs1 rs2 d) s = .next { s with
        pc := if (s.x rs1).toInt < (s.x rs2).toInt then s.pc + d.signExtend 32 else s.pc + 4#32 }) ∧
    (encode (.bge rs1 rs2 d) = wordB d rs2 rs1 0b101#3 0b1100011#7 ∧
      exec (.bge rs1 rs2 d) s = .next { s with
        pc := if (s.x rs2).toInt ≤ (s.x rs1).toInt then s.pc + d.signExtend 32 else s.pc + 4#32 }) ∧
    (encode (.bltu rs1 rs2 d) = wordB d rs2 rs1 0b110#3 0b1100011#7 ∧
      exec (.bltu rs1 rs2 d) s = .next { s with
        pc := if (s.x rs1).toNat < (s.x rs2).toNat then s.pc + d.signExtend 32 else s.pc + 4#32 }) ∧
    (encode (.bgeu rs1 rs2 d) = wordB d rs2 rs1 0b111#3 0b1100011#7 ∧
      exec (.bgeu rs1 rs2 d) s = .next { s with
        pc := if (s.x rs2).toNat ≤ (s.x rs1).toNat then s.pc + d.signExtend 32 else s.pc + 4#32 })

/-- R276 to R279. A jump's target is computed from the old registers, so `rd = rs1` works. -/
def Obligations.UpperImmediateAndJumpResults : Prop :=
  ∀ (s : State) (rd rs1 : RegIdx) (imm20 : BitVec 20) (d : BitVec 21) (imm : BitVec 12),
    s.status = .running →
    (encode (.lui rd imm20) = wordU imm20 rd 0b0110111#7 ∧
      ResultIs (.lui rd imm20) s rd (imm20 ++ 0#12) (s.pc + 4#32)) ∧
    (encode (.auipc rd imm20) = wordU imm20 rd 0b0010111#7 ∧
      ResultIs (.auipc rd imm20) s rd (s.pc + (imm20 ++ 0#12)) (s.pc + 4#32)) ∧
    (encode (.jal rd d) = wordJ d rd 0b1101111#7 ∧
      ResultIs (.jal rd d) s rd (s.pc + 4#32) (s.pc + d.signExtend 32)) ∧
    (encode (.jalr rd rs1 imm) = wordI imm rs1 0b000#3 rd 0b1100111#7 ∧
      ResultIs (.jalr rd rs1 imm) s rd (s.pc + 4#32)
        ((s.x rs1 + imm.signExtend 32) &&& 0xFFFFFFFE#32))

/-- R292, R143: the halt word changes the status and nothing else. -/
def Obligations.HaltWordHalts : Prop :=
  encode .invalid = 0#32 ∧ decodeWord 0#32 = .ok .invalid ∧
    ∀ s : State, exec .invalid s = .next { s with status := .halted }

/-- R354: `exit` ends the run with the whole of register 10 as a signed code (the spec's decision D13);
no register or byte changes and `pc` keeps the address of the `ecall`. -/
def Obligations.ExitEndsTheRun : Prop :=
  ∀ s : State, s.cfg.handlerAttached = true → s.x 17#5 = 0#32 →
    exec .ecall s =
      .next { s with status := .exited (s.x 10#5).toInt, trapCount := s.trapCount + 1 }

/-- R344, R383 item 7 (the spec's inference): with no handler attached every `ecall` is
`UnimplementedSyscall`. -/
def Obligations.EcallWithoutHandlerFaults : Prop :=
  ∀ s : State, s.cfg.handlerAttached = false →
    exec .ecall s = .next { s with status := .faulted (.unimplementedSyscall (s.x 17#5)) s.pc,
                                   trapCount := s.trapCount + 1 }

/-- R352, for every handler: `ecall` completes; register 0 stays zero; regions, parameters and session
stay; `icount` stays; a byte outside the regions with Write stays; `pc` is `pc + 4` while the run
goes on and unchanged where it ended, by `Stop` or a fault. What the handler may and may not change is
the spec's decision D30, its gating and the `pc` after it D13 (log entry 15), and the form of its answer
is that of log entries 4 and 14. -/
def Obligations.EcallFrame : Prop :=
  ∀ s : State, s.status = .running →
    ∃ t, exec .ecall s = .next t ∧ SessionKept s t ∧ t.icount = s.icount ∧
      t.trapCount = s.trapCount + 1 ∧
      (s.regs.get 0 = 0#32 → t.regs.get 0 = 0#32) ∧
      (∀ a : Word, ¬ s.Admits a 1 modeWrite → t.byteAt a.toNat = s.byteAt a.toNat) ∧
      ((t.status = .running ∧ t.pc = s.pc + 4#32) ∨
        (t.pc = s.pc ∧ ((∃ code, t.status = .exited code) ∨
          (∃ v, t.status = .faulted (.memoryProtectionViolation v) s.pc) ∨
          t.status = .faulted (.unimplementedSyscall (s.x 17#5)) s.pc)))

/-- R350, R355: taking the trap saves nothing and its return restores nothing. The handler's accesses
act on the state in their order: a byte read leaves it, a byte write changes that byte only, a register
write goes through the helper, and a byte read without Read or a byte write without Write is refused
(R70, R352). When none is refused the step ends with what they left, the return value in `SYS_RET_REG`,
and `pc + 4`; a refused one ends the run and the earlier ones stay. A number the handler does not
implement ends the run at once (R344), handler attached or not. The gating and the return register
are the spec's decision D13, what the handler may change D30, what stays D15; the form of an answer is
that of log entries 4 and 14. -/
def Obligations.TrapTakesAndReturns : Prop :=
  ∀ (s t : State) (accesses : List TrapAccess), s.status = .running →
    exec .ecall s = .next (s.countTrap.takeTrap s.handlerReply) ∧
    s.takeTrap .unimplemented =
      { s with status := .faulted (.unimplementedSyscall (s.x 17#5)) s.pc } ∧
    (State.trapAccesses accesses s = (t, none) →
      s.takeTrap (.runs accesses (.returned none)) = { t with pc := s.pc + 4#32 } ∧
      (∀ v, s.takeTrap (.runs accesses (.returned (some v))) =
        { t.setX s.cfg.sysRetReg v with pc := s.pc + 4#32 }) ∧
      (∀ code, s.takeTrap (.runs accesses (.stop code)) = { t with status := .exited code.toInt })) ∧
    (∀ v ending, State.trapAccesses accesses s = (t, some v) →
      s.takeTrap (.runs accesses ending) =
        { t with status := .faulted (.memoryProtectionViolation v) s.pc }) ∧
    State.trapAccesses [] s = (s, none) ∧
    (∀ (x : TrapAccess) (xs : List TrapAccess),
      (∀ u, s.trapAccess x = .ok u → State.trapAccesses (x :: xs) s = State.trapAccesses xs u) ∧
      (∀ v, s.trapAccess x = .error v → State.trapAccesses (x :: xs) s = (s, some v))) ∧
    (∀ (i : RegIdx) (v : Word), ∃ u, s.trapAccess (.writeReg i v) = .ok u ∧ RegWritten s u i v) ∧
    (s.MemWf → ∀ (a : Word) (b : Byte),
      (s.Admits a 1 modeRead → s.trapAccess (.readByte a) = .ok s) ∧
      (¬ s.Admits a 1 modeRead → ∃ why, RefusalReason s a modeRead why ∧
        s.trapAccess (.readByte a) = .error ⟨why, a, modeRead⟩) ∧
      (s.Admits a 1 modeWrite → ∃ u, s.trapAccess (.writeByte a b) = .ok u ∧
        BytesWritten s u a 1 (b.setWidth 32)) ∧
      (¬ s.Admits a 1 modeWrite → ∃ why, RefusalReason s a modeWrite why ∧
        s.trapAccess (.writeByte a b) = .error ⟨why, a, modeWrite⟩))

/-! ## The engine -/

/-- A step at whose `pc` a word is fetched that decodes to `i` is `exec i` after the count: the
instruction does the rest, `pc` included. -/
def Obligations.StepRunsDecodedInstruction : Prop :=
  ∀ (s : State) (w : Word) (i : Instr), s.status = .running → s.icount < s.cfg.watchdogBudget →
    s.memFetch s.pc = .ok w → decodeWord w = .ok i →
    step s = exec i { s with icount := s.icount + 1 }

/-- R148: with the budget used up the run ends, whatever the fetch would have done, and nothing else
changes. The place of the check in the step is the spec's decision D10. -/
def Obligations.WatchdogEndsTheRun : Prop :=
  ∀ s : State, s.status = .running → s.cfg.watchdogBudget ≤ s.icount →
    step s = .next { s with status := .watchdogExpired }

/-- R142, R143, R343 in their order: a refused fetch faults with the reason of R57 (whose test that all
bytes are in one region is the spec's decision D8), the address and the request mode; then the zero word
halts; then a word the decoder rejects is illegal. Each counts as a step and changes nothing else. -/
def Obligations.FetchOutcomes : Prop :=
  ∀ s : State, s.status = .running → s.icount < s.cfg.watchdogBudget →
    (¬ s.Admits s.pc 4 modeExec → ∃ why, (s.MemWf → RefusalReason s s.pc modeExec why) ∧
      step s = .next { s with
        icount := s.icount + 1
        status := .faulted (.memoryProtectionViolation ⟨why, s.pc, modeExec⟩) s.pc }) ∧
    (s.MemWf → s.Admits s.pc 4 modeExec → s.wordAt s.pc.toNat = 0#32 →
      step s = .next { s with icount := s.icount + 1, status := .halted }) ∧
    (s.MemWf → s.Admits s.pc 4 modeExec → (∃ r, decodeWord (s.wordAt s.pc.toNat) = .error r) →
      step s = .next { s with
        icount := s.icount + 1
        status := .faulted (.illegalInstruction (s.wordAt s.pc.toNat)) s.pc })

/-- A running machine always has a next state ("Nothing in the hardware is `stuck`"); from an ended run
no step is taken (R28, R141, R156). That such a step answers the fault `runEnded` is the model's choice,
log entry 9. -/
def Obligations.RunningStepNeverStops : Prop :=
  ∀ s : State, (s.status = .running → ∃ t, step s = .next t) ∧
    (s.status ≠ .running → step s = .fault .runEnded)

/-- The invariant holds after every step. -/
def Obligations.StepKeepsInvariant : Prop :=
  ∀ s t : State, s.Inv → step s = .next t → t.Inv

/-- The invariant holds at reset. The parameters and launch arguments are those of log entries 1 to 3. -/
def Obligations.ResetMeetsInvariant : Prop := State.reset.Inv

/-- The invariant holds after every operation of the host, the encoder and the linker, `emit_word` of any
word and `AddSymbol` of any user name among them. -/
def Obligations.HostOperationsKeepInvariant : Prop :=
  ∀ s : State, s.Inv →
    (∀ base length mode t, hostAllocate base length mode s = .next t → t.Inv) ∧
    (∀ length mode t, hostAllocateAnywhere length mode s = .next t → t.Inv) ∧
    (∀ a n v t, hostLoaderWrite a n v s = .next t → t.Inv) ∧
    (∀ i v, (hostWriteReg i v s).Inv) ∧ (∀ entry regs, (launch entry regs s).Inv) ∧
    (∀ c, (newSession c s).Inv) ∧ (∀ name, (label name s).Inv) ∧
    (∀ name a, (s.addSymbol (.user name) a).Inv) ∧ (∀ v t, emitWord v s = .next t → t.Inv) ∧
    (∀ i t, emitInstr i s = .next t → t.Inv) ∧ (∀ t, emitInvalid s = .next t → t.Inv) ∧
    (∀ m rd rs1 rs2 imm t, emit m rd rs1 rs2 imm s = .next t → t.Inv) ∧
    (∀ bs t, emitBytes bs s = .next t → t.Inv) ∧ (∀ name t, emitAddr name s = .next t → t.Inv) ∧
    (∀ rd name t, emitJalTo rd name s = .next t → t.Inv) ∧
    (∀ m rs1 rs2 name t, emitBranchTo m rs1 rs2 name s = .next t → t.Inv) ∧
    (∀ rd name t, emitAuipcHi rd name s = .next t → t.Inv) ∧
    (∀ m rd rs1 off t, emitWithLo m rd rs1 off s = .next t → t.Inv) ∧
    (∀ t, relocate s = .next t → t.Inv)

/-- R140 (the spec's inference from R148, D10): every run ends, having begun at most as many steps as
the budget admits. -/
def Obligations.EveryRunEnds : Prop :=
  ∀ s : State, s.icount ≤ s.cfg.watchdogBudget →
    (run s).status ≠ .running ∧ (run s).icount ≤ s.cfg.watchdogBudget

/-- R293: a step that ends the run ends it in one of four ways, each with its cause. -/
def Obligations.FourWaysToEnd : Prop :=
  ∀ s t : State, step s = .next t → t.status ≠ .running →
    (t.status = .watchdogExpired ∧ s.cfg.watchdogBudget ≤ s.icount) ∨
    (t.status = .halted ∧ s.memFetch s.pc = .ok 0#32) ∨
    (∃ code, t.status = .exited code ∧ s.memFetch s.pc = .ok 0x00000073#32) ∨
    (∃ kind, t.status = .faulted kind s.pc)

/-- R341: a step that faults has no effect but the count and the status, unless it is an `ecall`, whose
handler's earlier writes stay. The recorded `pc` is the instruction's, and `pc` still holds it. The
spec's decision D15. -/
def Obligations.FaultsArePrecise : Prop :=
  ∀ (s t : State) (kind : FaultKind) (p : Word), step s = .next t → t.status = .faulted kind p →
    p = s.pc ∧ t.pc = s.pc ∧ t.icount = s.icount + 1 ∧
      (s.memFetch s.pc ≠ .ok 0x00000073#32 →
        t = { s with icount := s.icount + 1, status := .faulted kind s.pc })

/-- R147: a step that ends the run leaves `pc`; a step that does not moves it to `pc + 4`, unless its
instruction is a branch, `jal` or `jalr`. What `pc` holds after the end is the spec's decision (D13,
D15). -/
def Obligations.PcCommit : Prop :=
  ∀ s t : State, step s = .next t →
    (t.status ≠ .running → t.pc = s.pc) ∧
    (t.status = .running → ∃ w i, s.memFetch s.pc = .ok w ∧ decodeWord w = .ok i ∧
      (transfers i = false → t.pc = s.pc + 4#32))

/-- R146: an instruction other than `ecall` writes no register but the one its `rd` field names, and
none if it has no such field; register 0 stays zero through every instruction. R27: nothing but a store
or an `ecall` changes memory. -/
def Obligations.OneDestinationPerInstruction : Prop :=
  ∀ (i : Instr) (s t : State), s.status = .running → exec i s = .next t →
    (s.regs.get 0 = 0#32 → t.regs.get 0 = 0#32) ∧
    (i ≠ .ecall → ∀ j, j ≠ i.operands.rd → t.x j = s.x j) ∧
    ((row i.mnemonic).format = .S ∨ (row i.mnemonic).format = .B → ∀ j, t.x j = s.x j) ∧
    ((row i.mnemonic).format ≠ .S → i ≠ .ecall → t.mem = s.mem)

/-- R35, R56: no step allocates, frees or re-modes a region, or touches the assembly session or the
parameters. -/
def Obligations.StepsKeepRegionsAndSession : Prop :=
  ∀ s t : State, step s = .next t → SessionKept s t

/-- R363: the count is one more after every step begun, and is not reset during a run; a launch sets
it to zero. -/
def Obligations.CountOfSteps : Prop :=
  (∀ s t : State, step s = .next t →
    t.icount = if s.icount < s.cfg.watchdogBudget then s.icount + 1 else s.icount) ∧
  (∀ entry regs s, (launch entry regs s).icount = 0)

/-- R28, and the first words of `49_relocation.md`: no instruction can see the count or the assembly
session. Two states that agree on the rest give the same outcome on the rest. -/
def Obligations.CountAndSessionAreUnseen : Prop :=
  ∀ (i : Instr) (s s' t : State), SameEngine s s' → exec i s = .next t →
    ∃ t', exec i s' = .next t' ∧ SameEngine t t'

/-- R150 to R155, whose structure is the spec's decision D26: what an instruction does is what the
datapath computes from the fetched word through its multiplexers. -/
def Obligations.DatapathComputesTheInstruction : Prop :=
  ∀ (w : Word) (i : Instr) (s : State), decodeWord w = .ok i → i ≠ .invalid → s.status = .running →
    exec i s = .next (datapath i.mnemonic w s)

/-- R380: the launch state (the spec's decision D12). That the registers are those of the launch's own
argument, whatever a `WriteReg` before it left, is the model's choice, log entry 23. -/
def Obligations.LaunchState : Prop :=
  ∀ (entry : Word) (regs : Vector Word 32) (s : State),
    (launch entry regs s).regs.get 0 = 0#32 ∧
    (∀ j : RegIdx, j ≠ 0#5 → (launch entry regs s).x j = regs.get j.toFin) ∧
    launch entry regs s = { s with regs := (launch entry regs s).regs, pc := entry, icount := 0,
                                   status := .running }

/-! ## Memory -/

/-- R53: lookup finds the region that contains the address, and only that. -/
def Obligations.LookupFindsTheCoveringRegion : Prop :=
  ∀ (s : State) (a : Word), s.MemWf → ∀ r : Region,
    s.mem.lookup a = some r ↔
      r ∈ s.mem.regions ∧ r.base.toNat ≤ a.toNat ∧ a.toNat < r.base.toNat + r.length

/-- R57: an access is let through exactly when one region holds all its bytes and has every flag; the
reason of a refused one is `Unmapped` with no region there, else `ModeMissing` if a flag is absent,
else `Unmapped`. The test that all bytes are in one region is the spec's decision D8. -/
def Obligations.AccessCheck : Prop :=
  ∀ (s : State) (a : Word) (n : Nat) (req : AccessMode), s.MemWf → 1 ≤ n →
    ((∃ r, s.mem.check a n req = .ok r) ↔ s.Admits a n req) ∧
    (¬ s.Admits a 1 modeLoader → s.mem.check a n req = .error ⟨.unmapped, a, req⟩) ∧
    (s.Admits a 1 modeLoader → ¬ s.Admits a 1 req →
      s.mem.check a n req = .error ⟨.modeMissing, a, req⟩) ∧
    (s.Admits a 1 req → ¬ s.Admits a n req → s.mem.check a n req = .error ⟨.unmapped, a, req⟩)

/-- R54. Rounding, the rejections and the fill are the spec's decisions D5 and D7. -/
def Obligations.AllocateRule : Prop :=
  ∀ (s : State) (base : Word) (length : Nat) (mode : AccessMode), s.MemWf → s.cfg.wf = true →
    let n := roundUp s.cfg.pageSize length
    (n % s.cfg.pageSize = 0 ∧ length ≤ n ∧ n < length + s.cfg.pageSize) ∧
    ((length = 0 ∨ base.toNat % s.cfg.pageSize ≠ 0 ∨ 2 ^ 32 < base.toNat + n ∨
        (∃ r ∈ s.mem.regions, base.toNat < r.base.toNat + r.length ∧ r.base.toNat < base.toNat + n)) →
      hostAllocate base length mode s = .refused .allocationRejected) ∧
    (¬ (length = 0 ∨ base.toNat % s.cfg.pageSize ≠ 0 ∨ 2 ^ 32 < base.toNat + n ∨
        (∃ r ∈ s.mem.regions, base.toNat < r.base.toNat + r.length ∧ r.base.toNat < base.toNat + n)) →
      ∃ t, hostAllocate base length mode s = .next t ∧ t.MemWf ∧ t = { s with mem := t.mem } ∧
        (∀ q, q ∈ t.mem.regions ↔ q = ⟨base, n, mode⟩ ∨ q ∈ s.mem.regions) ∧
        (∀ a : Nat, t.byteAt a = s.byteAt a) ∧
        (∀ a : Nat, base.toNat ≤ a → a < base.toNat + n → t.byteAt a = s.cfg.regionFill))

/-- R55, as this spec chose the gap (D6): one page past the end of the highest region, or one page when
there is none; then as `Allocate` there. -/
def Obligations.AllocateAnywhereRule : Prop :=
  ∀ (s : State) (length : Nat) (mode : AccessMode), s.MemWf →
    (∀ e : Nat, (s.mem.regions = [] ∧ e = 0) ∨
        ((∃ r ∈ s.mem.regions, e = r.base.toNat + r.length) ∧
          ∀ r ∈ s.mem.regions, r.base.toNat + r.length ≤ e) →
      (2 ^ 32 ≤ e + s.cfg.pageSize →
        hostAllocateAnywhere length mode s = .refused .allocationRejected) ∧
      (e + s.cfg.pageSize < 2 ^ 32 →
        hostAllocateAnywhere length mode s =
          hostAllocate (BitVec.ofNat 32 (e + s.cfg.pageSize)) length mode s ∧
        ∀ t, hostAllocateAnywhere length mode s = .next t →
          allocatedAnywhereAt length mode s = some (BitVec.ofNat 32 (e + s.cfg.pageSize))))

/-- R62 (the spec's inference from R60, R61): after a word is written, narrower reads in it see exactly
its bytes. -/
def Obligations.MixedWidthAccesses : Prop :=
  ∀ (s t : State) (a v : Word), s.MemWf → s.Admits a 4 modeRead →
    s.memWrite a .word v = .ok t →
    t.memRead a .word = .ok v ∧
    t.memRead a .half = .ok ((v.extractLsb' 0 16).setWidth 32) ∧
    t.memRead (a + 2#32) .half = .ok ((v.extractLsb' 16 16).setWidth 32) ∧
    t.memRead a .byte = .ok ((v.extractLsb' 0 8).setWidth 32) ∧
    t.memRead (a + 1#32) .byte = .ok ((v.extractLsb' 8 8).setWidth 32) ∧
    t.memRead (a + 2#32) .byte = .ok ((v.extractLsb' 16 8).setWidth 32) ∧
    t.memRead (a + 3#32) .byte = .ok ((v.extractLsb' 24 8).setWidth 32)

/-- R75: a stored word is what the very next fetch there sees, when the region has Write and Execute;
without Write the store faults (the spec's inference from R61, R68, R142). -/
def Obligations.StoredWordIsFetched : Prop :=
  ∀ (s : State) (rs2 rs1 : RegIdx) (imm : BitVec 12), s.status = .running → s.MemWf →
    (s.Admits (s.ea rs1 imm) 4 (modeWrite ||| modeExec) →
      ∃ t, exec (.sw rs2 rs1 imm) s = .next t ∧ t.memFetch (s.ea rs1 imm) = .ok (s.x rs2)) ∧
    (s.Admits (s.ea rs1 imm) 4 modeExec → ¬ s.Admits (s.ea rs1 imm) 4 modeWrite →
      exec (.sw rs2 rs1 imm) s = .next (faultedState s (.memoryProtectionViolation
        ⟨.modeMissing, s.ea rs1 imm, modeWrite⟩)))

/-! ## The encoder and the linker -/

/-- R107 to R109: an emitted word, an instruction's, a data word (`emit_word`, D28) or the halt word,
stands at the old cursor whatever the region's mode, the cursor is 4 further, every other byte and all
the rest of the state stay; where the four bytes are not in one region the operation is refused (the
spec's decision D9). -/
def Obligations.EmitWritesTheWord : Prop :=
  ∀ (s : State) (v : Word), s.MemWf →
    (s.Admits s.cursor 4 modeLoader → ∃ t, emitWord v s = .next t ∧ EmitStep s t v s.relocs) ∧
    (¬ s.Admits s.cursor 4 modeLoader → ∃ why, RefusalReason s s.cursor modeLoader why ∧
      emitWord v s = .refused (.loaderAccess ⟨why, s.cursor, modeLoader⟩)) ∧
    (∀ (m : Mnemonic) (rd rs1 rs2 imm : Word),
      emit m rd rs1 rs2 imm s = emitWord (encWord m rd rs1 rs2 imm) s) ∧
    (∀ i : Instr, emitInstr i s = emitWord (encode i) s) ∧ emitInvalid s = emitWord 0#32 s

/-- An instruction emitted into an executable region is what a launch at its address runs first. -/
def Obligations.EmittedInstructionRuns : Prop :=
  ∀ (s t : State) (i : Instr) (regs : Vector Word 32), s.MemWf → i.WellFormed →
    s.Admits s.cursor 4 modeExec → 0 < s.cfg.watchdogBudget → emitInstr i s = .next t →
    step (launch s.cursor regs t) = exec i { launch s.cursor regs t with icount := 1 }

/-- R108: when every byte's address is in a region, `emit_bytes` completes: the bytes stand at consecutive
addresses from the cursor, which advances by their number, and nothing else changes (the spec's decision
D28). The loader port is asked byte by byte; the first byte in no region refuses the whole, with that
byte's address (D9; that the bytes before it are not kept is log entry 12). -/
def Obligations.EmitBytesRule : Prop :=
  ∀ (s : State) (bs : List Byte), s.MemWf →
    ((∀ k < bs.length, s.Admits (s.cursor + BitVec.ofNat 32 k) 1 modeLoader) →
      ∃ t, emitBytes bs s = .next t ∧
        t = { s with mem := t.mem, cursor := s.cursor + BitVec.ofNat 32 bs.length } ∧
        t.mem.regions = s.mem.regions ∧
        (bs.length ≤ 2 ^ 32 →
          ∀ k (h : k < bs.length), t.byteAt (s.cursor + BitVec.ofNat 32 k).toNat = bs[k]) ∧
        (∀ a : Word, (∀ k < bs.length, a ≠ s.cursor + BitVec.ofNat 32 k) →
          t.byteAt a.toNat = s.byteAt a.toNat)) ∧
    (∀ k < bs.length, (∀ j < k, s.Admits (s.cursor + BitVec.ofNat 32 j) 1 modeLoader) →
      ¬ s.Admits (s.cursor + BitVec.ofNat 32 k) 1 modeLoader →
      emitBytes bs s =
        .refused (.loaderAccess ⟨.unmapped, s.cursor + BitVec.ofNat 32 k, modeLoader⟩))

/-- R306, R307: a new name is bound and reported as such; a bound one keeps its binding and its second
definition is reported. Nothing else changes. A label is bound to the cursor. -/
def Obligations.SymbolsAreBoundOnce : Prop :=
  ∀ (s : State) (name : SymName) (addr : Word),
    (lookupSymbol s.symbols name = none →
      s.addSymbolOk name = true ∧
      lookupSymbol (s.addSymbol name addr).symbols name = some addr ∧
      (∀ n, n ≠ name → lookupSymbol (s.addSymbol name addr).symbols n = lookupSymbol s.symbols n) ∧
      s.addSymbol name addr = { s with symbols := (s.addSymbol name addr).symbols }) ∧
    (∀ a, lookupSymbol s.symbols name = some a →
      s.addSymbolOk name = false ∧
      s.addSymbol name addr = { s with diagnostics := s.diagnostics ++ [.duplicateSymbol name] }) ∧
    (∀ n, label n s = s.addSymbol (.user n) s.cursor)

/-- R309, R311, R313, R327: `%pcrel_lo` binds a fresh auto name to the hi instruction's address without a
duplicate, records the Lo-relocation at the cursor and emits the instruction with immediate 0, the cursor
4 further; nothing else changes (the spec's decisions D22, D23). Where the four bytes are not in one
region it is refused (D9, log entry 12). It is refused on a store (D24) and on every other mnemonic but
those whose format is `I`: that `slli`, `srli` and `srai`, which R112 calls "I (shift form)", are among
the refused is the model's choice, log entry 20. That all of it holds after `Relocate()` too is the
model's choice, log entry 22. -/
def Obligations.PcrelLoRule : Prop :=
  ∀ (s : State) (m : Mnemonic) (rd rs1 off : Word), s.Inv →
    ((row m).format ≠ .I → emitWithLo m rd rs1 off s = .refused .operandRefused) ∧
    ((row m).format = .I → s.Admits s.cursor 4 modeLoader →
      ∃ t, emitWithLo m rd rs1 off s = .next t ∧
        t = { s with
          mem := t.mem
          cursor := s.cursor + 4#32
          symbols := t.symbols
          relocs := s.relocs ++ [⟨s.cursor, .loPcRel12, .auto s.autoCount⟩]
          autoCount := s.autoCount + 1 } ∧
        lookupSymbol s.symbols (.auto s.autoCount) = none ∧
        lookupSymbol t.symbols (.auto s.autoCount) = some (s.cursor + off) ∧
        (∀ n, n ≠ .auto s.autoCount → lookupSymbol t.symbols n = lookupSymbol s.symbols n) ∧
        t.mem.regions = s.mem.regions ∧
        t.wordAt s.cursor.toNat = encI (row m).opcode (row m).funct3 rd rs1 0#32 ∧
        ∀ b req, Outside s.cursor 4 b → t.readByte b req = s.readByte b req) ∧
    ((row m).format = .I → ¬ s.Admits s.cursor 4 modeLoader →
      ∃ why, RefusalReason s s.cursor modeLoader why ∧
        emitWithLo m rd rs1 off s = .refused (.loaderAccess ⟨why, s.cursor, modeLoader⟩))

/-- R110, R311, R312: a symbolic operand records its relocation at the cursor, then emits the
instruction with that field zero, the cursor 4 further; nothing else changes, the symbol table in
particular (R307). Where the four bytes are not in one region it is refused (D9, log entry 12), and so is
a label on a mnemonic that is no branch (log entry 20). That `emit_addr` is what records
`AbsoluteWord32` is the spec's decision D28; that all of it holds after `Relocate()` too is the model's
choice, log entry 22. -/
def Obligations.SymbolicOperandsRecord : Prop :=
  ∀ (s : State) (name : SymName) (r a b : Word) (m : Mnemonic), s.MemWf →
    (s.Admits s.cursor 4 modeLoader →
      (∃ t, emitJalTo r name s = .next t ∧
        EmitStep s t (encJ 0b1101111#32 r 0#32) (s.relocs ++ [⟨s.cursor, .jumpPcRel, name⟩])) ∧
      ((row m).format = .B → ∃ t, emitBranchTo m a b name s = .next t ∧
        EmitStep s t (encB 0b1100011#32 (row m).funct3 a b 0#32)
          (s.relocs ++ [⟨s.cursor, .branchPcRel, name⟩])) ∧
      (∃ t, emitAuipcHi r name s = .next t ∧
        EmitStep s t (encU 0b0010111#32 r 0#32) (s.relocs ++ [⟨s.cursor, .hiPcRel20, name⟩])) ∧
      (∃ t, emitAddr name s = .next t ∧
        EmitStep s t 0#32 (s.relocs ++ [⟨s.cursor, .absoluteWord32, name⟩]))) ∧
    (¬ s.Admits s.cursor 4 modeLoader → ∃ why, RefusalReason s s.cursor modeLoader why ∧
      emitJalTo r name s = .refused (.loaderAccess ⟨why, s.cursor, modeLoader⟩) ∧
      ((row m).format = .B →
        emitBranchTo m a b name s = .refused (.loaderAccess ⟨why, s.cursor, modeLoader⟩)) ∧
      emitAuipcHi r name s = .refused (.loaderAccess ⟨why, s.cursor, modeLoader⟩) ∧
      emitAddr name s = .refused (.loaderAccess ⟨why, s.cursor, modeLoader⟩)) ∧
    ((row m).format ≠ .B → emitBranchTo m a b name s = .refused .operandRefused)

/-- R326 (the spec's inference): the biased high part and the sign-extended low part give the
displacement back. -/
def Obligations.HiLoRoundTrip : Prop :=
  ∀ d : Word, (hi20 d <<< 12) + ((lo12 d).setWidth 12).signExtend 32 = d

/-- R277, R326 (the spec's inference): `auipc` then `addi` with the two parts of a displacement leaves
the `auipc`'s address plus that displacement, whatever it is. -/
def Obligations.AuipcAddiReachesSymbol : Prop :=
  ∀ (s : State) (rd : RegIdx) (target : Word), s.status = .running → rd ≠ 0#5 →
    ∃ t u, exec (.auipc rd ((hi20 (target - s.pc)).setWidth 20)) s = .next t ∧
      exec (.addi rd rd ((lo12 (target - s.pc)).setWidth 12)) t = .next u ∧
      u.x rd = target ∧ u.pc = s.pc + 8#32 ∧ ∀ j, j ≠ rd → u.x j = s.x j

/-- R328: a jump or branch to a label, linked at any later time at which its word is still the one
emitted and the label is bound, holds the word the literal displacement from its site gives. -/
def Obligations.RelocationEquivalence : Prop :=
  ∀ (s t t' u : State) (name : SymName) (rd a b addr : Word) (m : Mnemonic), s.MemWf → t'.MemWf →
    t'.wordAt s.cursor.toNat = t.wordAt s.cursor.toNat →
    lookupSymbol t'.symbols name = some addr →
    (emitJalTo rd name s = .next t → patch ⟨s.cursor, .jumpPcRel, name⟩ t' = .next u →
      ∃ v, emit .jal rd 0#32 0#32 (addr - s.cursor) s = .next v ∧
        u.wordAt s.cursor.toNat = v.wordAt s.cursor.toNat) ∧
    (emitBranchTo m a b name s = .next t → patch ⟨s.cursor, .branchPcRel, name⟩ t' = .next u →
      ∃ v, emit m 0#32 a b (addr - s.cursor) s = .next v ∧
        u.wordAt s.cursor.toNat = v.wordAt s.cursor.toNat)

/-- R321, R323, R324: what each patch leaves at its site when the symbol is known and the site can be
reached; nothing else changes. -/
def Obligations.PatchWritesTheWord : Prop :=
  ∀ (s : State) (r : Reloc) (a : Word), s.MemWf → s.Admits r.siteOffset 4 modeLoader →
    lookupSymbol s.symbols r.targetSymbolName = some a → r.kind ≠ .loPcRel12 →
    ∃ t, patch r s = .next t ∧ t = { s with mem := t.mem } ∧ t.mem.regions = s.mem.regions ∧
      (∀ b req, Outside r.siteOffset 4 b → t.readByte b req = s.readByte b req) ∧
      (r.kind = .jumpPcRel → t.wordAt r.siteOffset.toNat =
        s.wordAt r.siteOffset.toNat ||| encJ 0#32 0#32 (a - r.siteOffset)) ∧
      (r.kind = .branchPcRel → t.wordAt r.siteOffset.toNat =
        s.wordAt r.siteOffset.toNat ||| encB 0#32 0#32 0#32 0#32 (a - r.siteOffset)) ∧
      (r.kind = .absoluteWord32 → t.wordAt r.siteOffset.toNat = a) ∧
      (r.kind = .hiPcRel20 → t.wordAt r.siteOffset.toNat =
        s.wordAt r.siteOffset.toNat |||
          ((a - r.siteOffset + 0x800#32).extractLsb' 12 20 ++ 0#12))

/-- R325: the low part is taken of the displacement of the Hi-relocation recorded at the auto symbol's
address; with none there the missing pair is reported, with its real target unknown that target, and the
word is left alone (the spec's decision D29). -/
def Obligations.LoPatchFollowsItsHi : Prop :=
  ∀ (s : State) (site hiAddr : Word) (name : SymName), s.MemWf → s.Admits site 4 modeLoader →
    lookupSymbol s.symbols name = some hiAddr →
    (∀ h : Reloc, h ∈ s.relocs → h.kind = .hiPcRel20 → h.siteOffset = hiAddr →
      (∀ q ∈ s.relocs, q.kind = .hiPcRel20 → q.siteOffset = hiAddr → q = h) →
      (∀ a, lookupSymbol s.symbols h.targetSymbolName = some a →
        ∃ t, patch ⟨site, .loPcRel12, name⟩ s = .next t ∧ t = { s with mem := t.mem } ∧
          t.wordAt site.toNat =
            s.wordAt site.toNat ||| ((a - hiAddr).extractLsb' 0 12 ++ 0#20) ∧
          ∀ b req, Outside site 4 b → t.readByte b req = s.readByte b req) ∧
      (lookupSymbol s.symbols h.targetSymbolName = none →
        patch ⟨site, .loPcRel12, name⟩ s = .next { s with
          diagnostics := s.diagnostics ++ [.unknownSymbol h.targetSymbolName site] })) ∧
    ((∀ q ∈ s.relocs, ¬ (q.kind = .hiPcRel20 ∧ q.siteOffset = hiAddr)) →
      patch ⟨site, .loPcRel12, name⟩ s =
        .next { s with diagnostics := s.diagnostics ++ [.missingHiPair site hiAddr] })

/-- R322: an unknown target is reported, its word left alone, and the remaining relocations are still
patched. -/
def Obligations.UnknownTargetIsReported : Prop :=
  ∀ (s : State) (r : Reloc) (rest : List Reloc),
    lookupSymbol s.symbols r.targetSymbolName = none →
    patch r s = .next { s with
      diagnostics := s.diagnostics ++ [.unknownSymbol r.targetSymbolName r.siteOffset] } ∧
    patchAll (r :: rest) s = patchAll rest { s with
      diagnostics := s.diagnostics ++ [.unknownSymbol r.targetSymbolName r.siteOffset] }

/-- R320: `Relocate()` is the patches in recorded order. It changes no byte but the four at each recorded
site, adds diagnostics, and leaves everything else: the tables, the cursor and the engine. A patch that
cannot reach its site refuses the whole (log entry 12), and a second `Relocate()` is refused (D29, U7, log
entry 6). -/
def Obligations.RelocateFrame : Prop :=
  ∀ s : State,
    (s.linked = false →
      (∀ t, patchAll s.relocs s = .next t → relocate s = .next { t with linked := true }) ∧
      (∀ e, patchAll s.relocs s = .refused e → relocate s = .refused e)) ∧
    patchAll [] s = .next s ∧
    (∀ (r : Reloc) (rest : List Reloc),
      (∀ t, patch r s = .next t → patchAll (r :: rest) s = patchAll rest t) ∧
      (∀ e, patch r s = .refused e → patchAll (r :: rest) s = .refused e)) ∧
    (∀ t, relocate s = .next t →
      t = { s with mem := t.mem, diagnostics := t.diagnostics, linked := true } ∧
      t.mem.regions = s.mem.regions ∧ (∃ more, t.diagnostics = s.diagnostics ++ more) ∧
      (∀ b req, (∀ r ∈ s.relocs, Outside r.siteOffset 4 b) →
        t.readByte b req = s.readByte b req) ∧
      relocate t = .refused .alreadyLinked)

/-! ## What the host does before a run -/

/-- R382, R156, R69: a new session is an empty one at its cursor; a register preset writes that register
through the helper; a loader write stores the low bytes whatever the region's mode, and is refused where
they are not in one region. The operations and the session's initial values are the spec's decisions D25,
D12 and D9; that a register can be preset in every state is the model's choice, log entry 21. -/
def Obligations.HostPreparesTheMachine : Prop :=
  ∀ s : State,
    (∀ c : Word, newSession c s = { s with
      cursor := c, symbols := [], relocs := [], autoCount := 0, diagnostics := [], linked := false }) ∧
    (∀ (i : RegIdx) (v : Word), RegWritten s (hostWriteReg i v s) i v) ∧
    (s.MemWf → ∀ (a v : Word) (n : AccessSize),
      (s.Admits a n.bytes modeLoader →
        ∃ t, hostLoaderWrite a n v s = .next t ∧ BytesWritten s t a n.bytes v) ∧
      (¬ s.Admits a n.bytes modeLoader → ∃ why, RefusalReason s a modeLoader why ∧
        hostLoaderWrite a n v s = .refused (.loaderAccess ⟨why, a, modeLoader⟩)))
end

