-- ==== Sys2Proof/Laws/Codec.lean ====
section
/-! SUPPORT. The laws of the bit-field codec: the bits of a packed and of an extracted field, and each
field of each format read back from the word the encoder packs. -/

namespace Sys2Proof

theorem getLsbD_fieldMask (n i : Nat) :
    (fieldMask n).getLsbD i = (decide (i < 32) && decide (i < n)) := by
  simp [fieldMask, BitVec.getLsbD_ofNat, Nat.testBit_two_pow_sub_one]

/-- R90, bit by bit. -/
theorem getLsbD_extractU (w : Word) (f : Field) (i : Nat) :
    (extractU w f).getLsbD i = (decide (i < f.width) && w.getLsbD (f.pos + i)) := by
  have hv := f.valid
  rw [extractU, BitVec.getLsbD_and, BitVec.getLsbD_ushiftRight, getLsbD_fieldMask]
  by_cases h : i < f.width
  · have : i < 32 := by omega
    simp [h, this]
  · simp [h]

/-- R92, bit by bit. -/
theorem getLsbD_pack (acc v : Word) (f : Field) (i : Nat) :
    (pack acc v f).getLsbD i = (acc.getLsbD i ||
      (decide (f.pos ≤ i) && decide (i < f.pos + f.width) && v.getLsbD (i - f.pos))) := by
  have hv := f.valid
  rw [pack, BitVec.getLsbD_or, BitVec.getLsbD_shiftLeft, BitVec.getLsbD_and, getLsbD_fieldMask]
  by_cases h1 : f.pos ≤ i
  · by_cases h2 : i < f.pos + f.width
    · have e1 : i < 32 := by omega
      have e2 : i - f.pos < 32 := by omega
      have e3 : i - f.pos < f.width := by omega
      have e4 : ¬ i < f.pos := by omega
      simp [h1, h2, e1, e2, e3, e4]
    · have e3 : ¬ i - f.pos < f.width := by omega
      simp [h2, e3]
  · have e4 : i < f.pos := by omega
    simp [h1, e4]

/-- Two words with the same 32 bits are one word. -/
theorem word_ext {a b : Word} (h : ∀ i < 32, a.getLsbD i = b.getLsbD i) : a = b :=
  BitVec.eq_of_getLsbD_eq h

theorem toNat_and_fieldMask (n : Nat) (h : n ≤ 32) (v : Word) :
    (v &&& fieldMask n).toNat = v.toNat % 2 ^ n := by
  have hlt : 2 ^ n - 1 < 2 ^ 32 := by
    have := Nat.pow_le_pow_right (show 0 < 2 by decide) h
    omega
  rw [fieldMask, BitVec.toNat_and, BitVec.toNat_ofNat, Nat.mod_eq_of_lt hlt,
    Nat.and_two_pow_sub_one_eq_mod]

/-- R91: `sext_N` is the sign extension of the low `N` bits. -/
theorem sextN_eq (n : Nat) (h1 : 1 ≤ n) (h : n ≤ 32) (v : Word) :
    sextN n v = (v.setWidth n).signExtend 32 := by
  have hu := toNat_and_fieldMask n h v
  have hbit : (v &&& fieldMask n).getLsbD (n - 1) = (v.setWidth n).msb := by
    have e1 : n - 1 < 32 := by omega
    have e2 : n - 1 < n := by omega
    rw [BitVec.getLsbD_and, getLsbD_fieldMask, BitVec.msb_eq_getLsbD_last, BitVec.getLsbD_setWidth]
    simp [e1, e2]
  have hw : (v.setWidth n).toNat = v.toNat % 2 ^ n := BitVec.toNat_setWidth ..
  rw [BitVec.signExtend, BitVec.toInt_eq_msb_cond, ← hbit, hw]
  unfold sextN
  split
  · refine BitVec.eq_of_toInt_eq ?_
    rw [BitVec.toInt_sub, BitVec.toInt_ofInt, BitVec.toInt_eq_toNat_bmod, hu,
      BitVec.toInt_eq_toNat_bmod, BitVec.toNat_ofNat]
    rcases Nat.lt_or_eq_of_le h with h32 | rfl
    · have hlt : 2 ^ n < 2 ^ 32 := Nat.pow_lt_pow_right (by decide) h32
      rw [Nat.mod_eq_of_lt hlt]
      simp
    · simp only [Int.bmod]; push_cast; omega
  · refine BitVec.eq_of_toNat_eq ?_
    rw [hu, BitVec.toNat_ofInt]
    have : v.toNat % 2 ^ n < 2 ^ 32 := Nat.lt_of_le_of_lt (Nat.mod_le _ _) v.isLt
    omega

/-- R91, bit by bit. -/
theorem getLsbD_sextN (n : Nat) (h1 : 1 ≤ n) (h : n ≤ 32) (v : Word) (i : Nat) :
    (sextN n v).getLsbD i =
      (decide (i < 32) && if i < n then v.getLsbD i else v.getLsbD (n - 1)) := by
  have e1 : n - 1 < n := by omega
  rw [sextN_eq n h1 h, BitVec.getLsbD_signExtend, BitVec.msb_eq_getLsbD_last,
    BitVec.getLsbD_setWidth, BitVec.getLsbD_setWidth]
  by_cases hi : i < n <;> simp [hi, e1]

/-! ## The fixed bits of each format: an operand changes none of them -/

theorem encR_fixed (op f3 f7 rd rs1 rs2 : Word) :
    encR op f3 f7 rd rs1 rs2 &&& 0xFE00707F = encR op f3 f7 0 0 0 := by
  refine word_ext fun i hi => ?_
  simp only [encR, BitVec.getLsbD_and, getLsbD_pack, fOpcode, fRd, fFunct3, fRs1, fRs2, fFunct7]
  interval_cases i <;> simp

theorem encI_fixed (op f3 rd rs1 imm : Word) :
    encI op f3 rd rs1 imm &&& 0x707F = encI op f3 0 0 0 := by
  refine word_ext fun i hi => ?_
  simp only [encI, BitVec.getLsbD_and, getLsbD_pack, fOpcode, fRd, fFunct3, fRs1, fImmI]
  interval_cases i <;> simp

theorem encS_fixed (op f3 rs1 rs2 imm : Word) :
    encS op f3 rs1 rs2 imm &&& 0x707F = encS op f3 0 0 0 := by
  refine word_ext fun i hi => ?_
  simp only [encS, BitVec.getLsbD_and, getLsbD_pack, fOpcode, fFunct3, fRs1, fRs2, fImmSLo, fImmSHi]
  interval_cases i <;> simp

theorem encB_fixed (op f3 rs1 rs2 d : Word) :
    encB op f3 rs1 rs2 d &&& 0x707F = encB op f3 0 0 0 := by
  refine word_ext fun i hi => ?_
  simp only [encB, BitVec.getLsbD_and, getLsbD_pack, fOpcode, fFunct3, fRs1, fRs2, fImmB12, fImmB11, fImmBHi, fImmBLo]
  interval_cases i <;> simp

theorem encU_fixed (op rd imm20 : Word) :
    encU op rd imm20 &&& 0x7F = encU op 0 0 := by
  refine word_ext fun i hi => ?_
  simp only [encU, BitVec.getLsbD_and, getLsbD_pack, fOpcode, fRd, fImmU]
  interval_cases i <;> simp

theorem encJ_fixed (op rd d : Word) :
    encJ op rd d &&& 0x7F = encJ op 0 0 := by
  refine word_ext fun i hi => ?_
  simp only [encJ, BitVec.getLsbD_and, getLsbD_pack, fOpcode, fRd, fImmJ20, fImmJHi, fImmJ11, fImmJLo]
  interval_cases i <;> simp

/-! ## Operand fields read back -/

@[simp] theorem rdOf_encR (op f3 f7 : Word) (rd : RegIdx) (rs1 rs2 : Word) :
    rdOf (encR op f3 f7 (rd.setWidth 32) rs1 rs2) = rd := by
  refine BitVec.eq_of_getLsbD_eq fun i hi => ?_
  simp only [rdOf, encR, BitVec.getLsbD_setWidth, getLsbD_extractU, getLsbD_pack, fOpcode, fRd, fFunct3, fRs1, fRs2, fFunct7]
  interval_cases i <;> simp

@[simp] theorem rs1Of_encR (op f3 f7 : Word) (rs1 : RegIdx) (rd rs2 : Word) :
    rs1Of (encR op f3 f7 rd (rs1.setWidth 32) rs2) = rs1 := by
  refine BitVec.eq_of_getLsbD_eq fun i hi => ?_
  simp only [rs1Of, encR, BitVec.getLsbD_setWidth, getLsbD_extractU, getLsbD_pack, fOpcode, fRd, fFunct3, fRs1, fRs2, fFunct7]
  interval_cases i <;> simp

@[simp] theorem rs2Of_encR (op f3 f7 : Word) (rs2 : RegIdx) (rd rs1 : Word) :
    rs2Of (encR op f3 f7 rd rs1 (rs2.setWidth 32)) = rs2 := by
  refine BitVec.eq_of_getLsbD_eq fun i hi => ?_
  simp only [rs2Of, encR, BitVec.getLsbD_setWidth, getLsbD_extractU, getLsbD_pack, fOpcode, fRd, fFunct3, fRs1, fRs2, fFunct7]
  interval_cases i <;> simp

@[simp] theorem rdOf_encI (op f3 : Word) (rd : RegIdx) (rs1 imm : Word) :
    rdOf (encI op f3 (rd.setWidth 32) rs1 imm) = rd := by
  refine BitVec.eq_of_getLsbD_eq fun i hi => ?_
  simp only [rdOf, encI, BitVec.getLsbD_setWidth, getLsbD_extractU, getLsbD_pack, fOpcode, fRd, fFunct3, fRs1, fImmI]
  interval_cases i <;> simp

@[simp] theorem rs1Of_encI (op f3 : Word) (rs1 : RegIdx) (rd imm : Word) :
    rs1Of (encI op f3 rd (rs1.setWidth 32) imm) = rs1 := by
  refine BitVec.eq_of_getLsbD_eq fun i hi => ?_
  simp only [rs1Of, encI, BitVec.getLsbD_setWidth, getLsbD_extractU, getLsbD_pack, fOpcode, fRd, fFunct3, fRs1, fImmI]
  interval_cases i <;> simp

@[simp] theorem rs1Of_encS (op f3 : Word) (rs1 : RegIdx) (rs2 imm : Word) :
    rs1Of (encS op f3 (rs1.setWidth 32) rs2 imm) = rs1 := by
  refine BitVec.eq_of_getLsbD_eq fun i hi => ?_
  simp only [rs1Of, encS, BitVec.getLsbD_setWidth, getLsbD_extractU, getLsbD_pack, fOpcode, fFunct3, fRs1, fRs2, fImmSLo, fImmSHi]
  interval_cases i <;> simp

@[simp] theorem rs2Of_encS (op f3 : Word) (rs2 : RegIdx) (rs1 imm : Word) :
    rs2Of (encS op f3 rs1 (rs2.setWidth 32) imm) = rs2 := by
  refine BitVec.eq_of_getLsbD_eq fun i hi => ?_
  simp only [rs2Of, encS, BitVec.getLsbD_setWidth, getLsbD_extractU, getLsbD_pack, fOpcode, fFunct3, fRs1, fRs2, fImmSLo, fImmSHi]
  interval_cases i <;> simp

@[simp] theorem rs1Of_encB (op f3 : Word) (rs1 : RegIdx) (rs2 d : Word) :
    rs1Of (encB op f3 (rs1.setWidth 32) rs2 d) = rs1 := by
  refine BitVec.eq_of_getLsbD_eq fun i hi => ?_
  simp only [rs1Of, encB, BitVec.getLsbD_setWidth, getLsbD_extractU, getLsbD_pack, fOpcode, fFunct3, fRs1, fRs2, fImmB12, fImmB11, fImmBHi, fImmBLo]
  interval_cases i <;> simp

@[simp] theorem rs2Of_encB (op f3 : Word) (rs2 : RegIdx) (rs1 d : Word) :
    rs2Of (encB op f3 rs1 (rs2.setWidth 32) d) = rs2 := by
  refine BitVec.eq_of_getLsbD_eq fun i hi => ?_
  simp only [rs2Of, encB, BitVec.getLsbD_setWidth, getLsbD_extractU, getLsbD_pack, fOpcode, fFunct3, fRs1, fRs2, fImmB12, fImmB11, fImmBHi, fImmBLo]
  interval_cases i <;> simp

@[simp] theorem rdOf_encU (op : Word) (rd : RegIdx) (imm20 : Word) :
    rdOf (encU op (rd.setWidth 32) imm20) = rd := by
  refine BitVec.eq_of_getLsbD_eq fun i hi => ?_
  simp only [rdOf, encU, BitVec.getLsbD_setWidth, getLsbD_extractU, getLsbD_pack, fOpcode, fRd, fImmU]
  interval_cases i <;> simp

@[simp] theorem rdOf_encJ (op : Word) (rd : RegIdx) (d : Word) :
    rdOf (encJ op (rd.setWidth 32) d) = rd := by
  refine BitVec.eq_of_getLsbD_eq fun i hi => ?_
  simp only [rdOf, encJ, BitVec.getLsbD_setWidth, getLsbD_extractU, getLsbD_pack, fOpcode, fRd, fImmJ20, fImmJHi, fImmJ11, fImmJLo]
  interval_cases i <;> simp

@[simp] theorem shamtOf_encR (op f3 f7 rd rs1 : Word) (sh : BitVec 5) :
    (shamtOf (encR op f3 f7 rd rs1 (sh.setWidth 32))).setWidth 5 = sh := by
  refine BitVec.eq_of_getLsbD_eq fun i hi => ?_
  simp only [shamtOf, encR, BitVec.getLsbD_setWidth, getLsbD_extractU, getLsbD_pack, fOpcode, fRd, fFunct3, fRs1, fRs2, fFunct7]
  interval_cases i <;> simp

@[simp] theorem imm20Of_encU (op rd : Word) (imm20 : BitVec 20) :
    imm20Of (encU op rd (imm20.setWidth 32)) = imm20 := by
  refine BitVec.eq_of_getLsbD_eq fun i hi => ?_
  simp only [imm20Of, encU, BitVec.getLsbD_setWidth, getLsbD_extractU, getLsbD_pack, fOpcode, fRd, fImmU]
  interval_cases i <;> simp

@[simp] theorem immI_encI (op f3 rd rs1 : Word) (imm : BitVec 12) :
    (immI (encI op f3 rd rs1 (imm.signExtend 32))).setWidth 12 = imm := by
  refine BitVec.eq_of_getLsbD_eq fun i hi => ?_
  rw [immI, extractS, BitVec.getLsbD_setWidth, getLsbD_sextN _ (by decide) (by decide)]
  simp only [encI, BitVec.getLsbD_signExtend,
    getLsbD_extractU, getLsbD_pack, fOpcode, fRd, fFunct3, fRs1, fImmI]
  interval_cases i <;> simp

@[simp] theorem immS_encS (op f3 rs1 rs2 : Word) (imm : BitVec 12) :
    (immS (encS op f3 rs1 rs2 (imm.signExtend 32))).setWidth 12 = imm := by
  refine BitVec.eq_of_getLsbD_eq fun i hi => ?_
  rw [immS, extractMultiS, BitVec.getLsbD_setWidth, getLsbD_sextN _ (by decide) (by decide)]
  simp only [encS, compS, concatFields, List.map, List.sum_cons, List.sum_nil,
    BitVec.getLsbD_or, BitVec.getLsbD_shiftLeft, BitVec.getLsbD_sshiftRight, BitVec.getLsbD_signExtend,
    getLsbD_extractU, getLsbD_pack, fOpcode, fFunct3, fRs1, fRs2, fImmSLo, fImmSHi]
  interval_cases i <;> simp

/-- The displacement of format B, bit 0 of which is not stored. -/
theorem immB_encB (op f3 rs1 rs2 : Word) (d : BitVec 13) (h : d.getLsbD 0 = false) :
    (immB (encB op f3 rs1 rs2 (d.signExtend 32))).setWidth 13 = d := by
  refine BitVec.eq_of_getLsbD_eq fun i hi => ?_
  rw [immB, extractMultiS, BitVec.getLsbD_setWidth, BitVec.getLsbD_shiftLeft,
    getLsbD_sextN _ (by decide) (by decide)]
  simp only [encB, compB, concatFields, List.map, List.sum_cons, List.sum_nil,
    BitVec.getLsbD_or, BitVec.getLsbD_shiftLeft, BitVec.getLsbD_sshiftRight, BitVec.getLsbD_signExtend,
    getLsbD_extractU, getLsbD_pack, fOpcode, fFunct3, fRs1, fRs2, fImmB12, fImmB11, fImmBHi, fImmBLo]
  simp only [BitVec.getLsbD_eq_getElem (show 0 < 13 by decide)] at h
  interval_cases i <;> simp [h]

/-- The displacement of format J, bit 0 of which is not stored. -/
theorem immJ_encJ (op rd : Word) (d : BitVec 21) (h : d.getLsbD 0 = false) :
    (immJ (encJ op rd (d.signExtend 32))).setWidth 21 = d := by
  refine BitVec.eq_of_getLsbD_eq fun i hi => ?_
  rw [immJ, extractMultiS, BitVec.getLsbD_setWidth, BitVec.getLsbD_shiftLeft,
    getLsbD_sextN _ (by decide) (by decide)]
  simp only [encJ, compJ, concatFields, List.map, List.sum_cons, List.sum_nil,
    BitVec.getLsbD_or, BitVec.getLsbD_shiftLeft, BitVec.getLsbD_sshiftRight, BitVec.getLsbD_signExtend,
    getLsbD_extractU, getLsbD_pack, fOpcode, fRd, fImmJ20, fImmJHi, fImmJ11, fImmJLo]
  simp only [BitVec.getLsbD_eq_getElem (show 0 < 21 by decide)] at h
  interval_cases i <;> simp [h]

/-! ## The opcode map -/

/-- No two rows match the same word, seen on their masks and patterns (R112). -/
theorem rows_apart : ∀ m ∈ decodable, ∀ n ∈ decodable, m ≠ n →
    (row m).pattern &&& (row n).mask ≠ (row n).pattern &&& (row m).mask := by decide

theorem matchesWord_iff (r : Row) (w : Word) : r.matchesWord w = true ↔ w &&& r.mask = r.pattern := by
  simp [Row.matchesWord]

/-- Two rows that match one word are one. -/
theorem row_unique {w : Word} {m n : Mnemonic} (hm : m ∈ decodable) (hn : n ∈ decodable)
    (h1 : (row m).matchesWord w = true) (h2 : (row n).matchesWord w = true) : m = n := by
  by_contra hne
  rw [matchesWord_iff] at h1 h2
  refine rows_apart m hm n hn hne ?_
  rw [← h1, ← h2]
  ac_rfl

theorem find_row {w : Word} {m : Mnemonic} (hm : m ∈ decodable) (h : (row m).matchesWord w = true) :
    decodable.find? (fun n => (row n).matchesWord w) = some m := by
  cases hf : decodable.find? (fun n => (row n).matchesWord w) with
  | none => exact absurd h (List.find?_eq_none.1 hf m hm)
  | some n =>
    have hn := List.find?_some hf
    rw [row_unique hm (List.mem_of_find?_eq_some hf) h hn]

/-- R113: a word that matches a row is that row's instruction. -/
theorem decodeWord_of_match {w : Word} {m : Mnemonic} (hm : m ∈ decodable)
    (h : (row m).matchesWord w = true) : decodeWord w = .ok (build w m) := by
  have h0 : w ≠ 0#32 := by
    rintro rfl
    rw [matchesWord_iff] at h
    have : ∀ m ∈ decodable, (0#32 : Word) &&& (row m).mask ≠ (row m).pattern := by decide
    exact this m hm h
  simp [decodeWord, h0, find_row hm h]

/-- What a decoded word is: the halt word, or a row that matches. -/
theorem decodeWord_ok {w : Word} {i : Instr} (h : decodeWord w = .ok i) :
    (w = 0#32 ∧ i = .invalid) ∨
      ∃ m ∈ decodable, (row m).matchesWord w = true ∧ i = build w m := by
  unfold decodeWord at h
  split at h
  · exact .inl ⟨‹_›, by simpa using h.symm⟩
  · split at h
    · rename_i m hf
      have hm := List.find?_some hf
      exact .inr ⟨m, List.mem_of_find?_eq_some hf, hm, by simpa using h.symm⟩
    · simp at h

end Sys2Proof
end

