-- ==== Sys2Proof/Laws/Memory.lean ====
section
/-! SUPPORT. The laws of the address space: what a byte reads after a write, that every operation
keeps the canonical form, what a lookup and a check find, and what allocation inserts. -/

namespace Sys2Proof.Machine

open Sys2Proof

/-! ## Cells -/

theorem cellGet_cellCons (fill : Byte) (a : Nat) (b : Byte) (cs : List Host.Cell) (a' : Nat)
    (h : cellGet fill cs a = unlistedByte fill) :
    cellGet fill (cellCons fill a b cs) a' = if a' = a then b else cellGet fill cs a' := by
  unfold cellCons
  by_cases hb : b = unlistedByte fill
  · by_cases ha : a' = a
    · subst ha; simp [hb, h]
    · simp [hb, ha]
  · by_cases ha : a' = a
    · subst ha; simp [hb, cellGet]
    · simp [hb, cellGet, ha, Ne.symm ha]

/-- Below a sorted list's first address nothing is listed. -/
theorem cellGet_below {fill : Byte} {lo : Nat} {cs : List Host.Cell}
    (h : cellsSortedFrom fill lo cs = true) {a : Nat} (ha : a < lo) :
    cellGet fill cs a = unlistedByte fill := by
  induction cs generalizing lo with
  | nil => rfl
  | cons c cs ih =>
    obtain ⟨k, v⟩ := c
    simp only [cellsSortedFrom, Bool.and_eq_true, decide_eq_true_eq] at h
    have hne : k ≠ a := by omega
    simp only [cellGet, hne, if_false]
    exact ih h.2 (by omega)

/-- Read after write, one byte. -/
theorem cellGet_cellSet {fill : Byte} {lo : Nat} {cs : List Host.Cell}
    (h : cellsSortedFrom fill lo cs = true) (a : Nat) (b : Byte) (a' : Nat) :
    cellGet fill (cellSet fill cs a b) a' = if a' = a then b else cellGet fill cs a' := by
  induction cs generalizing lo with
  | nil => simpa [cellSet] using cellGet_cellCons fill a b [] a' rfl
  | cons c cs ih =>
    obtain ⟨k, v⟩ := c
    have hs := h
    simp only [cellsSortedFrom, Bool.and_eq_true, decide_eq_true_eq] at h
    simp only [cellSet]
    split
    · rename_i hlt
      refine cellGet_cellCons fill a b _ a' ?_
      have hne : k ≠ a := by omega
      simp only [cellGet, hne, if_false]
      exact cellGet_below h.2 (by omega)
    · split
      · rename_i _ hak
        subst hak
        rw [cellGet_cellCons fill a b cs a' (cellGet_below h.2 (by omega))]
        by_cases ha : a' = a
        · simp [ha]
        · simp [ha, cellGet, Ne.symm ha]
      · by_cases hk : k = a'
        · subst hk
          have : k ≠ a := by omega
          simp [cellGet, this]
        · simp only [cellGet, hk, if_false]
          exact ih h.2

/-- A byte other than the one written reads as before, in any list. -/
theorem cellGet_cellSet_other (fill : Byte) (cs : List Host.Cell) (a : Nat) (b : Byte) {a' : Nat}
    (h : a' ≠ a) : cellGet fill (cellSet fill cs a b) a' = cellGet fill cs a' := by
  induction cs with
  | nil =>
    simp only [cellSet, cellCons]
    split
    · rfl
    · simp [cellGet, Ne.symm h]
  | cons c cs ih =>
    obtain ⟨k, v⟩ := c
    simp only [cellSet, cellCons]
    split
    · split
      · rfl
      · simp [cellGet, Ne.symm h]
    · split
      · rename_i _ hak
        subst hak
        split
        · simp [cellGet, Ne.symm h]
        · simp [cellGet, Ne.symm h]
      · simp [cellGet, ih]

theorem cellsSortedFrom_mono {fill : Byte} {lo lo' : Nat} {cs : List Host.Cell}
    (h : cellsSortedFrom fill lo cs = true) (hl : lo' ≤ lo) : cellsSortedFrom fill lo' cs = true := by
  cases cs with
  | nil => rfl
  | cons c cs =>
    obtain ⟨k, v⟩ := c
    simp only [cellsSortedFrom, Bool.and_eq_true, decide_eq_true_eq] at h ⊢
    exact ⟨⟨by omega, h.1.2⟩, h.2⟩

theorem cellsSortedFrom_cellCons {fill : Byte} {lo a : Nat} {b : Byte} {cs : List Host.Cell}
    (hl : lo ≤ a) (h : cellsSortedFrom fill (a + 1) cs = true) :
    cellsSortedFrom fill lo (cellCons fill a b cs) = true := by
  unfold cellCons
  split
  · exact cellsSortedFrom_mono h (by omega)
  · rename_i hb
    simp [cellsSortedFrom, hl, hb, h]

/-- A write keeps the canonical form. -/
theorem cellsSortedFrom_cellSet {fill : Byte} {lo a : Nat} {b : Byte} {cs : List Host.Cell}
    (h : cellsSortedFrom fill lo cs = true) (hl : lo ≤ a) :
    cellsSortedFrom fill lo (cellSet fill cs a b) = true := by
  induction cs generalizing lo with
  | nil => exact cellsSortedFrom_cellCons hl rfl
  | cons c cs ih =>
    obtain ⟨k, v⟩ := c
    have hs := h
    simp only [cellsSortedFrom, Bool.and_eq_true, decide_eq_true_eq] at h
    simp only [cellSet]
    split
    · refine cellsSortedFrom_cellCons hl ?_
      simp only [cellsSortedFrom, Bool.and_eq_true, decide_eq_true_eq]
      exact ⟨⟨by omega, h.1.2⟩, h.2⟩
    · split
      · rename_i _ hak
        exact cellsSortedFrom_cellCons hl (hak ▸ h.2)
      · simp only [cellsSortedFrom, Bool.and_eq_true, decide_eq_true_eq]
        exact ⟨h.1, ih h.2 (by omega)⟩

theorem all_cellSet {fill : Byte} {p : Host.Cell → Bool} {cs : List Host.Cell} {a : Nat} {b : Byte}
    (h : cs.all p = true) (ha : p (a, b) = true) : (cellSet fill cs a b).all p = true := by
  induction cs with
  | nil => simp only [cellSet, cellCons]; split <;> simp [ha]
  | cons c cs ih =>
    obtain ⟨k, v⟩ := c
    simp only [List.all_cons, Bool.and_eq_true] at h
    simp only [cellSet, cellCons]
    split
    · split <;> simp [ha, h.1, h.2]
    · split
      · split <;> simp [ha, h.2]
      · simp [h.1, ih h.2]

/-! ## Several bytes -/

@[simp] theorem length_leBytes (n : Nat) (v : Word) : (leBytes n v).length = n := by
  induction n generalizing v with
  | zero => rfl
  | succ n ih => simp [leBytes, ih]

@[simp] theorem length_cellGetN (fill : Byte) (cs : List Host.Cell) (n a : Nat) :
    (cellGetN fill cs n a).length = n := by
  induction n generalizing a with
  | zero => rfl
  | succ n ih => simp [cellGetN, ih]

theorem cellsSortedFrom_cellSetN {fill : Byte} {cs : List Host.Cell} {a : Nat} {bs : List Byte}
    (h : cellsSortedFrom fill 0 cs = true) : cellsSortedFrom fill 0 (cellSetN fill cs a bs) = true := by
  induction bs generalizing cs a with
  | nil => exact h
  | cons b bs ih => exact ih (cellsSortedFrom_cellSet h (Nat.zero_le a))

/-- A byte outside the stored span reads as before. -/
theorem cellGet_cellSetN_outside (fill : Byte) (cs : List Host.Cell) (a : Nat) (bs : List Byte)
    {a' : Nat} (h : a' < a ∨ a + bs.length ≤ a') :
    cellGet fill (cellSetN fill cs a bs) a' = cellGet fill cs a' := by
  induction bs generalizing cs a with
  | nil => rfl
  | cons b bs ih =>
    simp only [List.length_cons] at h
    rw [cellSetN, ih _ _ (by omega), cellGet_cellSet_other _ _ _ _ (by omega)]

/-- A byte inside the stored span reads as the byte stored there. -/
theorem cellGet_cellSetN_inside {fill : Byte} {cs : List Host.Cell} {a : Nat} {bs : List Byte}
    (h : cellsSortedFrom fill 0 cs = true) {k : Nat} (hk : k < bs.length) :
    cellGet fill (cellSetN fill cs a bs) (a + k) = bs[k] := by
  induction bs generalizing cs a k with
  | nil => simp at hk
  | cons b bs ih =>
    rw [cellSetN]
    have hs := cellsSortedFrom_cellSet (b := b) h (Nat.zero_le a)
    cases k with
    | zero =>
      rw [cellGet_cellSetN_outside _ _ _ _ (by omega), cellGet_cellSet h]
      simp
    | succ k =>
      have := ih hs (a := a + 1) (k := k) (by simpa using hk)
      rw [show a + (k + 1) = a + 1 + k by omega, this]
      rfl

theorem cellGetN_congr {fill : Byte} {cs cs' : List Host.Cell} {n a : Nat}
    (h : ∀ k < n, cellGet fill cs' (a + k) = cellGet fill cs (a + k)) :
    cellGetN fill cs' n a = cellGetN fill cs n a := by
  induction n generalizing a with
  | zero => rfl
  | succ n ih =>
    have h0 := h 0 (by omega)
    simp only [Nat.add_zero] at h0
    simp only [cellGetN, h0]
    congr 1
    exact ih fun k hk => by have := h (k + 1) (by omega); rwa [show a + 1 + k = a + (k + 1) by omega]

theorem getElem_cellGetN (fill : Byte) (cs : List Host.Cell) (n a k : Nat)
    (h : k < (cellGetN fill cs n a).length) :
    (cellGetN fill cs n a)[k] = cellGet fill cs (a + k) := by
  induction n generalizing a k with
  | zero => simp [cellGetN] at h
  | succ n ih =>
    cases k with
    | zero => simp [cellGetN]
    | succ k =>
      simp only [cellGetN, List.getElem_cons_succ]
      rw [ih, show a + 1 + k = a + (k + 1) by omega]

/-- Reading the stored span gives the bytes stored. -/
theorem cellGetN_cellSetN {fill : Byte} {cs : List Host.Cell} {a : Nat} {bs : List Byte}
    (h : cellsSortedFrom fill 0 cs = true) :
    cellGetN fill (cellSetN fill cs a bs) bs.length a = bs := by
  refine List.ext_getElem (by simp) fun k h1 h2 => ?_
  rw [getElem_cellGetN, cellGet_cellSetN_inside h h2]

theorem leWord_leBytes_four (v : Word) : leWord (leBytes 4 v) = v := by
  simp only [leBytes, leWord]
  refine BitVec.eq_of_getLsbD_eq fun i hi => ?_
  simp only [BitVec.getLsbD_or, BitVec.getLsbD_shiftLeft, BitVec.getLsbD_setWidth,
    BitVec.getLsbD_ushiftRight]
  interval_cases i <;> simp

theorem leWord_leBytes_two (v : Word) : leWord (leBytes 2 v) = (v.setWidth 16).setWidth 32 := by
  simp only [leBytes, leWord]
  refine BitVec.eq_of_getLsbD_eq fun i hi => ?_
  simp only [BitVec.getLsbD_or, BitVec.getLsbD_shiftLeft, BitVec.getLsbD_setWidth,
    BitVec.getLsbD_ushiftRight]
  interval_cases i <;> simp

theorem leWord_leBytes_one (v : Word) : leWord (leBytes 1 v) = (v.setWidth 8).setWidth 32 := by
  simp [leBytes, leWord]

theorem all_cellSetN {fill : Byte} {p : Host.Cell → Bool} {cs : List Host.Cell} {a : Nat}
    {bs : List Byte} (h : cs.all p = true)
    (ha : ∀ k < bs.length, ∀ b, p (a + k, b) = true) : (cellSetN fill cs a bs).all p = true := by
  induction bs generalizing cs a with
  | nil => exact h
  | cons b bs ih =>
    refine ih (all_cellSet h (by simpa using ha 0 (by simp) b)) fun k hk b' => ?_
    have := ha (k + 1) (by simpa using hk) b'
    rwa [show a + 1 + k = a + (k + 1) by omega]

/-! ## Lookup and check -/

theorem highest_mem {rs : List Region} {r : Region} (h : highest rs = some r) : r ∈ rs := by
  induction rs generalizing r with
  | nil => simp [highest] at h
  | cons q qs ih =>
    unfold highest at h
    split at h
    · simp_all
    · rename_i p hp
      split at h
      · exact List.mem_cons_of_mem _ (ih (by simp_all))
      · simp_all

theorem highest_eq_none {rs : List Region} : highest rs = none ↔ rs = [] := by
  cases rs with
  | nil => simp [highest]
  | cons q qs =>
    simp only [highest, reduceCtorEq, iff_false]
    split
    · simp
    · split <;> simp

theorem highest_max {rs : List Region} {r : Region} (h : highest rs = some r) :
    ∀ q ∈ rs, q.base.toNat ≤ r.base.toNat := by
  induction rs generalizing r with
  | nil => simp
  | cons p ps ih =>
    unfold highest at h
    intro q hq
    split at h
    · rename_i hn
      rw [highest_eq_none] at hn
      simp_all
    · rename_i p' hp'
      have := ih hp'
      split at h
      · obtain rfl : p' = r := by simpa using h
        rcases List.mem_cons.1 hq with rfl | hq
        · assumption
        · exact this q hq
      · obtain rfl : p = r := by simpa using h
        rcases List.mem_cons.1 hq with rfl | hq
        · exact Nat.le_refl _
        · have := this q hq; omega

/-- A region that a lookup finds holds the address. -/
theorem lookup_some {m : Memory} {a : Word} {r : Region} (h : m.lookup a = some r) :
    r ∈ m.regions ∧ r.base.toNat ≤ a.toNat ∧ a.toNat < r.base.toNat + r.length := by
  unfold Memory.lookup at h
  split at h
  · simp at h
  · rename_i q hq
    have hm := highest_mem hq
    simp only [List.mem_filter, decide_eq_true_eq] at hm
    split at h
    · obtain rfl : q = r := by simpa using h
      exact ⟨hm.1, hm.2, by omega⟩
    · simp at h

theorem regionsSorted_cons {r : Region} {rs : List Region} (h : regionsSorted (r :: rs) = true) :
    regionsSorted rs = true ∧ ∀ q ∈ rs, r.base.toNat + r.length ≤ q.base.toNat := by
  induction rs generalizing r with
  | nil => simp [regionsSorted]
  | cons p ps ih =>
    simp only [regionsSorted, Bool.and_eq_true, decide_eq_true_eq] at h
    refine ⟨h.2, fun q hq => ?_⟩
    rcases List.mem_cons.1 hq with rfl | hq
    · exact h.1
    · have := (ih h.2).2 q hq; omega

theorem regionsSorted_of {r : Region} {rs : List Region} (h : regionsSorted rs = true)
    (hr : ∀ q ∈ rs, r.base.toNat + r.length ≤ q.base.toNat) : regionsSorted (r :: rs) = true := by
  cases rs with
  | nil => rfl
  | cons q qs => simp [regionsSorted, h, hr q (by simp)]

/-- Of two different members of a sorted list one ends where the other begins, or before. -/
theorem regions_apart {rs : List Region} (h : regionsSorted rs = true) {r q : Region} (hr : r ∈ rs)
    (hq : q ∈ rs) : r = q ∨ r.base.toNat + r.length ≤ q.base.toNat ∨
      q.base.toNat + q.length ≤ r.base.toNat := by
  induction rs with
  | nil => simp at hr
  | cons p ps ih =>
    have hc := regionsSorted_cons h
    rcases List.mem_cons.1 hr with hr | hr <;> rcases List.mem_cons.1 hq with hq | hq
    · exact .inl (hr.trans hq.symm)
    · exact .inr (.inl (hr ▸ hc.2 q hq))
    · exact .inr (.inr (hq ▸ hc.2 r hr))
    · exact ih hc.1 hr hq

/-- R51: two regions of a sorted list with an address in common are one. -/
theorem region_unique {rs : List Region} (h : regionsSorted rs = true) {r q : Region} (hr : r ∈ rs)
    (hq : q ∈ rs) {a : Nat} (hra : r.base.toNat ≤ a ∧ a < r.base.toNat + r.length)
    (hqa : q.base.toNat ≤ a ∧ a < q.base.toNat + q.length) : r = q := by
  rcases regions_apart h hr hq with h | h | h
  · exact h
  · omega
  · omega

/-- R53: the region that holds the address is the one a lookup finds. -/
theorem lookup_eq_some {m : Memory} (hs : regionsSorted m.regions = true)
    (hp : ∀ q ∈ m.regions, 0 < q.length) {a : Word} {r : Region}
    (hr : r ∈ m.regions) (ha : r.base.toNat ≤ a.toNat ∧ a.toNat < r.base.toNat + r.length) :
    m.lookup a = some r := by
  unfold Memory.lookup
  have hmem : r ∈ m.regions.filter fun r => decide (r.base.toNat ≤ a.toNat) := by
    simp [List.mem_filter, hr, ha.1]
  split
  · rename_i hn
    rw [highest_eq_none] at hn
    simp [hn] at hmem
  · rename_i q hq
    have hqm := highest_mem hq
    simp only [List.mem_filter, decide_eq_true_eq] at hqm
    have hle := highest_max hq r hmem
    have hpq := hp q hqm.1
    obtain rfl : r = q := by
      rcases regions_apart hs hr hqm.1 with h | h | h
      · exact h
      · omega
      · omega
    have : a.toNat - r.base.toNat < r.length := by omega
    simp [this]

theorem lookup_eq_none {m : Memory} {a : Word}
    (h : ∀ r ∈ m.regions, ¬ (r.base.toNat ≤ a.toNat ∧ a.toNat < r.base.toNat + r.length)) :
    m.lookup a = none := by
  cases hl : m.lookup a with
  | none => rfl
  | some r =>
    have := lookup_some hl
    exact absurd this.2 (h r this.1)

/-- R57: what an admitted access has. -/
theorem check_ok {m : Memory} {a : Word} {n : Nat} {req : AccessMode} {r : Region}
    (h : m.check a n req = .ok r) :
    m.lookup a = some r ∧ req &&& ~~~r.mode &&& 7 = 0 ∧
      a.toNat - r.base.toNat + n ≤ r.length := by
  unfold Memory.check at h
  split at h
  · simp at h
  · rename_i q hq
    split at h
    · simp at h
    · split at h
      · simp at h
      · obtain rfl : q = r := by simpa using h
        exact ⟨hq, by simp_all, by omega⟩

theorem check_ok_span {m : Memory} {a : Word} {n : Nat} {req : AccessMode} {r : Region}
    (h : m.check a n req = .ok r) :
    r ∈ m.regions ∧ r.base.toNat ≤ a.toNat ∧ a.toNat + n ≤ r.base.toNat + r.length := by
  have h1 := check_ok h
  have h2 := lookup_some h1.1
  exact ⟨h2.1, h2.2.1, by omega⟩

theorem check_eq_ok {m : Memory} {a : Word} {n : Nat} {req : AccessMode} {r : Region}
    (hl : m.lookup a = some r) (hm : req &&& ~~~r.mode &&& 7 = 0)
    (hn : a.toNat - r.base.toNat + n ≤ r.length) : m.check a n req = .ok r := by
  unfold Memory.check
  have hn' : ¬ (a.toNat - r.base.toNat + n > r.length) := by omega
  simp only [hl, hm, hn', ne_eq, not_true, if_false]

/-- A refused access records the address and the mode asked for. -/
theorem check_error {m : Memory} {a : Word} {n : Nat} {req : AccessMode} {v : Violation}
    (h : m.check a n req = .error v) : v.addr = a ∧ v.req = req := by
  unfold Memory.check at h
  split at h
  · obtain rfl := by simpa using h
    exact ⟨rfl, rfl⟩
  · split at h
    · obtain rfl := by simpa using h
      exact ⟨rfl, rfl⟩
    · split at h
      · obtain rfl := by simpa using h
        exact ⟨rfl, rfl⟩
      · simp at h

/-- A check depends on the regions alone. -/
theorem check_congr {m m' : Memory} (h : m'.regions = m.regions) (a : Word) (n : Nat)
    (req : AccessMode) : m'.check a n req = m.check a n req := by
  simp [Memory.check, Memory.lookup, h]

/-! ## Gated accesses: what a write changes -/

/-- A write that is admitted changes cells only, and only in its span. -/
theorem writeN_ok {fill : Byte} {m m' : Memory} {a : Word} {n : Nat} {req : AccessMode} {v : Word}
    (h : m.writeN fill a n req v = .ok m') :
    (∃ r, m.check a n req = .ok r) ∧
      m' = { m with cells := cellSetN fill m.cells a.toNat (leBytes n v) } := by
  unfold Memory.writeN at h
  split at h
  · simp at h
  · rename_i r hr
    exact ⟨⟨r, hr⟩, by simpa using h.symm⟩

theorem writeByte_ok {fill : Byte} {m m' : Memory} {a : Word} {req : AccessMode} {b : Byte}
    (h : m.writeByte fill a req b = .ok m') :
    (∃ r, m.check a 1 req = .ok r) ∧ m' = { m with cells := cellSet fill m.cells a.toNat b } := by
  unfold Memory.writeByte at h
  split at h
  · simp at h
  · rename_i r hr
    exact ⟨⟨r, hr⟩, by simpa using h.symm⟩

@[simp] theorem writeN_regions {fill : Byte} {m m' : Memory} {a : Word} {n : Nat} {req : AccessMode}
    {v : Word} (h : m.writeN fill a n req v = .ok m') : m'.regions = m.regions := by
  rw [(writeN_ok h).2]

/-- A byte outside the stored span reads as before, in every request mode. -/
theorem readByte_writeN_outside {fill : Byte} {m m' : Memory} {a : Word} {n : Nat} {req : AccessMode}
    {v : Word} (h : m.writeN fill a n req v = .ok m') {b : Word} (req' : AccessMode)
    (hb : b.toNat < a.toNat ∨ a.toNat + n ≤ b.toNat) :
    m'.readByte fill b req' = m.readByte fill b req' := by
  unfold Memory.readByte
  rw [check_congr (writeN_regions h), (writeN_ok h).2]
  simp only
  rw [cellGet_cellSetN_outside _ _ _ _ (by simpa using hb)]

/-! ## The canonical form is kept -/

theorem wf_parts {page : Nat} {fill : Byte} {m : Memory} (h : m.wf page fill = true) :
    (∀ r ∈ m.regions, r.wf page = true) ∧ regionsSorted m.regions = true ∧
      cellsSortedFrom fill 0 m.cells = true ∧ m.cells.all (fun c => covered m.regions c.1) = true := by
  simp only [Memory.wf, Bool.and_eq_true, List.all_eq_true] at h
  exact ⟨h.1.1.1, h.1.1.2, h.1.2, by simpa [List.all_eq_true] using h.2⟩

theorem wf_of_parts {page : Nat} {fill : Byte} {m : Memory} (h1 : ∀ r ∈ m.regions, r.wf page = true)
    (h2 : regionsSorted m.regions = true) (h3 : cellsSortedFrom fill 0 m.cells = true)
    (h4 : m.cells.all (fun c => covered m.regions c.1) = true) : m.wf page fill = true := by
  simp only [Memory.wf, Bool.and_eq_true]
  exact ⟨⟨⟨List.all_eq_true.2 h1, h2⟩, h3⟩, h4⟩

theorem region_wf_pos {page : Nat} {r : Region} (h : r.wf page = true) : 0 < r.length := by
  simp only [Region.wf, Bool.and_eq_true, decide_eq_true_eq] at h
  exact h.1.1.1

theorem covered_of_mem {rs : List Region} {r : Region} (hr : r ∈ rs) {a : Nat}
    (h : r.base.toNat ≤ a ∧ a < r.base.toNat + r.length) : covered rs a = true := by
  simp only [covered, List.any_eq_true, Bool.and_eq_true, decide_eq_true_eq]
  exact ⟨r, hr, h⟩

/-- A gated multi-byte write keeps the canonical form. -/
theorem wf_writeN {page : Nat} {fill : Byte} {m m' : Memory} {a : Word} {n : Nat} {req : AccessMode}
    {v : Word} (hw : m.wf page fill = true) (h : m.writeN fill a n req v = .ok m') :
    m'.wf page fill = true := by
  obtain ⟨⟨r, hr⟩, rfl⟩ := writeN_ok h
  obtain ⟨h1, h2, h3, h4⟩ := wf_parts hw
  have hspan := check_ok_span hr
  refine wf_of_parts h1 h2 (cellsSortedFrom_cellSetN h3) (all_cellSetN h4 fun k hk b => ?_)
  exact covered_of_mem hspan.1 (by rw [length_leBytes] at hk; omega)

/-- A gated byte write keeps the canonical form. -/
theorem wf_writeByte {page : Nat} {fill : Byte} {m m' : Memory} {a : Word} {req : AccessMode}
    {b : Byte} (hw : m.wf page fill = true) (h : m.writeByte fill a req b = .ok m') :
    m'.wf page fill = true := by
  obtain ⟨⟨r, hr⟩, rfl⟩ := writeByte_ok h
  obtain ⟨h1, h2, h3, h4⟩ := wf_parts hw
  have hspan := check_ok_span hr
  exact wf_of_parts h1 h2 (cellsSortedFrom_cellSet h3 (Nat.zero_le _))
    (all_cellSet h4 (covered_of_mem hspan.1 (by simp only; omega)))

/-! ## Reads after writes through the gate -/

/-- R62: a word written reads back. -/
theorem readN_writeN_word {page : Nat} {fill : Byte} {m m' : Memory} {a : Word} {req req' : AccessMode}
    {v : Word} (hw : m.wf page fill = true) (h : m.writeN fill a 4 req v = .ok m')
    (hc : ∃ r, m.check a 4 req' = .ok r) : m'.readN fill a 4 req' = .ok v := by
  obtain ⟨r, hr⟩ := hc
  unfold Memory.readN
  rw [check_congr (writeN_regions h), hr, (writeN_ok h).2]
  simp only
  have := cellGetN_cellSetN (a := a.toNat) (bs := leBytes 4 v) (wf_parts hw).2.2.1
  rw [length_leBytes] at this
  rw [this, leWord_leBytes_four]

/-! ## Allocation -/

theorem mem_insertRegion {r q : Region} {rs : List Region} :
    q ∈ insertRegion r rs ↔ q = r ∨ q ∈ rs := by
  induction rs with
  | nil => simp [insertRegion]
  | cons p ps ih =>
    simp only [insertRegion]
    split
    · simp
    · simp only [List.mem_cons, ih]
      tauto

theorem regionsSorted_insertRegion {r : Region} {rs : List Region} (h : regionsSorted rs = true)
    (hp : ∀ q ∈ rs, 0 < q.length) (hr : 0 < r.length)
    (hd : ∀ q ∈ rs, ¬ (r.base.toNat < q.base.toNat + q.length ∧
      q.base.toNat < r.base.toNat + r.length)) :
    regionsSorted (insertRegion r rs) = true := by
  induction rs with
  | nil => rfl
  | cons p ps ih =>
    have hc := regionsSorted_cons h
    have hdp := hd p (by simp)
    have hpp := hp p (by simp)
    simp only [insertRegion]
    split
    · refine regionsSorted_of h fun q hq => ?_
      rcases List.mem_cons.1 hq with hq | hq
      · subst hq; omega
      · have := hc.2 q hq; omega
    · refine regionsSorted_of (ih hc.1 (fun q hq => hp q (by simp [hq]))
        (fun q hq => hd q (by simp [hq]))) fun q hq => ?_
      rcases mem_insertRegion.1 hq with hq | hq
      · subst hq; omega
      · exact hc.2 q hq

theorem roundUp_dvd (page length : Nat) : roundUp page length % page = 0 := by
  simp [roundUp]

theorem roundUp_ge {page : Nat} (hp : 0 < page) (length : Nat) : length ≤ roundUp page length := by
  unfold roundUp
  have h := Nat.div_add_mod (length + page - 1) page
  have h2 := Nat.mod_lt (length + page - 1) hp
  rw [Nat.mul_comm] at h
  omega

/-- What an accepted allocation is (R54). -/
theorem allocate_some {page : Nat} {m m' : Memory} {base : Word} {length : Nat} {mode : AccessMode}
    (h : m.allocate page base length mode = some m') :
    length ≠ 0 ∧ base.toNat % page = 0 ∧ base.toNat + roundUp page length ≤ 2 ^ 32 ∧
      (∀ q ∈ m.regions, q.meets base.toNat (roundUp page length) = false) ∧
      m' = { m with regions := insertRegion ⟨base, roundUp page length, mode⟩ m.regions } := by
  unfold Memory.allocate at h
  split at h
  · simp at h
  · rename_i hn
    simp only [not_or, ne_eq, Decidable.not_not, List.any_eq_true, not_exists, not_and,
      Bool.not_eq_true] at hn
    exact ⟨hn.1, hn.2.1, by omega, hn.2.2.2, by simpa using h.symm⟩

/-- Allocation keeps the canonical form. -/
theorem wf_allocate {page : Nat} {fill : Byte} {m m' : Memory} {base : Word} {length : Nat}
    {mode : AccessMode} (hp : 0 < page) (hw : m.wf page fill = true)
    (h : m.allocate page base length mode = some m') : m'.wf page fill = true := by
  obtain ⟨hl, hb, ht, hd, rfl⟩ := allocate_some h
  obtain ⟨h1, h2, h3, h4⟩ := wf_parts hw
  have hge := roundUp_ge hp length
  refine wf_of_parts (fun q hq => ?_)
    (regionsSorted_insertRegion h2 (fun q hq => region_wf_pos (h1 q hq)) (by simp only; omega)
      fun q hq => ?_) h3 ?_
  · rcases mem_insertRegion.1 hq with rfl | hq
    · simp only [Region.wf, Bool.and_eq_true, decide_eq_true_eq]
      exact ⟨⟨⟨by omega, roundUp_dvd page length⟩, hb⟩, ht⟩
    · exact h1 q hq
  · have := hd q hq
    simp only [Region.meets, Bool.and_eq_false_iff, decide_eq_false_iff_not] at this
    simp only
    omega
  · rw [List.all_eq_true] at h4 ⊢
    intro c hc
    have := h4 c hc
    simp only [covered, List.any_eq_true] at this ⊢
    obtain ⟨q, hq, hcov⟩ := this
    exact ⟨q, mem_insertRegion.2 (.inr hq), hcov⟩

/-- `AllocateAnywhere` keeps the canonical form. -/
theorem wf_allocateAnywhere {page : Nat} {fill : Byte} {m m' : Memory} {length : Nat}
    {mode : AccessMode} {base : Word} (hp : 0 < page) (hw : m.wf page fill = true)
    (h : m.allocateAnywhere page length mode = some (base, m')) : m'.wf page fill = true := by
  unfold Memory.allocateAnywhere at h
  split at h
  · split at h
    · simp at h
    · rename_i ha
      obtain ⟨-, rfl⟩ : _ ∧ _ := by simpa using h
      exact wf_allocate hp hw ha
  · simp at h

/-! ## The gate in terms of the regions -/

/-- R57: with sorted regions a check passes exactly when one region holds the span and has the flags. -/
theorem check_passes_iff {page : Nat} {fill : Byte} {m : Memory} (hw : m.wf page fill = true)
    {a : Word} {n : Nat} (hn : 1 ≤ n) {req : AccessMode} :
    (∃ r, m.check a n req = .ok r) ↔
      ∃ r ∈ m.regions, r.base.toNat ≤ a.toNat ∧ a.toNat + n ≤ r.base.toNat + r.length ∧
        req &&& ~~~r.mode &&& 7 = 0 := by
  obtain ⟨h1, h2, -, -⟩ := wf_parts hw
  constructor
  · rintro ⟨r, h⟩
    have hs := check_ok_span h
    exact ⟨r, hs.1, hs.2.1, hs.2.2, (check_ok h).2.1⟩
  · rintro ⟨r, hr, hb, hl, hm⟩
    exact ⟨r, check_eq_ok (lookup_eq_some h2 (fun q hq => region_wf_pos (h1 q hq)) hr
      ⟨hb, by omega⟩) hm (by omega)⟩

/-- A region lies below the top of the address space (R50). -/
theorem region_below_top {page : Nat} {fill : Byte} {m : Memory} (hw : m.wf page fill = true)
    {r : Region} (hr : r ∈ m.regions) : r.base.toNat + r.length ≤ 2 ^ 32 := by
  have := (wf_parts hw).1 r hr
  simp only [Region.wf, Bool.and_eq_true, decide_eq_true_eq] at this
  exact this.2

/-! ## Equal contents are equal data -/

/-- Two canonical lists that read alike everywhere are one list. -/
theorem cells_ext {fill : Byte} {lo : Nat} {cs ds : List Host.Cell}
    (hc : cellsSortedFrom fill lo cs = true) (hd : cellsSortedFrom fill lo ds = true)
    (h : ∀ a, cellGet fill cs a = cellGet fill ds a) : cs = ds := by
  induction cs generalizing lo ds with
  | nil =>
    cases ds with
    | nil => rfl
    | cons d ds =>
      obtain ⟨k, v⟩ := d
      simp only [cellsSortedFrom, Bool.and_eq_true, decide_eq_true_eq] at hd
      have := h k
      simp only [cellGet, if_true] at this
      exact absurd this.symm hd.1.2
  | cons c cs ih =>
    obtain ⟨k, v⟩ := c
    have hc0 := hc
    simp only [cellsSortedFrom, Bool.and_eq_true, decide_eq_true_eq] at hc
    cases ds with
    | nil =>
      have := h k
      simp only [cellGet, if_true] at this
      exact absurd this hc.1.2
    | cons d ds =>
      obtain ⟨l, w⟩ := d
      have hd0 := hd
      simp only [cellsSortedFrom, Bool.and_eq_true, decide_eq_true_eq] at hd
      have hkl : k = l := by
        rcases Nat.lt_trichotomy k l with hlt | heq | hgt
        · have h0 := h k
          simp only [cellGet, if_true, if_neg (by omega : ¬ l = k)] at h0
          rw [cellGet_below hd.2 (by omega)] at h0
          exact absurd h0 hc.1.2
        · exact heq
        · have h0 := h l
          simp only [cellGet, if_true, if_neg (by omega : ¬ k = l)] at h0
          rw [cellGet_below hc.2 (by omega)] at h0
          exact absurd h0.symm hd.1.2
      subst hkl
      have hvw : v = w := by simpa [cellGet] using h k
      subst hvw
      rw [ih hc.2 hd.2 fun a => ?_]
      by_cases hak : k = a
      · subst hak
        rw [cellGet_below hc.2 (by omega), cellGet_below hd.2 (by omega)]
      · simpa [cellGet, hak] using h a

end Sys2Proof.Machine
end

