-- ==== Sys2Proof/Laws/State.lean ====
section
/-! SUPPORT. One lemma per field per update of the state, and what a register reads after a write. -/

namespace Sys2Proof.Machine.State

open Sys2Proof

@[simp] theorem setX_pc (s : State) (i : RegIdx) (v : Word) : (s.setX i v).pc = s.pc := rfl
@[simp] theorem setX_icount (s : State) (i : RegIdx) (v : Word) : (s.setX i v).icount = s.icount := rfl
@[simp] theorem setX_status (s : State) (i : RegIdx) (v : Word) : (s.setX i v).status = s.status := rfl
@[simp] theorem setX_mem (s : State) (i : RegIdx) (v : Word) : (s.setX i v).mem = s.mem := rfl
@[simp] theorem setX_cursor (s : State) (i : RegIdx) (v : Word) : (s.setX i v).cursor = s.cursor := rfl
@[simp] theorem setX_symbols (s : State) (i : RegIdx) (v : Word) : (s.setX i v).symbols = s.symbols := rfl
@[simp] theorem setX_relocs (s : State) (i : RegIdx) (v : Word) : (s.setX i v).relocs = s.relocs := rfl
@[simp] theorem setX_autoCount (s : State) (i : RegIdx) (v : Word) : (s.setX i v).autoCount = s.autoCount := rfl
@[simp] theorem setX_diagnostics (s : State) (i : RegIdx) (v : Word) : (s.setX i v).diagnostics = s.diagnostics := rfl
@[simp] theorem setX_linked (s : State) (i : RegIdx) (v : Word) : (s.setX i v).linked = s.linked := rfl
@[simp] theorem setX_trapCount (s : State) (i : RegIdx) (v : Word) : (s.setX i v).trapCount = s.trapCount := rfl
@[simp] theorem setX_cfg (s : State) (i : RegIdx) (v : Word) : (s.setX i v).cfg = s.cfg := rfl

@[simp] theorem tick_regs (s : State) : (s.tick).regs = s.regs := rfl
@[simp] theorem tick_pc (s : State) : (s.tick).pc = s.pc := rfl
@[simp] theorem tick_icount (s : State) : (s.tick).icount = s.icount + 1 := rfl
@[simp] theorem tick_status (s : State) : (s.tick).status = s.status := rfl
@[simp] theorem tick_mem (s : State) : (s.tick).mem = s.mem := rfl
@[simp] theorem tick_cursor (s : State) : (s.tick).cursor = s.cursor := rfl
@[simp] theorem tick_symbols (s : State) : (s.tick).symbols = s.symbols := rfl
@[simp] theorem tick_relocs (s : State) : (s.tick).relocs = s.relocs := rfl
@[simp] theorem tick_autoCount (s : State) : (s.tick).autoCount = s.autoCount := rfl
@[simp] theorem tick_diagnostics (s : State) : (s.tick).diagnostics = s.diagnostics := rfl
@[simp] theorem tick_linked (s : State) : (s.tick).linked = s.linked := rfl
@[simp] theorem tick_trapCount (s : State) : (s.tick).trapCount = s.trapCount := rfl
@[simp] theorem tick_cfg (s : State) : (s.tick).cfg = s.cfg := rfl

@[simp] theorem setStatus_regs (s : State) (st : RunStatus) : (s.setStatus st).regs = s.regs := rfl
@[simp] theorem setStatus_pc (s : State) (st : RunStatus) : (s.setStatus st).pc = s.pc := rfl
@[simp] theorem setStatus_icount (s : State) (st : RunStatus) : (s.setStatus st).icount = s.icount := rfl
@[simp] theorem setStatus_status (s : State) (st : RunStatus) : (s.setStatus st).status = st := rfl
@[simp] theorem setStatus_mem (s : State) (st : RunStatus) : (s.setStatus st).mem = s.mem := rfl
@[simp] theorem setStatus_cursor (s : State) (st : RunStatus) : (s.setStatus st).cursor = s.cursor := rfl
@[simp] theorem setStatus_symbols (s : State) (st : RunStatus) : (s.setStatus st).symbols = s.symbols := rfl
@[simp] theorem setStatus_relocs (s : State) (st : RunStatus) : (s.setStatus st).relocs = s.relocs := rfl
@[simp] theorem setStatus_autoCount (s : State) (st : RunStatus) : (s.setStatus st).autoCount = s.autoCount := rfl
@[simp] theorem setStatus_diagnostics (s : State) (st : RunStatus) : (s.setStatus st).diagnostics = s.diagnostics := rfl
@[simp] theorem setStatus_linked (s : State) (st : RunStatus) : (s.setStatus st).linked = s.linked := rfl
@[simp] theorem setStatus_trapCount (s : State) (st : RunStatus) : (s.setStatus st).trapCount = s.trapCount := rfl
@[simp] theorem setStatus_cfg (s : State) (st : RunStatus) : (s.setStatus st).cfg = s.cfg := rfl

@[simp] theorem setMem_regs (s : State) (m : Memory) : (s.setMem m).regs = s.regs := rfl
@[simp] theorem setMem_pc (s : State) (m : Memory) : (s.setMem m).pc = s.pc := rfl
@[simp] theorem setMem_icount (s : State) (m : Memory) : (s.setMem m).icount = s.icount := rfl
@[simp] theorem setMem_status (s : State) (m : Memory) : (s.setMem m).status = s.status := rfl
@[simp] theorem setMem_mem (s : State) (m : Memory) : (s.setMem m).mem = m := rfl
@[simp] theorem setMem_cursor (s : State) (m : Memory) : (s.setMem m).cursor = s.cursor := rfl
@[simp] theorem setMem_symbols (s : State) (m : Memory) : (s.setMem m).symbols = s.symbols := rfl
@[simp] theorem setMem_relocs (s : State) (m : Memory) : (s.setMem m).relocs = s.relocs := rfl
@[simp] theorem setMem_autoCount (s : State) (m : Memory) : (s.setMem m).autoCount = s.autoCount := rfl
@[simp] theorem setMem_diagnostics (s : State) (m : Memory) : (s.setMem m).diagnostics = s.diagnostics := rfl
@[simp] theorem setMem_linked (s : State) (m : Memory) : (s.setMem m).linked = s.linked := rfl
@[simp] theorem setMem_trapCount (s : State) (m : Memory) : (s.setMem m).trapCount = s.trapCount := rfl
@[simp] theorem setMem_cfg (s : State) (m : Memory) : (s.setMem m).cfg = s.cfg := rfl

@[simp] theorem countTrap_regs (s : State) : (s.countTrap).regs = s.regs := rfl
@[simp] theorem countTrap_pc (s : State) : (s.countTrap).pc = s.pc := rfl
@[simp] theorem countTrap_icount (s : State) : (s.countTrap).icount = s.icount := rfl
@[simp] theorem countTrap_status (s : State) : (s.countTrap).status = s.status := rfl
@[simp] theorem countTrap_mem (s : State) : (s.countTrap).mem = s.mem := rfl
@[simp] theorem countTrap_cursor (s : State) : (s.countTrap).cursor = s.cursor := rfl
@[simp] theorem countTrap_symbols (s : State) : (s.countTrap).symbols = s.symbols := rfl
@[simp] theorem countTrap_relocs (s : State) : (s.countTrap).relocs = s.relocs := rfl
@[simp] theorem countTrap_autoCount (s : State) : (s.countTrap).autoCount = s.autoCount := rfl
@[simp] theorem countTrap_diagnostics (s : State) : (s.countTrap).diagnostics = s.diagnostics := rfl
@[simp] theorem countTrap_linked (s : State) : (s.countTrap).linked = s.linked := rfl
@[simp] theorem countTrap_trapCount (s : State) : (s.countTrap).trapCount = s.trapCount + 1 := rfl
@[simp] theorem countTrap_cfg (s : State) : (s.countTrap).cfg = s.cfg := rfl

@[simp] theorem raise_regs (s : State) (k : FaultKind) : (s.raise k).regs = s.regs := rfl
@[simp] theorem raise_pc (s : State) (k : FaultKind) : (s.raise k).pc = s.pc := rfl
@[simp] theorem raise_icount (s : State) (k : FaultKind) : (s.raise k).icount = s.icount := rfl
@[simp] theorem raise_status (s : State) (k : FaultKind) : (s.raise k).status = .faulted k s.pc := rfl
@[simp] theorem raise_mem (s : State) (k : FaultKind) : (s.raise k).mem = s.mem := rfl
@[simp] theorem raise_cursor (s : State) (k : FaultKind) : (s.raise k).cursor = s.cursor := rfl
@[simp] theorem raise_symbols (s : State) (k : FaultKind) : (s.raise k).symbols = s.symbols := rfl
@[simp] theorem raise_relocs (s : State) (k : FaultKind) : (s.raise k).relocs = s.relocs := rfl
@[simp] theorem raise_autoCount (s : State) (k : FaultKind) : (s.raise k).autoCount = s.autoCount := rfl
@[simp] theorem raise_diagnostics (s : State) (k : FaultKind) : (s.raise k).diagnostics = s.diagnostics := rfl
@[simp] theorem raise_linked (s : State) (k : FaultKind) : (s.raise k).linked = s.linked := rfl
@[simp] theorem raise_trapCount (s : State) (k : FaultKind) : (s.raise k).trapCount = s.trapCount := rfl
@[simp] theorem raise_cfg (s : State) (k : FaultKind) : (s.raise k).cfg = s.cfg := rfl

@[simp] theorem stop_regs (s : State) (code : Word) : (s.stop code).regs = s.regs := rfl
@[simp] theorem stop_pc (s : State) (code : Word) : (s.stop code).pc = s.pc := rfl
@[simp] theorem stop_icount (s : State) (code : Word) : (s.stop code).icount = s.icount := rfl
@[simp] theorem stop_status (s : State) (code : Word) : (s.stop code).status = .exited code.toInt := rfl
@[simp] theorem stop_mem (s : State) (code : Word) : (s.stop code).mem = s.mem := rfl
@[simp] theorem stop_cursor (s : State) (code : Word) : (s.stop code).cursor = s.cursor := rfl
@[simp] theorem stop_symbols (s : State) (code : Word) : (s.stop code).symbols = s.symbols := rfl
@[simp] theorem stop_relocs (s : State) (code : Word) : (s.stop code).relocs = s.relocs := rfl
@[simp] theorem stop_autoCount (s : State) (code : Word) : (s.stop code).autoCount = s.autoCount := rfl
@[simp] theorem stop_diagnostics (s : State) (code : Word) : (s.stop code).diagnostics = s.diagnostics := rfl
@[simp] theorem stop_linked (s : State) (code : Word) : (s.stop code).linked = s.linked := rfl
@[simp] theorem stop_trapCount (s : State) (code : Word) : (s.stop code).trapCount = s.trapCount := rfl
@[simp] theorem stop_cfg (s : State) (code : Word) : (s.stop code).cfg = s.cfg := rfl

@[simp] theorem setCursor_regs (s : State) (c : Word) : (s.setCursor c).regs = s.regs := rfl
@[simp] theorem setCursor_pc (s : State) (c : Word) : (s.setCursor c).pc = s.pc := rfl
@[simp] theorem setCursor_icount (s : State) (c : Word) : (s.setCursor c).icount = s.icount := rfl
@[simp] theorem setCursor_status (s : State) (c : Word) : (s.setCursor c).status = s.status := rfl
@[simp] theorem setCursor_mem (s : State) (c : Word) : (s.setCursor c).mem = s.mem := rfl
@[simp] theorem setCursor_cursor (s : State) (c : Word) : (s.setCursor c).cursor = c := rfl
@[simp] theorem setCursor_symbols (s : State) (c : Word) : (s.setCursor c).symbols = s.symbols := rfl
@[simp] theorem setCursor_relocs (s : State) (c : Word) : (s.setCursor c).relocs = s.relocs := rfl
@[simp] theorem setCursor_autoCount (s : State) (c : Word) : (s.setCursor c).autoCount = s.autoCount := rfl
@[simp] theorem setCursor_diagnostics (s : State) (c : Word) : (s.setCursor c).diagnostics = s.diagnostics := rfl
@[simp] theorem setCursor_linked (s : State) (c : Word) : (s.setCursor c).linked = s.linked := rfl
@[simp] theorem setCursor_trapCount (s : State) (c : Word) : (s.setCursor c).trapCount = s.trapCount := rfl
@[simp] theorem setCursor_cfg (s : State) (c : Word) : (s.setCursor c).cfg = s.cfg := rfl

@[simp] theorem diagnose_regs (s : State) (d : Diagnostic) : (s.diagnose d).regs = s.regs := rfl
@[simp] theorem diagnose_pc (s : State) (d : Diagnostic) : (s.diagnose d).pc = s.pc := rfl
@[simp] theorem diagnose_icount (s : State) (d : Diagnostic) : (s.diagnose d).icount = s.icount := rfl
@[simp] theorem diagnose_status (s : State) (d : Diagnostic) : (s.diagnose d).status = s.status := rfl
@[simp] theorem diagnose_mem (s : State) (d : Diagnostic) : (s.diagnose d).mem = s.mem := rfl
@[simp] theorem diagnose_cursor (s : State) (d : Diagnostic) : (s.diagnose d).cursor = s.cursor := rfl
@[simp] theorem diagnose_symbols (s : State) (d : Diagnostic) : (s.diagnose d).symbols = s.symbols := rfl
@[simp] theorem diagnose_relocs (s : State) (d : Diagnostic) : (s.diagnose d).relocs = s.relocs := rfl
@[simp] theorem diagnose_autoCount (s : State) (d : Diagnostic) : (s.diagnose d).autoCount = s.autoCount := rfl
@[simp] theorem diagnose_diagnostics (s : State) (d : Diagnostic) : (s.diagnose d).diagnostics = s.diagnostics ++ [d] := rfl
@[simp] theorem diagnose_linked (s : State) (d : Diagnostic) : (s.diagnose d).linked = s.linked := rfl
@[simp] theorem diagnose_trapCount (s : State) (d : Diagnostic) : (s.diagnose d).trapCount = s.trapCount := rfl
@[simp] theorem diagnose_cfg (s : State) (d : Diagnostic) : (s.diagnose d).cfg = s.cfg := rfl

@[simp] theorem record_regs (s : State) (k : RelocKind) (n : SymName) : (s.record k n).regs = s.regs := rfl
@[simp] theorem record_pc (s : State) (k : RelocKind) (n : SymName) : (s.record k n).pc = s.pc := rfl
@[simp] theorem record_icount (s : State) (k : RelocKind) (n : SymName) : (s.record k n).icount = s.icount := rfl
@[simp] theorem record_status (s : State) (k : RelocKind) (n : SymName) : (s.record k n).status = s.status := rfl
@[simp] theorem record_mem (s : State) (k : RelocKind) (n : SymName) : (s.record k n).mem = s.mem := rfl
@[simp] theorem record_cursor (s : State) (k : RelocKind) (n : SymName) : (s.record k n).cursor = s.cursor := rfl
@[simp] theorem record_symbols (s : State) (k : RelocKind) (n : SymName) : (s.record k n).symbols = s.symbols := rfl
@[simp] theorem record_relocs (s : State) (k : RelocKind) (n : SymName) : (s.record k n).relocs = s.relocs ++ [⟨s.cursor, k, n⟩] := rfl
@[simp] theorem record_autoCount (s : State) (k : RelocKind) (n : SymName) : (s.record k n).autoCount = s.autoCount := rfl
@[simp] theorem record_diagnostics (s : State) (k : RelocKind) (n : SymName) : (s.record k n).diagnostics = s.diagnostics := rfl
@[simp] theorem record_linked (s : State) (k : RelocKind) (n : SymName) : (s.record k n).linked = s.linked := rfl
@[simp] theorem record_trapCount (s : State) (k : RelocKind) (n : SymName) : (s.record k n).trapCount = s.trapCount := rfl
@[simp] theorem record_cfg (s : State) (k : RelocKind) (n : SymName) : (s.record k n).cfg = s.cfg := rfl

@[simp] theorem commitPc_regs (s : State) (npc : Word) : (s.commitPc npc).regs = s.regs := by
  unfold State.commitPc; split <;> rfl
@[simp] theorem commitPc_icount (s : State) (npc : Word) : (s.commitPc npc).icount = s.icount := by
  unfold State.commitPc; split <;> rfl
@[simp] theorem commitPc_status (s : State) (npc : Word) : (s.commitPc npc).status = s.status := by
  unfold State.commitPc; split <;> rfl
@[simp] theorem commitPc_mem (s : State) (npc : Word) : (s.commitPc npc).mem = s.mem := by
  unfold State.commitPc; split <;> rfl
@[simp] theorem commitPc_cursor (s : State) (npc : Word) : (s.commitPc npc).cursor = s.cursor := by
  unfold State.commitPc; split <;> rfl
@[simp] theorem commitPc_symbols (s : State) (npc : Word) : (s.commitPc npc).symbols = s.symbols := by
  unfold State.commitPc; split <;> rfl
@[simp] theorem commitPc_relocs (s : State) (npc : Word) : (s.commitPc npc).relocs = s.relocs := by
  unfold State.commitPc; split <;> rfl
@[simp] theorem commitPc_autoCount (s : State) (npc : Word) : (s.commitPc npc).autoCount = s.autoCount := by
  unfold State.commitPc; split <;> rfl
@[simp] theorem commitPc_diagnostics (s : State) (npc : Word) : (s.commitPc npc).diagnostics = s.diagnostics := by
  unfold State.commitPc; split <;> rfl
@[simp] theorem commitPc_linked (s : State) (npc : Word) : (s.commitPc npc).linked = s.linked := by
  unfold State.commitPc; split <;> rfl
@[simp] theorem commitPc_trapCount (s : State) (npc : Word) : (s.commitPc npc).trapCount = s.trapCount := by
  unfold State.commitPc; split <;> rfl
@[simp] theorem commitPc_cfg (s : State) (npc : Word) : (s.commitPc npc).cfg = s.cfg := by
  unfold State.commitPc; split <;> rfl

theorem commitPc_pc (s : State) (npc : Word) :
    (s.commitPc npc).pc = if s.status = .running then npc else s.pc := by
  unfold State.commitPc; split <;> rfl

@[simp] theorem commitPc_pc_running (s : State) (npc : Word) (h : s.status = .running) :
    (s.commitPc npc).pc = npc := by simp [commitPc_pc, h]

theorem commitPc_eq (s : State) (npc : Word) (h : s.status = .running) :
    s.commitPc npc = { s with pc := npc } := by simp [State.commitPc, h]

/-! ## Registers -/

@[simp] theorem x_zero (s : State) : s.x 0#5 = 0#32 := by simp [State.x]

/-- A read depends on the register file alone. -/
theorem x_congr {s t : State} (h : t.regs = s.regs) (i : RegIdx) : t.x i = s.x i := by
  simp [State.x, h]

/-- R22: what every register reads after a write through the helper. -/
theorem setX_x (s : State) (i : RegIdx) (v : Word) (j : RegIdx) :
    (s.setX i v).x j = if j = 0#5 then 0#32 else if j = i then v else s.x j := by
  unfold State.x State.setX
  by_cases hj : j = 0#5
  · simp [hj]
  · have hj' : 0 ≠ j.toNat := fun h => hj (BitVec.eq_of_toNat_eq (by simp [← h]))
    by_cases hi : i = 0#5
    · simp [hj, hj', hi, Vector.get_eq_getElem]
    · by_cases hji : j = i
      · subst hji
        simp [hj, hj', Vector.get_eq_getElem]
      · have hne : i.toNat ≠ j.toNat := fun h => hji (BitVec.eq_of_toNat_eq h.symm)
        simp [hj, hj', hi, hji, hne, Vector.get_eq_getElem]

@[simp] theorem setX_x_same (s : State) (i : RegIdx) (v : Word) (h : i ≠ 0#5) :
    (s.setX i v).x i = v := by simp [setX_x, h]

@[simp] theorem setX_x_other (s : State) (i j : RegIdx) (v : Word) (h : j ≠ i) :
    (s.setX i v).x j = s.x j := by
  by_cases hj : j = 0#5
  · subst hj; simp
  · simp [setX_x, h, hj]

/-- The stored register 0 is zero after any write. -/
@[simp] theorem setX_regs_zero (s : State) (i : RegIdx) (v : Word) :
    (s.setX i v).regs.get 0 = 0#32 := by
  simp [State.setX, Vector.get_eq_getElem]

@[simp] theorem tick_x (s : State) (j : RegIdx) : (s.tick).x j = s.x j :=
  x_congr (by simp) j

@[simp] theorem setStatus_x (s : State) (st : RunStatus) (j : RegIdx) : (s.setStatus st).x j = s.x j :=
  x_congr (by simp) j

@[simp] theorem setMem_x (s : State) (m : Memory) (j : RegIdx) : (s.setMem m).x j = s.x j :=
  x_congr (by simp) j

@[simp] theorem countTrap_x (s : State) (j : RegIdx) : (s.countTrap).x j = s.x j :=
  x_congr (by simp) j

@[simp] theorem raise_x (s : State) (k : FaultKind) (j : RegIdx) : (s.raise k).x j = s.x j :=
  x_congr (by simp) j

@[simp] theorem stop_x (s : State) (c : Word) (j : RegIdx) : (s.stop c).x j = s.x j :=
  x_congr (by simp) j

@[simp] theorem commitPc_x (s : State) (npc : Word) (j : RegIdx) : (s.commitPc npc).x j = s.x j :=
  x_congr (by simp) j

end Sys2Proof.Machine.State
end

