-- ==== Sys2Proof/Laws/Step.lean ====
section
/-! SUPPORT. What each shared operation of a step can do, said once: the ports, the shapes of an
instruction, the trap, the engine. -/

namespace Sys2Proof.Machine

open Sys2Proof State

/-! ## Ports -/

/-- A gate that the regions admit passes. -/
theorem check_of_admits {s : State} (hw : s.MemWf) {a : Word} {n : Nat} (hn : 1 ≤ n) {req : AccessMode}
    (h : s.Admits a n req) : ∃ r, s.mem.check a n req = .ok r :=
  (check_passes_iff hw hn).2 h

/-- A gate that passes is one the regions admit. -/
theorem admits_of_check {s : State} {a : Word} {n : Nat} {req : AccessMode} {r : Region}
    (h : s.mem.check a n req = .ok r) : s.Admits a n req :=
  have hs := check_ok_span h
  ⟨r, hs.1, hs.2.1, hs.2.2, (check_ok h).2.1⟩

/-- A gate the regions do not admit refuses, naming the address and the request. -/
theorem check_of_not_admits {s : State} {a : Word} {n : Nat} {req : AccessMode}
    (h : ¬ s.Admits a n req) : ∃ why, s.mem.check a n req = .error ⟨why, a, req⟩ := by
  cases hc : s.mem.check a n req with
  | ok r => exact absurd (admits_of_check hc) h
  | error v =>
    obtain ⟨why, addr, rq⟩ := v
    obtain ⟨rfl, rfl⟩ := check_error hc
    exact ⟨why, rfl⟩

/-- A refused gate names the reason R57 gives. -/
theorem check_refused {s : State} (hw : s.MemWf) {a : Word} {n : Nat} {req : AccessMode}
    (h : ¬ s.Admits a n req) :
    ∃ why, RefusalReason s a req why ∧ s.mem.check a n req = .error ⟨why, a, req⟩ := by
  have pass : ∀ req', s.Admits a 1 req' → ∃ r, s.mem.check a 1 req' = .ok r := fun _ h1 =>
    check_of_admits hw (Nat.le_refl 1) h1
  cases hl : s.mem.lookup a with
  | none =>
    have none_pass : ∀ req', ¬ s.Admits a 1 req' := fun req' h1 => by
      obtain ⟨r, hr⟩ := pass req' h1
      simp [Memory.check, hl] at hr
    exact ⟨.unmapped, ⟨fun _ => rfl, fun h1 => absurd h1 (none_pass _), fun h1 =>
      absurd h1 (none_pass _)⟩, by simp [Memory.check, hl]⟩
  | some r =>
    obtain ⟨hm, hb, hlen⟩ := lookup_some hl
    have here : s.Admits a 1 modeLoader := ⟨r, hm, hb, by omega, by simp [modeLoader]⟩
    by_cases hf : req &&& ~~~r.mode &&& 7 = 0
    · have flags : s.Admits a 1 req := ⟨r, hm, hb, by omega, hf⟩
      have long : r.length < a.toNat - r.base.toNat + n := by
        by_contra hc
        exact h ⟨r, hm, hb, by omega, hf⟩
      exact ⟨.unmapped, ⟨fun h1 => absurd here h1, fun _ h2 => absurd flags h2, fun _ => rfl⟩, by
        simp only [Memory.check, hl, ne_eq, hf, not_true_eq_false, if_false, gt_iff_lt, long, if_true]⟩
    · have no_flags : ¬ s.Admits a 1 req := fun h1 => by
        obtain ⟨q, hq⟩ := pass req h1
        simp only [Memory.check, hl, ne_eq, hf, not_false_eq_true, if_true, reduceCtorEq] at hq
      exact ⟨.modeMissing, ⟨fun h1 => absurd here h1, fun _ _ => rfl, fun h1 =>
        absurd h1 no_flags⟩, by
        simp only [Memory.check, hl, ne_eq, hf, not_false_eq_true, if_true]⟩

/-- An admitted multi-byte read (R60). -/
theorem readN_of_admits {s : State} (hw : s.MemWf) {a : Word} {n : Nat} (hn : 1 ≤ n)
    {req : AccessMode} (h : s.Admits a n req) :
    s.mem.readN s.cfg.regionFill a n req =
      .ok (leWord (cellGetN s.cfg.regionFill s.mem.cells n a.toNat)) := by
  obtain ⟨r, hr⟩ := check_of_admits hw hn h
  simp [Memory.readN, hr]

/-- A refused multi-byte read. -/
theorem readN_of_not_admits {s : State} {a : Word} {n : Nat} {req : AccessMode}
    (h : ¬ s.Admits a n req) :
    ∃ why, s.mem.readN s.cfg.regionFill a n req = .error ⟨why, a, req⟩ := by
  obtain ⟨why, hr⟩ := check_of_not_admits h
  exact ⟨why, by simp [Memory.readN, hr]⟩

theorem readN_refused {s : State} (hw : s.MemWf) {a : Word} {n : Nat} {req : AccessMode}
    (h : ¬ s.Admits a n req) : ∃ why, RefusalReason s a req why ∧
      s.mem.readN s.cfg.regionFill a n req = .error ⟨why, a, req⟩ := by
  obtain ⟨why, hy, hr⟩ := check_refused hw h
  exact ⟨why, hy, by simp [Memory.readN, hr]⟩

/-- An admitted multi-byte write (R61). -/
theorem writeN_of_admits {s : State} (hw : s.MemWf) {a : Word} {n : Nat} (hn : 1 ≤ n)
    {req : AccessMode} (v : Word) (h : s.Admits a n req) :
    s.mem.writeN s.cfg.regionFill a n req v =
      .ok { s.mem with cells := cellSetN s.cfg.regionFill s.mem.cells a.toNat (leBytes n v) } := by
  obtain ⟨r, hr⟩ := check_of_admits hw hn h
  simp [Memory.writeN, hr]

/-- A refused multi-byte write. -/
theorem writeN_of_not_admits {s : State} {a : Word} {n : Nat} {req : AccessMode} (v : Word)
    (h : ¬ s.Admits a n req) :
    ∃ why, s.mem.writeN s.cfg.regionFill a n req v = .error ⟨why, a, req⟩ := by
  obtain ⟨why, hr⟩ := check_of_not_admits h
  exact ⟨why, by simp [Memory.writeN, hr]⟩

theorem writeN_refused {s : State} (hw : s.MemWf) {a : Word} {n : Nat} {req : AccessMode}
    (v : Word) (h : ¬ s.Admits a n req) : ∃ why, RefusalReason s a req why ∧
      s.mem.writeN s.cfg.regionFill a n req v = .error ⟨why, a, req⟩ := by
  obtain ⟨why, hy, hr⟩ := check_refused hw h
  exact ⟨why, hy, by simp [Memory.writeN, hr]⟩

/-- One, two and four bytes as a word. -/
theorem leWord_one (fill : Byte) (cs : List Host.Cell) (a : Nat) :
    leWord (cellGetN fill cs 1 a) = (cellGet fill cs a).setWidth 32 := by
  simp [cellGetN, leWord]

theorem leWord_two (fill : Byte) (cs : List Host.Cell) (a : Nat) :
    leWord (cellGetN fill cs 2 a) = (cellGet fill cs (a + 1) ++ cellGet fill cs a).setWidth 32 := by
  refine BitVec.eq_of_getLsbD_eq fun i hi => ?_
  simp only [cellGetN, leWord, BitVec.getLsbD_or, BitVec.getLsbD_shiftLeft, BitVec.getLsbD_setWidth,
    BitVec.getLsbD_append]
  interval_cases i <;> simp [BitVec.getLsbD_of_ge]

theorem leWord_four (fill : Byte) (cs : List Host.Cell) (a : Nat) :
    leWord (cellGetN fill cs 4 a) = cellGet fill cs (a + 3) ++ cellGet fill cs (a + 2) ++
      cellGet fill cs (a + 1) ++ cellGet fill cs a := by
  refine BitVec.eq_of_getLsbD_eq fun i hi => ?_
  simp only [cellGetN, leWord, BitVec.getLsbD_or, BitVec.getLsbD_shiftLeft, BitVec.getLsbD_setWidth,
    BitVec.getLsbD_append]
  interval_cases i <;> simp [BitVec.getLsbD_of_ge, Nat.add_assoc]

/-- The bytes a write lays down, read back. -/
theorem leBytes_get (n : Nat) (v : Word) (k : Nat) (h : k < (leBytes n v).length) :
    (leBytes n v)[k] = v.extractLsb' (8 * k) 8 := by
  induction n generalizing v k with
  | zero => simp [leBytes] at h
  | succ n ih =>
    cases k with
    | zero =>
      simp only [leBytes, List.getElem_cons_zero, Nat.mul_zero]
      exact BitVec.eq_of_getLsbD_eq fun i hi => by simp [hi]
    | succ k =>
      simp only [leBytes, List.getElem_cons_succ]
      rw [ih]
      exact BitVec.eq_of_getLsbD_eq fun i hi => by
        simp [hi, BitVec.getLsbD_ushiftRight, Nat.mul_add, Nat.add_comm, Nat.add_left_comm]

/-! ## The shapes of an instruction -/

/-- A result through the helper, then the next pc (R146, R147). -/
theorem writeAndGo_running {s : State} (h : s.status = .running) (rd : RegIdx) (v npc : Word) :
    writeAndGo s rd v npc = .next { s.setX rd v with pc := npc } := by
  rw [writeAndGo, commitPc_eq _ _ (by simpa using h)]

/-- What a result leaves. -/
theorem regStep_writeAndGo {s : State} (h : s.status = .running) (rd : RegIdx) (v npc : Word) :
    ∃ t, writeAndGo s rd v npc = .next t ∧ RegStep s t rd v npc := by
  refine ⟨_, writeAndGo_running h rd v npc, rfl, setX_regs_zero s rd v, fun hr => ?_, fun j hj => ?_⟩
  · exact (x_congr rfl rd).trans (setX_x_same s rd v hr)
  · exact (x_congr rfl j).trans (setX_x_other s rd j v hj)

/-- An access the gate passes is loaded from; one it refuses faults. -/
theorem load_cases (n : AccessSize) (extend : Word → Word) (rd rs1 : RegIdx) (imm : BitVec 12)
    (s : State) :
    (∃ v, s.memRead (s.ea rs1 imm) n = .ok v ∧
      load n extend rd rs1 imm s = writeAndGo s rd (extend v) (s.pc + 4)) ∨
    (∃ v, s.memRead (s.ea rs1 imm) n = .error v ∧
      load n extend rd rs1 imm s = .next (s.raise (.memoryProtectionViolation v))) := by
  unfold load
  cases s.memRead (s.ea rs1 imm) n with
  | ok v => exact .inl ⟨v, rfl, rfl⟩
  | error v => exact .inr ⟨v, rfl, rfl⟩

/-- What a store that the gate passes changes: the cells of its bytes (R61, R67). -/
theorem memWrite_ok {s t : State} {a : Word} {n : AccessSize} {v : Word}
    (h : s.memWrite a n v = .ok t) :
    (∃ r, s.mem.check a n.bytes modeWrite = .ok r) ∧
      ∃ m, s.mem.writeN s.cfg.regionFill a n.bytes modeWrite v = .ok m ∧ t = s.setMem m := by
  unfold State.memWrite at h
  split at h
  · simp at h
  · rename_i m hm
    exact ⟨(writeN_ok hm).1, m, hm, by simpa using h.symm⟩

/-- A store either writes its bytes and moves on or faults. -/
theorem store_cases (n : AccessSize) (rs2 rs1 : RegIdx) (imm : BitVec 12) (s : State) :
    (∃ m, s.mem.writeN s.cfg.regionFill (s.ea rs1 imm) n.bytes modeWrite (s.x rs2) = .ok m ∧
      store n rs2 rs1 imm s = .next ((s.setMem m).commitPc (s.pc + 4))) ∨
    (∃ v, s.mem.writeN s.cfg.regionFill (s.ea rs1 imm) n.bytes modeWrite (s.x rs2) = .error v ∧
      store n rs2 rs1 imm s = .next (s.raise (.memoryProtectionViolation v))) := by
  unfold store State.memWrite
  cases s.mem.writeN s.cfg.regionFill (s.ea rs1 imm) n.bytes modeWrite (s.x rs2) with
  | ok m => exact .inl ⟨m, rfl, rfl⟩
  | error v => exact .inr ⟨v, rfl, rfl⟩

/-! ## The trap -/

/-- What the handler's accesses keep (R352). -/
structure TrapKeeps (s t : State) : Prop where
  pc : t.pc = s.pc
  icount : t.icount = s.icount
  status : t.status = s.status
  trapCount : t.trapCount = s.trapCount
  session : SessionKept s t
  wf : s.MemWf → t.MemWf
  bytes : ∀ a : Word, ¬ s.Admits a 1 modeWrite → t.byteAt a.toNat = s.byteAt a.toNat
  zero : s.regs.get 0 = 0#32 → t.regs.get 0 = 0#32

theorem TrapKeeps.refl (s : State) : TrapKeeps s s :=
  ⟨rfl, rfl, rfl, rfl, ⟨rfl, rfl, rfl, rfl, rfl, rfl, rfl, rfl⟩, id, fun _ _ => rfl, id⟩

theorem admits_congr {s t : State} (h : t.mem.regions = s.mem.regions) (a : Word) (n : Nat)
    (req : AccessMode) : t.Admits a n req ↔ s.Admits a n req := by
  simp only [State.Admits, h]

theorem TrapKeeps.trans {s t u : State} (h1 : TrapKeeps s t) (h2 : TrapKeeps t u) : TrapKeeps s u where
  pc := h2.pc.trans h1.pc
  icount := h2.icount.trans h1.icount
  status := h2.status.trans h1.status
  trapCount := h2.trapCount.trans h1.trapCount
  session := by
    obtain ⟨a1, a2, a3, a4, a5, a6, a7, a8⟩ := h1.session
    obtain ⟨b1, b2, b3, b4, b5, b6, b7, b8⟩ := h2.session
    exact ⟨b1.trans a1, b2.trans a2, b3.trans a3, b4.trans a4, b5.trans a5, b6.trans a6, b7.trans a7,
      b8.trans a8⟩
  wf := fun h => h2.wf (h1.wf h)
  bytes := fun a ha => (h2.bytes a fun h => ha ((admits_congr h1.session.1 a 1 modeWrite).1 h)).trans
    (h1.bytes a ha)
  zero := fun h => h2.zero (h1.zero h)

/-- One access of the handler. -/
theorem trapAccess_keeps {s t : State} {x : TrapAccess} (h : s.trapAccess x = .ok t) :
    TrapKeeps s t := by
  cases x with
  | readByte a =>
    simp only [State.trapAccess] at h
    split at h
    · simp at h
    · cases h
      exact .refl s
  | writeReg i v =>
    simp only [State.trapAccess, Except.ok.injEq] at h
    subst h
    exact ⟨rfl, rfl, rfl, rfl, ⟨rfl, rfl, rfl, rfl, rfl, rfl, rfl, rfl⟩, id, fun _ _ => rfl,
      fun _ => setX_regs_zero s i v⟩
  | writeByte a b =>
    simp only [State.trapAccess] at h
    split at h
    · simp at h
    · rename_i m hm
      cases h
      obtain ⟨⟨r, hr⟩, hm'⟩ := writeByte_ok hm
      refine ⟨rfl, rfl, rfl, rfl, ⟨by simp [hm'], rfl, rfl, rfl, rfl, rfl, rfl, rfl⟩,
        fun hw => wf_writeByte hw hm, fun c hc => ?_, id⟩
      have hne : c.toNat ≠ a.toNat := fun heq => by
        obtain rfl : c = a := BitVec.eq_of_toNat_eq heq
        exact hc (admits_of_check hr)
      simp only [State.byteAt, State.setMem, hm']
      exact cellGet_cellSet_other _ _ _ _ hne

/-- All accesses of the handler. -/
theorem trapAccesses_keeps {as : List TrapAccess} {s t : State} {v : Option Violation}
    (h : State.trapAccesses as s = (t, v)) : TrapKeeps s t := by
  induction as generalizing s with
  | nil =>
    simp only [State.trapAccesses, Prod.mk.injEq] at h
    exact h.1 ▸ .refl s
  | cons a as ih =>
    simp only [State.trapAccesses] at h
    split at h
    · cases h
      exact .refl _
    · exact (trapAccess_keeps ‹_›).trans (ih h)

/-- What taking the trap can do: the handler's accesses, then one ending. -/
theorem takeTrap_cases {s t : State} {reply : TrapReply} (hr : s.status = .running)
    (h : s.takeTrap reply = t) :
    (reply = .unimplemented ∧ t = s.raise (.unimplementedSyscall (s.x Config.sysNumReg))) ∨
    ∃ u, TrapKeeps s u ∧
      ((∃ v, t = u.raise (.memoryProtectionViolation v)) ∨ (∃ code, t = u.stop code) ∨
        t = { u with pc := s.pc + 4#32 } ∨
        ∃ v, t = { u.setX s.cfg.sysRetReg v with pc := s.pc + 4#32 }) := by
  cases reply with
  | unimplemented => exact .inl ⟨rfl, h.symm⟩
  | runs as ending =>
    refine .inr ?_
    simp only [State.takeTrap] at h
    split at h
    · exact ⟨_, trapAccesses_keeps ‹_›, .inl ⟨_, h.symm⟩⟩
    · rename_i u hu
      have hk := trapAccesses_keeps hu
      refine ⟨u, hk, .inr ?_⟩
      have hru : u.status = .running := hk.status.trans hr
      cases ending with
      | stop code => exact .inl ⟨code, h.symm⟩
      | returned o =>
        refine .inr ?_
        cases o with
        | none =>
          refine .inl ?_
          rw [← h, State.trapReturn, commitPc_eq _ _ hru, hk.pc]; rfl
        | some v =>
          refine .inr ⟨v, ?_⟩
          have hcfg : u.cfg = s.cfg := hk.session.2.2.2.2.2.2.2
          rw [← h, State.trapReturn, commitPc_eq _ _ (by simpa using hru), hk.pc, hcfg]; rfl

/-! ## Every instruction, by shape -/

/-- What an instruction that is not `ecall` can answer in a running state: a result and a next pc, a
next pc alone, a store, a refused access, or the halt. -/
theorem exec_cases (i : Instr) (s : State) (hr : s.status = .running) (he : i ≠ .ecall) :
    (∃ v npc, exec i s = .next { s.setX i.operands.rd v with pc := npc } ∧
      (transfers i = false → npc = s.pc + 4#32) ∧ (row i.mnemonic).format ≠ .S ∧
      (row i.mnemonic).format ≠ .B) ∨
    (∃ npc, exec i s = .next { s with pc := npc } ∧ (row i.mnemonic).format = .B) ∨
    (∃ a n v m, s.mem.writeN s.cfg.regionFill a n modeWrite v = .ok m ∧
      exec i s = .next { s.setMem m with pc := s.pc + 4#32 } ∧ (row i.mnemonic).format = .S) ∨
    (∃ v, exec i s = .next (s.raise (.memoryProtectionViolation v))) ∨
    (i = .invalid ∧ exec i s = .next (s.setStatus .halted)) := by
  have reg : ∀ (rd : RegIdx) (v npc : Word), writeAndGo s rd v npc =
      .next { s.setX rd v with pc := npc } := writeAndGo_running hr
  have ld : ∀ (n : AccessSize) (ext : Word → Word) (rd rs1 : RegIdx) (imm : BitVec 12),
      (∃ v, load n ext rd rs1 imm s = .next { s.setX rd v with pc := s.pc + 4#32 }) ∨
      (∃ v, load n ext rd rs1 imm s = .next (s.raise (.memoryProtectionViolation v))) := by
    intro n ext rd rs1 imm
    rcases load_cases n ext rd rs1 imm s with ⟨v, -, h⟩ | ⟨v, -, h⟩
    · exact .inl ⟨ext v, by rw [h, reg]; rfl⟩
    · exact .inr ⟨v, h⟩
  have st : ∀ (n : AccessSize) (rs2 rs1 : RegIdx) (imm : BitVec 12),
      (∃ a k v m, s.mem.writeN s.cfg.regionFill a k modeWrite v = .ok m ∧
        store n rs2 rs1 imm s = .next { s.setMem m with pc := s.pc + 4#32 }) ∨
      (∃ v, store n rs2 rs1 imm s = .next (s.raise (.memoryProtectionViolation v))) := by
    intro n rs2 rs1 imm
    rcases store_cases n rs2 rs1 imm s with ⟨m, hm, h⟩ | ⟨v, -, h⟩
    · exact .inl ⟨_, _, _, m, hm, by rw [h, commitPc_eq _ _ (by simpa using hr)]; rfl⟩
    · exact .inr ⟨v, h⟩
  have br : ∀ (c : BranchCond) (rs1 rs2 : RegIdx) (d : BitVec 13),
      ∃ npc, branch c rs1 rs2 d s = .next { s with pc := npc } := fun c rs1 rs2 d =>
    ⟨_, by rw [branch, commitPc_eq _ _ hr]⟩
  cases i with
  | ecall => exact absurd rfl he
  | invalid => exact .inr (.inr (.inr (.inr ⟨rfl, rfl⟩)))
  | lb rd rs1 imm | lh rd rs1 imm | lw rd rs1 imm | lbu rd rs1 imm | lhu rd rs1 imm =>
    rcases ld _ _ rd rs1 imm with ⟨v, h⟩ | ⟨v, h⟩
    · exact .inl ⟨v, _, h, fun _ => rfl, nofun, nofun⟩
    · exact .inr (.inr (.inr (.inl ⟨v, h⟩)))
  | sb rs2 rs1 imm | sh rs2 rs1 imm | sw rs2 rs1 imm =>
    rcases st _ rs2 rs1 imm with ⟨a, n, v, m, hm, h⟩ | ⟨v, h⟩
    · exact .inr (.inr (.inl ⟨a, n, v, m, hm, h, rfl⟩))
    · exact .inr (.inr (.inr (.inl ⟨v, h⟩)))
  | beq rs1 rs2 d | bne rs1 rs2 d | blt rs1 rs2 d | bge rs1 rs2 d | bltu rs1 rs2 d
  | bgeu rs1 rs2 d =>
    obtain ⟨npc, h⟩ := br _ rs1 rs2 d
    exact .inr (.inl ⟨npc, h, rfl⟩)
  | jal rd d => exact .inl ⟨_, _, reg _ _ _, by simp [transfers, Instr.mnemonic, row], nofun, nofun⟩
  | jalr rd rs1 imm =>
    exact .inl ⟨_, _, reg _ _ _, by simp [transfers, Instr.mnemonic, row], nofun, nofun⟩
  | _ => exact .inl ⟨_, _, reg _ _ _, fun _ => rfl, nofun, nofun⟩

/-- Every instruction answers a next state while the run goes on. -/
theorem exec_next (i : Instr) (s : State) (hr : s.status = .running) : ∃ t, exec i s = .next t := by
  by_cases he : i = .ecall
  · subst he; exact ⟨_, rfl⟩
  · rcases exec_cases i s hr he with ⟨v, npc, h, -⟩ | ⟨npc, h, -⟩ | ⟨a, n, v, m, -, h, -⟩ | ⟨v, h⟩ |
      ⟨-, h⟩
    exacts [⟨_, h⟩, ⟨_, h⟩, ⟨_, h⟩, ⟨_, h⟩, ⟨_, h⟩]

/-! ## The engine -/

/-- What a step can do (R141): nothing when the run has ended; the watchdog; a refused fetch; an illegal
word; or the instruction. -/
theorem step_cases {s t : State} (h : step s = .next t) :
    s.status = .running ∧
    ((s.cfg.watchdogBudget ≤ s.icount ∧ t = s.setStatus .watchdogExpired) ∨
      s.icount < s.cfg.watchdogBudget ∧
      ((∃ v, s.memFetch s.pc = .error v ∧ t = s.tick.raise (.memoryProtectionViolation v)) ∨
        ∃ w, s.memFetch s.pc = .ok w ∧
          ((∃ r, decodeWord w = .error r ∧ t = s.tick.raise (.illegalInstruction w)) ∨
            ∃ i, decodeWord w = .ok i ∧ exec i s.tick = .next t))) := by
  unfold step engineStep at h
  split at h
  · simp at h
  · rename_i hr
    refine ⟨by simpa using hr, ?_⟩
    split at h
    · exact .inl ⟨‹_›, by simpa using h.symm⟩
    · refine .inr ⟨by omega, ?_⟩
      unfold fetchAndExecute at h
      change (match s.memFetch s.pc with
        | .error v => _
        | .ok w => _) = _ at h
      cases hf : s.memFetch s.pc with
      | error v =>
        rw [hf] at h
        exact .inl ⟨v, rfl, by simpa using h.symm⟩
      | ok w =>
        rw [hf] at h
        refine .inr ⟨w, rfl, ?_⟩
        simp only at h
        split at h
        · exact .inl ⟨_, ‹_›, by simpa using h.symm⟩
        · exact .inr ⟨_, ‹_›, h⟩

end Sys2Proof.Machine
end

