-- ==== Sys2Proof/Laws/Linker.lean ====
section
/-! SUPPORT. What each shared operation of the loader port, the encoder and the linker can do, said
once. -/

namespace Sys2Proof.Machine

open Sys2Proof State

/-- A loader write that is not refused is one gated write of the address space (R69). -/
theorem hostLoaderWrite_next {s t : State} {a v : Word} {n : AccessSize}
    (h : hostLoaderWrite a n v s = .next t) :
    ∃ m, s.mem.writeN s.cfg.regionFill a n.bytes modeLoader v = .ok m ∧ t = s.setMem m := by
  simp only [hostLoaderWrite, State.loaderWrite] at h
  cases hm : s.mem.writeN s.cfg.regionFill a n.bytes modeLoader v with
  | error e => simp [hm] at h
  | ok m => exact ⟨m, rfl, by simpa [hm] using h.symm⟩

/-- An emission that is not refused is one such write at the cursor, and the cursor's advance (R107). -/
theorem emitWord_next {s t : State} {v : Word} (h : emitWord v s = .next t) :
    ∃ m, s.mem.writeN s.cfg.regionFill s.cursor 4 modeLoader v = .ok m ∧
      t = (s.setMem m).setCursor (s.cursor + 4) := by
  simp only [emitWord, State.loaderWrite] at h
  cases hm : s.mem.writeN s.cfg.regionFill s.cursor AccessSize.word.bytes modeLoader v with
  | error e => simp [hm] at h
  | ok m => exact ⟨m, hm, by simpa [hm] using h.symm⟩

/-- An emission where the four bytes are in one region. -/
theorem emitWord_of_admits {s : State} (hw : s.MemWf) (v : Word) (h : s.Admits s.cursor 4 modeLoader) :
    ∃ m, s.mem.writeN s.cfg.regionFill s.cursor 4 modeLoader v = .ok m ∧
      emitWord v s = .next ((s.setMem m).setCursor (s.cursor + 4)) := by
  have hm := writeN_of_admits hw (by decide) v h
  exact ⟨_, hm, by simp [emitWord, State.loaderWrite, AccessSize.bytes, hm]⟩

/-- One byte through the loader port: written where the address is in a region, refused as unmapped where
it is in none (R69). -/
theorem loaderWrite_byte_of_admits {s : State} (hw : s.MemWf) {a : Word} (v : Word)
    (h : s.Admits a 1 modeLoader) :
    ∃ m, s.mem.writeN s.cfg.regionFill a 1 modeLoader v = .ok m ∧
      s.loaderWrite a .byte v = .ok (s.setMem m) := by
  have hm := writeN_of_admits hw (Nat.le_refl 1) v h
  exact ⟨_, hm, by simp [State.loaderWrite, AccessSize.bytes, hm]⟩

theorem loaderWrite_byte_refused {s : State} (hw : s.MemWf) {a : Word} (v : Word)
    (h : ¬ s.Admits a 1 modeLoader) :
    s.loaderWrite a .byte v = .error ⟨.unmapped, a, modeLoader⟩ := by
  obtain ⟨why, hy, hm⟩ := writeN_refused hw v h
  obtain rfl := hy.1 h
  simp [State.loaderWrite, AccessSize.bytes, hm]

/-- The address of byte `k + 1` from `a` is that of byte `k` from `a + 1`. -/
theorem add_one_add (a : Word) (k : Nat) :
    a + 1 + BitVec.ofNat 32 k = a + BitVec.ofNat 32 (k + 1) := by
  rw [BitVec.add_assoc]
  congr 1
  exact BitVec.eq_of_toNat_eq (by simp [BitVec.toNat_add, Nat.add_comm])

/-- The bytes of `emit_bytes` are written when every address is in a region. -/
theorem writeBytesAt_of_admits {bs : List Byte} {a : Word} {s : State} (hw : s.MemWf)
    (h : ∀ k < bs.length, s.Admits (a + BitVec.ofNat 32 k) 1 modeLoader) :
    ∃ t, writeBytesAt a bs s = .next t := by
  induction bs generalizing a s with
  | nil => exact ⟨s, rfl⟩
  | cons b bs ih =>
    obtain ⟨m, hm, hl⟩ := loaderWrite_byte_of_admits hw (b.setWidth 32)
      (by simpa using h 0 (by simp))
    obtain ⟨t, ht⟩ := ih (a := a + 1) (s := s.setMem m) (wf_writeN hw hm) fun k hk => by
      rw [add_one_add, admits_congr (writeN_regions hm)]
      exact h (k + 1) (by simpa using hk)
    exact ⟨t, by simp only [writeBytesAt, hl, ht]⟩

/-- The first byte whose address is in no region refuses the whole (log entry 12). -/
theorem writeBytesAt_refused {bs : List Byte} {a : Word} {s : State} (hw : s.MemWf) {k : Nat}
    (hk : k < bs.length) (h : ∀ j < k, s.Admits (a + BitVec.ofNat 32 j) 1 modeLoader)
    (hn : ¬ s.Admits (a + BitVec.ofNat 32 k) 1 modeLoader) :
    writeBytesAt a bs s =
      .refused (.loaderAccess ⟨.unmapped, a + BitVec.ofNat 32 k, modeLoader⟩) := by
  induction bs generalizing a s k with
  | nil => simp at hk
  | cons b bs ih =>
    cases k with
    | zero =>
      have hl := loaderWrite_byte_refused hw (b.setWidth 32) hn
      simp only [BitVec.add_zero] at hl ⊢
      simp [writeBytesAt, hl]
    | succ k =>
      obtain ⟨m, hm, hl⟩ := loaderWrite_byte_of_admits hw (b.setWidth 32)
        (by simpa using h 0 (by simp))
      have keep : ∀ c, (s.setMem m).Admits c 1 modeLoader ↔ s.Admits c 1 modeLoader := fun c =>
        admits_congr (writeN_regions hm) c 1 modeLoader
      rw [← add_one_add] at hn ⊢
      have rest := ih (a := a + 1) (s := s.setMem m) (wf_writeN hw hm) (by simpa using hk)
        (fun j hj => (keep _).2 (by rw [add_one_add]; exact h (j + 1) (by omega)))
        (fun hc => hn ((keep _).1 hc))
      simp only [writeBytesAt, hl, rest]

/-- What a patch that is not refused leaves (R321 to R325): one more diagnostic, or one word written at
the relocation's site. -/
theorem patch_next {r : Reloc} {s t : State} (h : patch r s = .next t) :
    (∃ d, t = s.diagnose d) ∨
      ∃ v m, s.mem.writeN s.cfg.regionFill r.siteOffset 4 modeLoader v = .ok m ∧ t = s.setMem m := by
  have write : ∀ {f}, patchWord r.siteOffset f s = .next t →
      ∃ v m, s.mem.writeN s.cfg.regionFill r.siteOffset 4 modeLoader v = .ok m ∧
        t = s.setMem m := by
    intro f h
    unfold patchWord at h
    split at h
    · simp at h
    · exact ⟨_, hostLoaderWrite_next h⟩
  have report : ∀ {d}, (Host.Outcome.next (s.diagnose d) : StepResult) = .next t →
      ∃ d, t = s.diagnose d := fun h => ⟨_, by simpa using h.symm⟩
  simp only [patch, withTarget] at h
  split at h
  · exact .inl (report h)
  · split at h
    · exact .inr (write h)
    · exact .inr (write h)
    · exact .inr ⟨_, hostLoaderWrite_next h⟩
    · exact .inr (write h)
    · split at h
      · exact .inl (report h)
      · split at h
        · exact .inl (report h)
        · exact .inr (write h)

end Sys2Proof.Machine
end

