-- ==== Sys2Proof/Tests/Slice0.lean ====
section
/-! SUPPORT. The model's own tests. Expected values are the spec's worked examples and vectors
(`95_test_vectors.md`, `96_test_vectors_machine.md`, cited by their V numbers) and the examples inside the
rules. The second half shows, for every statement of the certificate, inputs that meet its hypotheses. -/

namespace Sys2Proof.Tests

open Sys2Proof Sys2Proof.Machine

/-! ## Helpers -/

/-- The layout T of `95_test_vectors.md`: code at `0x1000` with Execute, data at `0x3000` with Read and
Write, a Read-only region at `0x5000`. -/
def layoutT : State :=
  { State.reset with
    pc := 0x1000
    cursor := 0x1000
    mem := ⟨[⟨0x1000, 4096, 1⟩, ⟨0x3000, 4096, 6⟩, ⟨0x5000, 4096, 4⟩],
      [(0x3000, 0x01), (0x3001, 0x7F), (0x3002, 0xFF), (0x3003, 0x80),
       (0x3004, 0xBE), (0x3005, 0xBA), (0x3006, 0xFE), (0x3007, 0xCA)]⟩ }

def preset (s : State) : List (RegIdx × Word) → State
  | [] => s
  | (i, v) :: rest => preset (s.setX i v) rest

/-- Layout T with a word at `pc`, and registers preset. -/
def placed (pc : Word) (w : Nat) (regs : List (RegIdx × Word)) : State :=
  preset (State.withFetchWord { layoutT with pc := pc } 32 w) regs

def observe {α : Type} (f : State → α) : StepResult → Option α
  | .next s => some (f s)
  | .fault _ => none
  | .refused _ => none

def regAfter (s : State) (i : RegIdx) : Option Word := observe (fun t => t.x i) (step s)
def pcAfter (s : State) : Option Word := observe State.pc (step s)
def statusAfter (s : State) : Option RunStatus := observe State.status (step s)
def wordAfter (s : State) (a : Nat) : Option Word := observe (fun t => t.wordAt a) (step s)

/-! ## The checks of WellFormed refuse an ill-formed term (R101, R103) -/

theorem test_wf_odd_beq : Instr.wf (.beq 1 2 9) = false ∧ Instr.wf (.beq 1 2 8) = true := by decide
theorem test_wf_odd_bne : Instr.wf (.bne 1 2 9) = false ∧ Instr.wf (.bne 1 2 8) = true := by decide
theorem test_wf_odd_blt : Instr.wf (.blt 1 2 9) = false ∧ Instr.wf (.blt 1 2 8) = true := by decide
theorem test_wf_odd_bge : Instr.wf (.bge 1 2 9) = false ∧ Instr.wf (.bge 1 2 8) = true := by decide
theorem test_wf_odd_bltu : Instr.wf (.bltu 1 2 9) = false ∧ Instr.wf (.bltu 1 2 8) = true := by decide
theorem test_wf_odd_bgeu : Instr.wf (.bgeu 1 2 9) = false ∧ Instr.wf (.bgeu 1 2 8) = true := by decide
theorem test_wf_odd_jal : Instr.wf (.jal 1 9) = false ∧ Instr.wf (.jal 1 8) = true := by decide

/-! ## Every constructor's decoding, by a word written out from its encoding (V25 to V71) -/

theorem test_decode_register_integer :
    decodeTableWord 32 0b0000000_11111_10101_000_10001_0110011 = some (.add 17 21 31) ∧
    decodeTableWord 32 0b0100000_11111_10101_000_10001_0110011 = some (.sub 17 21 31) ∧
    decodeTableWord 32 0b0000000_11111_10101_001_10001_0110011 = some (.sll 17 21 31) ∧
    decodeTableWord 32 0b0000000_11111_10101_010_10001_0110011 = some (.slt 17 21 31) ∧
    decodeTableWord 32 0b0000000_11111_10101_011_10001_0110011 = some (.sltu 17 21 31) ∧
    decodeTableWord 32 0b0000000_11111_10101_100_10001_0110011 = some (.xor 17 21 31) ∧
    decodeTableWord 32 0b0000000_11111_10101_101_10001_0110011 = some (.srl 17 21 31) ∧
    decodeTableWord 32 0b0100000_11111_10101_101_10001_0110011 = some (.sra 17 21 31) ∧
    decodeTableWord 32 0b0000000_11111_10101_110_10001_0110011 = some (.or 17 21 31) ∧
    decodeTableWord 32 0b0000000_11111_10101_111_10001_0110011 = some (.and 17 21 31) := by
  decide

theorem test_decode_multiply_divide :
    decodeTableWord 32 0b0000001_11111_10101_000_10001_0110011 = some (.mul 17 21 31) ∧
    decodeTableWord 32 0b0000001_11111_10101_001_10001_0110011 = some (.mulh 17 21 31) ∧
    decodeTableWord 32 0b0000001_11111_10101_010_10001_0110011 = some (.mulhsu 17 21 31) ∧
    decodeTableWord 32 0b0000001_11111_10101_011_10001_0110011 = some (.mulhu 17 21 31) ∧
    decodeTableWord 32 0b0000001_11111_10101_100_10001_0110011 = some (.div 17 21 31) ∧
    decodeTableWord 32 0b0000001_11111_10101_101_10001_0110011 = some (.divu 17 21 31) ∧
    decodeTableWord 32 0b0000001_11111_10101_110_10001_0110011 = some (.rem 17 21 31) ∧
    decodeTableWord 32 0b0000001_11111_10101_111_10001_0110011 = some (.remu 17 21 31) := by
  decide

theorem test_decode_register_immediate :
    decodeTableWord 32 0b111111111110_10101_000_10001_0010011 = some (.addi 17 21 (-2)) ∧
    decodeTableWord 32 0b111111111110_10101_010_10001_0010011 = some (.slti 17 21 (-2)) ∧
    decodeTableWord 32 0b111111111110_10101_011_10001_0010011 = some (.sltiu 17 21 (-2)) ∧
    decodeTableWord 32 0b111111111110_10101_100_10001_0010011 = some (.xori 17 21 (-2)) ∧
    decodeTableWord 32 0b111111111110_10101_110_10001_0010011 = some (.ori 17 21 (-2)) ∧
    decodeTableWord 32 0b111111111110_10101_111_10001_0010011 = some (.andi 17 21 (-2)) ∧
    decodeTableWord 32 0b0000000_11110_10101_001_10001_0010011 = some (.slli 17 21 30) ∧
    decodeTableWord 32 0b0000000_11110_10101_101_10001_0010011 = some (.srli 17 21 30) ∧
    decodeTableWord 32 0b0100000_11110_10101_101_10001_0010011 = some (.srai 17 21 30) := by
  decide

theorem test_decode_loads :
    decodeTableWord 32 0b111111111110_10101_000_10001_0000011 = some (.lb 17 21 (-2)) ∧
    decodeTableWord 32 0b111111111110_10101_001_10001_0000011 = some (.lh 17 21 (-2)) ∧
    decodeTableWord 32 0b111111111110_10101_010_10001_0000011 = some (.lw 17 21 (-2)) ∧
    decodeTableWord 32 0b111111111110_10101_100_10001_0000011 = some (.lbu 17 21 (-2)) ∧
    decodeTableWord 32 0b111111111110_10101_101_10001_0000011 = some (.lhu 17 21 (-2)) := by
  decide

theorem test_decode_stores :
    decodeTableWord 32 0b1111111_11111_10101_000_11110_0100011 = some (.sb 31 21 (-2)) ∧
    decodeTableWord 32 0b1111111_11111_10101_001_11110_0100011 = some (.sh 31 21 (-2)) ∧
    decodeTableWord 32 0b1111111_11111_10101_010_11110_0100011 = some (.sw 31 21 (-2)) := by
  decide

theorem test_decode_branches :
    decodeTableWord 32 0b1_111111_11111_10101_000_1111_1_1100011 = some (.beq 21 31 (-2)) ∧
    decodeTableWord 32 0b1_111111_11111_10101_001_1111_1_1100011 = some (.bne 21 31 (-2)) ∧
    decodeTableWord 32 0b1_111111_11111_10101_100_1111_1_1100011 = some (.blt 21 31 (-2)) ∧
    decodeTableWord 32 0b1_111111_11111_10101_101_1111_1_1100011 = some (.bge 21 31 (-2)) ∧
    decodeTableWord 32 0b1_111111_11111_10101_110_1111_1_1100011 = some (.bltu 21 31 (-2)) ∧
    decodeTableWord 32 0b1_111111_11111_10101_111_1111_1_1100011 = some (.bgeu 21 31 (-2)) := by
  decide

theorem test_decode_upper_and_jumps :
    decodeTableWord 32 0b11111111111111111110_10001_0110111 = some (.lui 17 0xFFFFE) ∧
    decodeTableWord 32 0b11111111111111111110_10001_0010111 = some (.auipc 17 0xFFFFE) ∧
    decodeTableWord 32 0b1_1111111111_1_11111111_10001_1101111 = some (.jal 17 (-2)) ∧
    decodeTableWord 32 0b111111111110_10101_000_10001_1100111 = some (.jalr 17 21 (-2)) := by
  decide

theorem test_decode_system :
    decodeTableWord 32 0b000000000000_00000_000_00000_1110011 = some .ecall ∧
    decodeTableWord 32 0 = some .invalid := by
  decide

/-- The encoder gives the vectors' words (V35, V51, V59, V65, V67, V68, V70, V71). -/
theorem test_encode_words :
    encode (.mul 17 21 31) = 0x03FA88B3 ∧ encode (.srai 17 21 30) = 0x41EAD893 ∧
    encode (.sw 31 21 (-2)) = 0xFFFAAF23 ∧ encode (.bgeu 21 31 (-2)) = 0xFFFAFFE3 ∧
    encode (.auipc 17 0xFFFFE) = 0xFFFFE897 ∧ encode (.jal 17 (-2)) = 0xFFFFF8EF ∧
    encode .ecall = 0x00000073 ∧ encode .invalid = 0 := by
  decide

/-- V246 to V272: illegal words. -/
theorem test_illegal_words :
    ([0x00100073, 0x0000000F, 0x0000100F, 0x30200073, 0x10500073, 0xC0002573,
      0x000000F3, 0x00008073, 0x00200073, 0x04208033, 0x40209033, 0x42208033,
      0x02009013, 0x6000D013, 0x00003003, 0x00006003, 0x00003023, 0x00002063,
      0x00001067, 0x00000001, 0x00010000, 0xFFFFFFFF, 0x0000302F, 0x00000053,
      0x00000007, 0x00004501, 0x0000001B] : List Nat).map (decodeTableWord 32) =
      List.replicate 27 none := by
  decide

/-- Fewer than four bytes are no instruction. -/
theorem test_truncated_bytes : decodeBytes [0x13, 0x00, 0x00] = .error .truncated := by rfl

/-- V12 to V18. -/
theorem test_extract :
    extractU 0xFFEAA893 fOpcode = 0x13 ∧ extractS 0xFFEAA893 fOpcode = 19 ∧
    extractU 0xFFEAA893 fRd = 0x11 ∧ extractS 0xFFEAA893 fRd = -15 ∧
    extractS 0xFFEAA893 fFunct3 = 2 ∧ extractS 0xFFEAA893 fRs1 = -11 ∧
    extractU 0xFFEAA893 fImmI = 0xFFE ∧ extractS 0xFFEAA893 fImmI = -2 ∧
    extractU 0xFFEAA893 fImmB12 = 1 ∧ extractS 0xFFEAA893 fImmB12 = -1 ∧
    extractS 0xFFEAA893 ⟨0, 32, by decide⟩ = 0xFFEAA893 := by
  decide

/-- V19 to V21. -/
theorem test_pack :
    pack 0 0xFFFFFFFE fImmI = 0xFFE00000 ∧ pack 0x13 17 fRd = 0x893 ∧ pack 0 33 fRd = 0x80 := by
  decide

/-- V22 to V24, times 2 for B and J. -/
theorem test_scrambled_immediates :
    immB 0xFE208EE3 = -4 ∧ immJ 0x001000EF = 2048 ∧ immS 0x80942023 = -2048 := by
  decide

/-- V72, V76 to V79, V82, V85 to V88, V92, V94: operands are masked to their fields. -/
theorem test_truncation :
    encWord .addi 1 2 0 4095 = 0xFFF10093 ∧ encWord .addi 1 2 0 2048 = 0x80010093 ∧
    encWord .addi 33 2 0 0 = 0x00010093 ∧ encWord .slli 1 2 0 33 = 0x00111093 ∧
    encWord .sw 0 8 9 (-2048) = 0x80942023 ∧ encWord .beq 0 1 2 9 = 0x00208463 ∧
    encWord .beq 0 1 2 (-4096) = 0x80208063 ∧ encWord .beq 0 1 2 4096 = 0x80208063 ∧
    encWord .beq 0 1 2 2048 = 0x002080E3 ∧ encWord .lui 1 0 0 0x123456 = 0x234560B7 ∧
    encWord .jal 1 0 0 1048574 = 0x7FFFF0EF ∧ encWord .jal 1 0 0 1048576 = 0x800000EF := by
  decide

/-! ## One step of each instruction -/

/-- V95. -/
theorem test_add :
    regAfter (placed 0x1000 0x002081B3 [(1, 0x7FFFFFFF), (2, 0x00000001)]) 3 = some 0x80000000 := by decide
/-- V97. -/
theorem test_sub :
    regAfter (placed 0x1000 0x402081B3 [(1, 0x00000000), (2, 0x00000001)]) 3 = some 0xFFFFFFFF := by decide
/-- V100. -/
theorem test_sll :
    regAfter (placed 0x1000 0x002091B3 [(1, 0x00000001), (2, 0x00000020)]) 3 = some 0x00000001 := by decide
/-- V102. -/
theorem test_slt :
    regAfter (placed 0x1000 0x0020A1B3 [(1, 0x80000000), (2, 0x7FFFFFFF)]) 3 = some 0x00000001 := by decide
/-- V104. -/
theorem test_sltu :
    regAfter (placed 0x1000 0x0020B1B3 [(1, 0x80000000), (2, 0x7FFFFFFF)]) 3 = some 0x00000000 := by decide
/-- V106. -/
theorem test_xor :
    regAfter (placed 0x1000 0x0020C1B3 [(1, 0xFF00FF00), (2, 0x0FF00FF0)]) 3 = some 0xF0F0F0F0 := by decide
/-- V108. -/
theorem test_srl :
    regAfter (placed 0x1000 0x0020D1B3 [(1, 0x80000000), (2, 0x0000003F)]) 3 = some 0x00000001 := by decide
/-- V110. -/
theorem test_sra :
    regAfter (placed 0x1000 0x4020D1B3 [(1, 0x80000000), (2, 0x00000004)]) 3 = some 0xF8000000 := by decide
/-- V112. -/
theorem test_or :
    regAfter (placed 0x1000 0x0020E1B3 [(1, 0xF0F00000), (2, 0x0F0F0000)]) 3 = some 0xFFFF0000 := by decide
/-- V113. -/
theorem test_and :
    regAfter (placed 0x1000 0x0020F1B3 [(1, 0xFFFF0000), (2, 0x0FF00FF0)]) 3 = some 0x0FF00000 := by decide
/-- V117. -/
theorem test_mul :
    regAfter (placed 0x1000 0x022081B3 [(1, 0x00000007), (2, 0xFFFFFFFD)]) 3 = some 0xFFFFFFEB := by decide
/-- V122. -/
theorem test_mulh :
    regAfter (placed 0x1000 0x022091B3 [(1, 0xFFFFFFFF), (2, 0x00000001)]) 3 = some 0xFFFFFFFF := by decide
/-- V125. -/
theorem test_mulhsu :
    regAfter (placed 0x1000 0x0220A1B3 [(1, 0x80000000), (2, 0xFFFFFFFF)]) 3 = some 0x80000000 := by decide
/-- V126. -/
theorem test_mulhu :
    regAfter (placed 0x1000 0x0220B1B3 [(1, 0xFFFFFFFF), (2, 0xFFFFFFFF)]) 3 = some 0xFFFFFFFE := by decide
/-- V129. -/
theorem test_div :
    regAfter (placed 0x1000 0x0220C1B3 [(1, 0x00000007), (2, 0xFFFFFFFE)]) 3 = some 0xFFFFFFFD := by decide
/-- V131. -/
theorem test_div_2 :
    regAfter (placed 0x1000 0x0220C1B3 [(1, 0x80000000), (2, 0xFFFFFFFF)]) 3 = some 0x80000000 := by decide
/-- V132. -/
theorem test_divu :
    regAfter (placed 0x1000 0x0220D1B3 [(1, 0xFFFFFFF9), (2, 0x00000002)]) 3 = some 0x7FFFFFFC := by decide
/-- V133. -/
theorem test_divu_2 :
    regAfter (placed 0x1000 0x0220D1B3 [(1, 0x00000005), (2, 0x00000000)]) 3 = some 0xFFFFFFFF := by decide
/-- V134. -/
theorem test_rem :
    regAfter (placed 0x1000 0x0220E1B3 [(1, 0xFFFFFFF9), (2, 0x00000002)]) 3 = some 0xFFFFFFFF := by decide
/-- V137. -/
theorem test_rem_2 :
    regAfter (placed 0x1000 0x0220E1B3 [(1, 0x80000000), (2, 0xFFFFFFFF)]) 3 = some 0x00000000 := by decide
/-- V138. -/
theorem test_remu :
    regAfter (placed 0x1000 0x0220F1B3 [(1, 0xFFFFFFF9), (2, 0x00000002)]) 3 = some 0x00000001 := by decide
/-- V139. -/
theorem test_remu_2 :
    regAfter (placed 0x1000 0x0220F1B3 [(1, 0x00000005), (2, 0x00000000)]) 3 = some 0x00000005 := by decide
/-- V142. -/
theorem test_addi :
    regAfter (placed 0x1000 0x80030293 [(6, 0x00000000)]) 5 = some 0xFFFFF800 := by decide
/-- V145. -/
theorem test_slti :
    regAfter (placed 0x1000 0x00032293 [(6, 0xFFFFFFFF)]) 5 = some 0x00000001 := by decide
/-- V149. -/
theorem test_sltiu :
    regAfter (placed 0x1000 0xFFF33293 [(6, 0x00000005)]) 5 = some 0x00000001 := by decide
/-- V151. -/
theorem test_xori :
    regAfter (placed 0x1000 0xFFF34293 [(6, 0x0000FFFF)]) 5 = some 0xFFFF0000 := by decide
/-- V153. -/
theorem test_ori :
    regAfter (placed 0x1000 0x80036293 [(6, 0x00000000)]) 5 = some 0xFFFFF800 := by decide
/-- V155. -/
theorem test_andi :
    regAfter (placed 0x1000 0xFF037293 [(6, 0x12345678)]) 5 = some 0x12345670 := by decide
/-- V156. -/
theorem test_slli :
    regAfter (placed 0x1000 0x01F31293 [(6, 0x00000001)]) 5 = some 0x80000000 := by decide
/-- V159. -/
theorem test_srli :
    regAfter (placed 0x1000 0x01F35293 [(6, 0x80000000)]) 5 = some 0x00000001 := by decide
/-- V160. -/
theorem test_srai :
    regAfter (placed 0x1000 0x40435293 [(6, 0x80000000)]) 5 = some 0xF8000000 := by decide
/-- V168. -/
theorem test_lb :
    regAfter (placed 0x1000 0x00340383 [(8, 0x00003000)]) 7 = some 0xFFFFFF80 := by decide
/-- V170. -/
theorem test_lbu :
    regAfter (placed 0x1000 0x00344383 [(8, 0x00003000)]) 7 = some 0x00000080 := by decide
/-- V172. -/
theorem test_lh :
    regAfter (placed 0x1000 0x00241383 [(8, 0x00003000)]) 7 = some 0xFFFF80FF := by decide
/-- V175. -/
theorem test_lhu :
    regAfter (placed 0x1000 0x00345383 [(8, 0x00003000)]) 7 = some 0x0000BE80 := by decide
/-- V178. -/
theorem test_lw :
    regAfter (placed 0x1000 0x00242383 [(8, 0x00003000)]) 7 = some 0xBABE80FF := by decide
/-- V184: past the end of the region. -/
theorem test_lw_2 :
    statusAfter (placed 0x1000 0x00042383 [(8, 0x00003FFE)]) =
      some (.faulted (.memoryProtectionViolation ⟨.unmapped, 0x00003FFE, 4⟩) 0x1000) := by decide
/-- V194. -/
theorem test_sb :
    wordAfter (placed 0x1000 0x00940023 [(9, 0x12345678), (8, 0x00003000)]) 0x00003000 = some 0x80FF7F78 := by decide
/-- V197. -/
theorem test_sh :
    wordAfter (placed 0x1000 0x009410A3 [(9, 0x12345678), (8, 0x00003000)]) 0x00003000 = some 0x80567801 := by decide
/-- V199. -/
theorem test_sw :
    wordAfter (placed 0x1000 0x00942023 [(9, 0xAABBCCDD), (8, 0x00003001)]) 0x00003000 = some 0xBBCCDD01 := by decide
/-- V202: nothing is written past the end of the region, not even what fits. -/
theorem test_sw_2 :
    observe (fun t => (t.status, t.byteAt 0x3FFE)) (step (placed 0x1000 0x00942023 [(9, 0xDEADBEEF), (8, 0x3FFE)])) =
      some (.faulted (.memoryProtectionViolation ⟨.unmapped, 0x3FFE, 2⟩) 0x1000, 0) := by decide
/-- V207. -/
theorem test_beq :
    pcAfter (placed 0x00001000 0x00208463 [(1, 0x00000005), (2, 0x00000005)]) = some 0x00001008 := by decide
/-- V208. -/
theorem test_beq_2 :
    pcAfter (placed 0x00001000 0x00208463 [(1, 0x00000005), (2, 0x00000006)]) = some 0x00001004 := by decide
/-- V209. -/
theorem test_bne :
    pcAfter (placed 0x00001000 0x00209863 [(1, 0x00000001), (2, 0x00000002)]) = some 0x00001010 := by decide
/-- V210. -/
theorem test_bne_2 :
    pcAfter (placed 0x00001000 0x00209863 [(1, 0x00000003), (2, 0x00000003)]) = some 0x00001004 := by decide
/-- V211. -/
theorem test_blt :
    pcAfter (placed 0x00002000 0x8020C063 [(1, 0xFFFFFFFF), (2, 0x00000000)]) = some 0x00001000 := by decide
/-- V213. -/
theorem test_blt_2 :
    pcAfter (placed 0x00001000 0x0020C463 [(1, 0x00000005), (2, 0x00000005)]) = some 0x00001004 := by decide
/-- V214. -/
theorem test_bge :
    pcAfter (placed 0x00001000 0x7E20DFE3 [(1, 0x00000005), (2, 0x00000005)]) = some 0x00001FFE := by decide
/-- V215. -/
theorem test_bge_2 :
    pcAfter (placed 0x00001000 0x7E20DFE3 [(1, 0x80000000), (2, 0x00000000)]) = some 0x00001004 := by decide
/-- V216. -/
theorem test_bltu :
    pcAfter (placed 0x00001000 0x0020E0E3 [(1, 0x00000001), (2, 0xFFFFFFFF)]) = some 0x00001800 := by decide
/-- V217. -/
theorem test_bltu_2 :
    pcAfter (placed 0x00001000 0x0020E0E3 [(1, 0xFFFFFFFF), (2, 0x00000001)]) = some 0x00001004 := by decide
/-- V218. -/
theorem test_bgeu :
    pcAfter (placed 0x00001000 0xFE20FFE3 [(1, 0x00000007), (2, 0x00000007)]) = some 0x00000FFE := by decide
/-- V219. -/
theorem test_bgeu_2 :
    pcAfter (placed 0x00001000 0xFE20FFE3 [(1, 0x00000000), (2, 0x00000001)]) = some 0x00001004 := by decide
/-- V223. -/
theorem test_lui :
    observe (fun t => (t.x 10, t.pc)) (step (placed 0x00001000 0x12345537 [])) = some (0x12345000, 0x00001004) := by decide
/-- V227. -/
theorem test_auipc :
    observe (fun t => (t.x 10, t.pc)) (step (placed 0x00001000 0xFFFFF517 [(10, 0x00000077)])) = some (0x00000000, 0x00001004) := by decide
/-- V229. -/
theorem test_jal :
    observe (fun t => (t.x 1, t.pc)) (step (placed 0x00001000 0x008000EF [])) = some (0x00001004, 0x00001008) := by decide
/-- V230: register 0 is the link. -/
theorem test_jal_2 :
    observe (fun t => (t.regs, t.pc)) (step (placed 0x00001004 0xFFDFF06F [])) = some (Config.initRegs, 0x00001000) := by decide
/-- V236. -/
theorem test_jalr :
    observe (fun t => (t.x 1, t.pc)) (step (placed 0x00001000 0x004080E7 [(1, 0x00003000)])) = some (0x00001004, 0x00003004) := by decide
/-- V237. -/
theorem test_jalr_2 :
    observe (fun t => (t.x 5, t.pc)) (step (placed 0x00001000 0xFFF302E7 [(6, 0x00000000)])) = some (0x00001004, 0xFFFFFFFE) := by decide
/-- V240: the exit code is register 10 read as signed; `pc` stays. -/
theorem test_ecall :
    observe (fun t => (t.status, t.pc, t.icount)) (step (placed 0x1000 0x00000073 [(10, 0xFFFFFFFF)])) =
      some (.exited (-1), 0x1000, 1) := by decide
/-- V244: no handler attached. -/
theorem test_ecall_2 :
    statusAfter { placed 0x1000 0x00000073 [(17, 1)] with cfg := { Params.default with handlerAttached := false } } =
      some (.faulted (.unimplementedSyscall 1) 0x1000) := by decide
/-- V245. -/
theorem test_invalid :
    observe (fun t => (t.status, t.pc, t.icount)) (step (placed 0x1000 0 [])) = some (.halted, 0x1000, 1) := by
  decide

/-! ## The engine, memory, encoder and linker -/

/-- V246: a fetched illegal word. -/
theorem test_illegal_step :
    statusAfter (placed 0x1000 0x00100073 []) = some (.faulted (.illegalInstruction 0x00100073) 0x1000) := by decide
/-- V277, V278, V280: refused fetches, in the three ways. -/
theorem test_refused_fetches :
    statusAfter { layoutT with pc := 0x2000 } =
      some (.faulted (.memoryProtectionViolation ⟨.unmapped, 0x2000, 1⟩) 0x2000) ∧
    statusAfter { layoutT with pc := 0x3000 } =
      some (.faulted (.memoryProtectionViolation ⟨.modeMissing, 0x3000, 1⟩) 0x3000) ∧
    statusAfter { layoutT with pc := 0x1FFE } =
      some (.faulted (.memoryProtectionViolation ⟨.unmapped, 0x1FFE, 1⟩) 0x1FFE) := by
  decide
/-- V282: a misaligned `pc` is fetched as it stands. -/
theorem test_misaligned_pc :
    statusAfter { layoutT with pc := 0x1002, mem := ⟨[⟨0x1000, 4096, 1⟩],
      [(0x1000, 0x93), (0x1002, 0x10), (0x1004, 0x13), (0x1005, 0x01), (0x1006, 0x20)]⟩ } =
      some (.faulted (.illegalInstruction 0x01130010) 0x1002) := by decide
/-- V289: the watchdog is tested before the fetch. -/
theorem test_watchdog :
    observe (fun t => (t.status, t.icount)) (step { layoutT with pc := 0x2000, icount := 2000 }) =
      some (.watchdogExpired, 2000) := by decide
/-- V292 to V296, V302 to V304, on one region at `0x1000`. -/
theorem test_allocate :
    Memory.allocateAnywhere 4096 ⟨[], []⟩ 1 7 = some (0x1000, ⟨[⟨0x1000, 4096, 7⟩], []⟩) ∧
    Memory.allocate 4096 ⟨[⟨0x1000, 4096, 7⟩], []⟩ 0x1000 1 1 = none ∧
    Memory.allocate 4096 ⟨[⟨0x1000, 4096, 7⟩], []⟩ 0 0x2000 6 = none ∧
    Memory.allocate 4096 ⟨[⟨0x1000, 4096, 7⟩], []⟩ 0 0x1000 6 =
      some ⟨[⟨0, 4096, 6⟩, ⟨0x1000, 4096, 7⟩], []⟩ ∧
    Memory.allocate 4096 ⟨[⟨0x1000, 4096, 7⟩], []⟩ 0x1800 16 6 = none ∧
    Memory.allocate 4096 ⟨[⟨0x1000, 4096, 7⟩], []⟩ 0xFFFFE000 0x2001 6 = none ∧
    Memory.allocateAnywhere 4096 ⟨[⟨0xFFFFF000, 4096, 6⟩], []⟩ 1 1 = none := by
  decide
/-- V317 to V319: every bit of the request must be in the mode. -/
theorem test_check_modes :
    (layoutT.mem.check 0x3000 1 6).isOk = true ∧ (layoutT.mem.check 0x5000 1 6).isOk = false ∧
    (layoutT.mem.check 0x3000 1 7).isOk = false := by
  decide
/-- V9: a forward `beq` to a label 8 bytes later links to the word of `beq x1, x2, 8`. -/
theorem test_link_branch :
    observe (fun t => t.wordAt 0x1000)
      (andThen (emitBranchTo .beq 1 2 (.auto 9) layoutT) fun s =>
        relocate (s.addSymbol (.auto 9) 0x1008)) = some 0x00208463 := by decide
/-- V322: the high part is rounded up where the low part is negative. -/
theorem test_link_hi_lo :
    observe (fun t => (t.wordAt 0x1000, t.wordAt 0x1004))
      (andThen (emitAuipcHi 10 (.auto 9) layoutT) fun s =>
        andThen (emitWithLo .addi 10 10 (-4) s) fun t => relocate (t.addSymbol (.auto 9) 0x1800)) =
      some (0x00001517, 0x80050513) := by decide
/-- V334: a low part with no `auipc` before it. -/
theorem test_link_missing_hi :
    observe State.diagnostics
      (andThen (emitWithLo .addi 10 10 (-4) { layoutT with cursor := 0x1008 }) relocate) =
      some [.missingHiPair 0x1008 0x1004] := by decide
/-- The first instruction after reset is the one placed there. -/
theorem test_reset_fetch_word :
    regAfter (State.reset.withFetchWord 32 0x02A00113) 2 = some 42 := by decide
/-- R37: what reset leaves. -/
theorem test_reset :
    State.reset.status = .running ∧ State.reset.icount = 0 ∧ State.reset.mem = ⟨[], []⟩ ∧
    State.reset.symbols = [] ∧ State.reset.relocs = [] ∧ State.reset.autoCount = 0 ∧
    State.reset.diagnostics = [] ∧ State.reset.x 31#5 = 0 := by
  decide

/-! ## Inputs that meet the hypotheses of the statements, clause by clause -/

/-- A region of 4096 bytes at `0x1000` with a mode and a word at its start. -/
def page (mode : AccessMode) (cells : List Host.Cell) : State :=
  { State.reset with pc := 0x1000, cursor := 0x1000, mem := ⟨[⟨0x1000, 4096, mode⟩], cells⟩ }

def bound (s : State) (n : Nat) (a : Word) : State := { s with symbols := [(.auto n, a)] }

theorem page_admits {mode : AccessMode} {cells : List Host.Cell} {a : Word} {n : Nat} {req : AccessMode}
    (h : 0x1000 ≤ a.toNat ∧ a.toNat + n ≤ 0x2000 ∧ req &&& ~~~mode &&& 7 = 0) :
    (page mode cells).Admits a n req :=
  ⟨⟨0x1000, 4096, mode⟩, .head _, h⟩

theorem page_refuses {mode : AccessMode} {cells : List Host.Cell} {a : Word} {n : Nat} {req : AccessMode}
    (h : ¬ (0x1000 ≤ a.toNat ∧ a.toNat + n ≤ 0x2000 ∧ req &&& ~~~mode &&& 7 = 0)) :
    ¬ (page mode cells).Admits a n req := by
  rintro ⟨r, hr, h'⟩
  obtain rfl : r = ⟨0x1000, 4096, mode⟩ := List.mem_singleton.1 hr
  exact h h'

theorem witness_DecodeOfEncode : Instr.WellFormed (.beq 1 2 (-4096)) ∧ Instr.WellFormed (.jal 1 1048574) := by
  decide

theorem witness_EncodeOfDecode : decodeWord 0x80208063 = .ok (.beq 1 2 (-4096)) := by rfl

theorem witness_DecodingFollowsTheRows :
    (0x40435293#32 &&& (row .srai).mask = (row .srai).pattern) ∧
    ∀ m : Mnemonic, m ≠ .invalid → 0x00100073#32 &&& (row m).mask ≠ (row m).pattern := by
  refine ⟨by decide, fun m _ => ?_⟩
  cases m <;> decide

theorem witness_CodecLaws :
    extractU 0x00000013 fRd = 0 ∧ fOpcode.pos + fOpcode.width ≤ fRd.pos ∧
    fRd.pos + fRd.width ≤ fImmI.pos ∧
    (12 : Nat) = (([fImmSHi, fImmSLo] : List Field).map Field.width).sum := by
  decide

theorem witness_OperandsAreTruncated :
    (row .addi).format = .I ∧ (row .sw).format = .S ∧ (row .bgeu).format = .B ∧
    (row .jal).format = .J ∧ (row .lui).format = .U ∧ (row .srai).format = .shift := by
  decide

/-- A word of each shape of `IllegalShape`, fetched by a running machine. -/
theorem witness_IllegalWordsRaise :
    ∀ w ∈ ([0x40209033, 0x02009013, 0x6000D013, 0x00003003, 0x00003023, 0x00002063, 0x00001067,
        0x00100073, 0x0000000F, 0x00000001, 0x00010000] : List Nat),
      let s := placed 0x1000 w []
      s.status = .running ∧ s.icount < s.cfg.watchdogBudget ∧
        s.memFetch s.pc = .ok (BitVec.ofNat 32 w) ∧ IllegalShape (BitVec.ofNat 32 w) := by
  intro w hw
  simp only [List.mem_cons, List.not_mem_nil, or_false] at hw
  rcases hw with rfl | rfl | rfl | rfl | rfl | rfl | rfl | rfl | rfl | rfl | rfl <;>
    exact ⟨rfl, by decide, rfl, by unfold IllegalShape; decide⟩

/-- The hypothesis of every statement about a running machine: registers, branches and jumps
(`RegisterRegisterResults`, `MultiplyResults`, `DivideResults`, `RegisterImmediateResults`,
`BranchResults`, `UpperImmediateAndJumpResults`). -/
theorem witness_running : State.reset.status = .running ∧ (page 7 []).status = .running := ⟨rfl, rfl⟩

theorem witness_ShiftsMultiplyAndDivide :
    let s := preset State.reset [(2, 0xFFFFFFFF)]
    s.status = .running ∧ 31 = (s.x 2#5).toNat % 32 := by
  decide

theorem witness_DivisionLaw :
    let s := preset State.reset [(1, 0x80000000), (2, 1)]
    s.status = .running ∧ s.x 2#5 ≠ 0 ∧ ¬ (s.x 1#5 = 0x80000000 ∧ s.x 2#5 = 0xFFFFFFFF) := by
  decide

/-- Each reason a refused access can record: no region; the flag absent; the region's end passed. -/
theorem witness_RefusalReason :
    ¬ (page 4 []).Admits 0x2000 1 modeLoader ∧
    ((page 3 []).Admits 0x1FFF 1 modeLoader ∧ ¬ (page 3 []).Admits 0x1FFF 1 modeRead) ∧
    ((page 4 []).Admits 0x1FFD 1 modeRead ∧ ¬ (page 4 []).Admits 0x1FFD 4 modeRead) :=
  ⟨page_refuses (by decide), ⟨page_admits (by decide), page_refuses (by decide)⟩,
    ⟨page_admits (by decide), page_refuses (by decide)⟩⟩

/-- The last byte, half word and word of a region, and the first accesses that pass its end. -/
theorem witness_LoadResults :
    let s := page 4 []
    s.status = .running ∧ s.MemWf ∧ s.Admits 0x1FFF 1 modeRead ∧ ¬ s.Admits 0x2000 1 modeRead ∧
      s.Admits 0x1FFE 2 modeRead ∧ ¬ s.Admits 0x1FFF 2 modeRead ∧ s.Admits 0x1FFC 4 modeRead ∧
      ¬ s.Admits 0x1FFD 4 modeRead ∧ ¬ (page 3 []).Admits 0x1000 4 modeRead ∧
      (preset s [(8, 0x1FFD)]).ea 8#5 (-1) = 0x1FFC :=
  ⟨rfl, by decide, page_admits (by decide), page_refuses (by decide), page_admits (by decide),
    page_refuses (by decide), page_admits (by decide), page_refuses (by decide),
    page_refuses (by decide), by decide⟩

theorem witness_StoreResults :
    let s := page 2 []
    s.status = .running ∧ s.MemWf ∧ s.Admits 0x1FFF 1 modeWrite ∧ ¬ s.Admits 0x2000 1 modeWrite ∧
      s.Admits 0x1FFE 2 modeWrite ∧ ¬ s.Admits 0x1FFF 2 modeWrite ∧ s.Admits 0x1FFC 4 modeWrite ∧
      ¬ s.Admits 0x1FFD 4 modeWrite ∧ ¬ (page 5 []).Admits 0x1000 1 modeWrite :=
  ⟨rfl, by decide, page_admits (by decide), page_refuses (by decide), page_admits (by decide),
    page_refuses (by decide), page_admits (by decide), page_refuses (by decide),
    page_refuses (by decide)⟩

theorem witness_ExitEndsTheRun :
    State.reset.cfg.handlerAttached = true ∧ State.reset.x 17#5 = 0 := by decide

theorem witness_EcallWithoutHandlerFaults :
    ({ State.reset with cfg := { Params.default with handlerAttached := false } } :
      State).cfg.handlerAttached = false := rfl

theorem witness_EcallFrame :
    (page 5 []).status = .running ∧ ¬ (page 5 []).Admits 0x1000 1 modeWrite :=
  ⟨rfl, page_refuses (by decide)⟩

/-- Accesses that all pass, accesses of which the second is refused, and each access let through at the
region's last byte and refused after it. -/
theorem witness_TrapTakesAndReturns :
    ((page 6 []).status = .running ∧ (page 6 []).MemWf) ∧
    (∃ t, State.trapAccesses [.readByte 0x1000, .writeByte 0x1FFF 7, .writeReg 10 3] (page 6 []) = (t, none)) ∧
    (∃ t v, State.trapAccesses [.writeByte 0x1000 7, .readByte 0x2000] (page 6 []) = (t, some v)) ∧
    (∃ u, (page 6 []).trapAccess (.writeReg 0 3) = .ok u) ∧
    (∃ v, (page 6 []).trapAccess (.writeByte 0x2000 7) = .error v) ∧
    (page 6 []).Admits 0x1FFF 1 modeRead ∧ ¬ (page 6 []).Admits 0x2000 1 modeRead ∧
    (page 6 []).Admits 0x1FFF 1 modeWrite ∧ ¬ (page 5 []).Admits 0x1FFF 1 modeWrite :=
  ⟨⟨rfl, by decide⟩, ⟨_, rfl⟩, ⟨_, _, rfl⟩, ⟨_, rfl⟩, ⟨_, rfl⟩, page_admits (by decide),
    page_refuses (by decide), page_admits (by decide), page_refuses (by decide)⟩

theorem witness_StepRunsDecodedInstruction :
    let s := placed 0x1000 0x002081B3 []
    s.status = .running ∧ s.icount < s.cfg.watchdogBudget ∧ s.memFetch s.pc = .ok 0x002081B3 ∧
      decodeWord 0x002081B3 = .ok (.add 3 1 2) :=
  ⟨rfl, by decide, rfl, rfl⟩

theorem witness_WatchdogEndsTheRun :
    let s := { State.reset with icount := 2000 }
    s.status = .running ∧ s.cfg.watchdogBudget ≤ s.icount := by decide

/-- Running with budget left, at a `pc` that is refused, at a zero word in a region's last place, and at
an illegal word. -/
theorem witness_FetchOutcomes :
    (¬ ({ page 1 [] with pc := 0x1FFD } : State).Admits 0x1FFD 4 modeExec) ∧
    ((page 1 []).MemWf ∧ (page 1 []).Admits 0x1FFC 4 modeExec ∧ (page 1 []).wordAt 0x1FFC = 0 ∧
      (page 1 []).status = .running ∧ (page 1 []).icount < (page 1 []).cfg.watchdogBudget) ∧
    ((page 1 [(0x1000, 0x0F)]).MemWf ∧ (page 1 [(0x1000, 0x0F)]).Admits 0x1000 4 modeExec ∧
      ∃ r, decodeWord ((page 1 [(0x1000, 0x0F)]).wordAt 0x1000) = .error r) :=
  ⟨page_refuses (mode := 1) (cells := []) (by decide),
    ⟨by decide, page_admits (by decide), by decide, rfl, by decide⟩,
    ⟨by decide, page_admits (by decide), _, rfl⟩⟩

theorem witness_RunningStepNeverStops :
    State.reset.status = .running ∧ ({ State.reset with status := .halted } : State).status ≠ .running := by
  decide

/-- For `StepKeepsInvariant`, `StepsKeepRegionsAndSession` and `CountOfSteps` too. -/
theorem witness_StepKeepsInvariant :
    (placed 0x1000 0x00940023 [(8, 0x3000), (9, 1)]).Inv ∧
    ∃ t, step (placed 0x1000 0x00940023 [(8, 0x3000), (9, 1)]) = .next t :=
  ⟨by decide, _, rfl⟩

/-- Every host operation of the statement answers a next state somewhere. -/
theorem witness_HostOperationsKeepInvariant :
    layoutT.Inv ∧ (∃ t, hostAllocate 0x8000 1 7 layoutT = .next t) ∧
    (∃ t, hostAllocateAnywhere 1 7 layoutT = .next t) ∧
    (∃ t, hostLoaderWrite 0x1FFC .word 5 layoutT = .next t) ∧
    (∃ t, emitWord 0xFFFFFFFF layoutT = .next t) ∧ (∃ t, emitInstr (.add 3 1 2) layoutT = .next t) ∧
    (∃ t, emitInvalid layoutT = .next t) ∧ (∃ t, emit .add 3 1 2 0 layoutT = .next t) ∧ (∃ t, emitBytes [1, 2, 3] layoutT = .next t) ∧
    (∃ t, emitAddr (.user "v") layoutT = .next t) ∧ (∃ t, emitJalTo 1 (.user "v") layoutT = .next t) ∧
    (∃ t, emitBranchTo .beq 1 2 (.user "v") layoutT = .next t) ∧
    (∃ t, emitAuipcHi 1 (.user "v") layoutT = .next t) ∧
    (∃ t, emitWithLo .lw 1 1 (-4) layoutT = .next t) ∧ ∃ t, relocate layoutT = .next t :=
  ⟨by decide, ⟨_, rfl⟩, ⟨_, rfl⟩, ⟨_, rfl⟩, ⟨_, rfl⟩, ⟨_, rfl⟩, ⟨_, rfl⟩, ⟨_, rfl⟩, ⟨_, rfl⟩, ⟨_, rfl⟩,
    ⟨_, rfl⟩, ⟨_, rfl⟩, ⟨_, rfl⟩, ⟨_, rfl⟩, ⟨_, rfl⟩⟩

theorem witness_EveryRunEnds :
    State.reset.icount ≤ State.reset.cfg.watchdogBudget ∧
    ({ State.reset with icount := 2000 } : State).icount ≤ State.reset.cfg.watchdogBudget := by
  decide

/-- A step that ends the run in each of the four ways. -/
theorem witness_FourWaysToEnd :
    ∀ s ∈ ([{ layoutT with icount := 2000 }, layoutT, placed 0x1000 0x00000073 [],
        { layoutT with pc := 0x2000 }] : List State),
      ∃ t, step s = .next t ∧ t.status ≠ .running := by
  intro s hs
  simp only [List.mem_cons, List.not_mem_nil, or_false] at hs
  rcases hs with rfl | rfl | rfl | rfl
  · exact ⟨_, rfl, by decide⟩
  · exact ⟨_, rfl, by decide⟩
  · exact ⟨_, rfl, by decide⟩
  · exact ⟨_, rfl, by decide⟩

theorem witness_FaultsArePrecise :
    ∃ t kind p, step (placed 0x1000 0x00942023 [(8, 0x5000)]) = .next t ∧ t.status = .faulted kind p ∧
      (placed 0x1000 0x00942023 [(8, 0x5000)]).memFetch 0x1000 ≠ .ok 0x00000073 :=
  ⟨_, _, _, rfl, rfl, by rw [show (placed 0x1000 0x00942023 [(8, 0x5000)]).memFetch 0x1000 = .ok 0x00942023 from rfl]; decide⟩

/-- A step after which the machine runs on, its instruction no transfer, and one that ends the run. -/
theorem witness_PcCommit :
    (∃ t, step (placed 0x1000 0x002081B3 []) = .next t ∧ t.status = .running ∧
      transfers (.add 3 1 2) = false) ∧
    ∃ t, step layoutT = .next t ∧ t.status ≠ .running :=
  ⟨⟨_, rfl, rfl, rfl⟩, ⟨_, rfl, by decide⟩⟩

theorem witness_OneDestinationPerInstruction :
    layoutT.status = .running ∧ (∃ t, exec (.add 3 1 2) layoutT = .next t) ∧
    (∃ t, exec (.beq 1 2 8) layoutT = .next t) ∧ (row .beq).format = .B ∧ (row .sw).format = .S ∧
    (0 : RegIdx) ≠ (Instr.add 3 1 2).operands.rd :=
  ⟨rfl, ⟨_, rfl⟩, ⟨_, rfl⟩, rfl, rfl, by decide⟩

theorem witness_CountOfSteps :
    State.reset.icount < State.reset.cfg.watchdogBudget ∧ ∃ t, step State.reset = .next t :=
  ⟨by decide, _, rfl⟩

theorem witness_CountAndSessionAreUnseen :
    SameEngine layoutT { layoutT with icount := 7, cursor := 5 } ∧
    layoutT ≠ { layoutT with icount := 7, cursor := 5 } ∧ ∃ t, exec (.addi 1 1 1) layoutT = .next t :=
  ⟨⟨rfl, rfl, rfl, rfl, rfl, rfl⟩, by decide, _, rfl⟩

theorem witness_DatapathComputesTheInstruction :
    decodeWord 0xFFE280E7 = .ok (.jalr 1 5 0xFFE) ∧ (Instr.jalr 1 5 0xFFE) ≠ .invalid ∧
      layoutT.status = .running :=
  ⟨rfl, by decide, rfl⟩

theorem witness_LaunchState : (31 : RegIdx) ≠ 0 := by decide

/-- An address in a region and one in none. -/
theorem witness_LookupFindsTheCoveringRegion :
    layoutT.MemWf ∧ layoutT.mem.lookup 0x3FFF = some ⟨0x3000, 4096, 6⟩ ∧ layoutT.mem.lookup 0x4000 = none := by
  decide

/-- Each clause: admitted; no region; the flag absent; the flag there and the end passed. -/
theorem witness_AccessCheck :
    (page 4 []).MemWf ∧ 1 ≤ 4 ∧ (page 4 []).Admits 0x1FFC 4 modeRead ∧
    ¬ (page 4 []).Admits 0x2000 1 modeLoader ∧
    ((page 4 []).Admits 0x1FFF 1 modeLoader ∧ ¬ (page 4 []).Admits 0x1FFF 1 modeWrite) ∧
    ((page 4 []).Admits 0x1FFF 1 modeRead ∧ ¬ (page 4 []).Admits 0x1FFF 4 modeRead) :=
  ⟨by decide, by decide, page_admits (by decide), page_refuses (by decide),
    ⟨page_admits (by decide), page_refuses (by decide)⟩,
    ⟨page_admits (by decide), page_refuses (by decide)⟩⟩

/-- Each rejection of R54 alone, and an admitted request that ends at `2^32`. -/
theorem witness_AllocateRule :
    layoutT.MemWf ∧ layoutT.cfg.wf = true ∧
    (0x8001#32).toNat % layoutT.cfg.pageSize ≠ 0 ∧
    2 ^ 32 < (0xFFFFF000#32).toNat + roundUp 4096 4097 ∧
    (∃ r ∈ layoutT.mem.regions, (0x0#32).toNat < r.base.toNat + r.length ∧
      r.base.toNat < (0x0#32).toNat + roundUp 4096 4097) ∧
    ¬ ((1 : Nat) = 0 ∨ (0xFFFFF000#32).toNat % layoutT.cfg.pageSize ≠ 0 ∨
      2 ^ 32 < (0xFFFFF000#32).toNat + roundUp layoutT.cfg.pageSize 1 ∨
      (∃ r ∈ layoutT.mem.regions, (0xFFFFF000#32).toNat < r.base.toNat + r.length ∧
        r.base.toNat < (0xFFFFF000#32).toNat + roundUp layoutT.cfg.pageSize 1)) := by
  decide

/-- No region; a highest region with a page to spare below `2^32`; one without. -/
theorem witness_AllocateAnywhereRule :
    (State.reset.MemWf ∧ State.reset.mem.regions = []) ∧
    ((∃ r ∈ layoutT.mem.regions, 0x6000 = r.base.toNat + r.length) ∧
      (∀ r ∈ layoutT.mem.regions, r.base.toNat + r.length ≤ 0x6000) ∧
      0x6000 + layoutT.cfg.pageSize < 2 ^ 32) ∧
    let s := { State.reset with mem := ⟨[⟨0xFFFFE000, 4096, 7⟩], []⟩ }
    s.MemWf ∧ (∀ r ∈ s.mem.regions, r.base.toNat + r.length ≤ 0xFFFFF000) ∧
      2 ^ 32 ≤ 0xFFFFF000 + s.cfg.pageSize := by
  decide

theorem witness_MixedWidthAccesses :
    (page 6 []).MemWf ∧ (page 6 []).Admits 0x1FFC 4 modeRead ∧
      ∃ t, (page 6 []).memWrite 0x1FFC .word 0x12345678 = .ok t :=
  ⟨by decide, page_admits (by decide), _, rfl⟩

theorem witness_StoredWordIsFetched :
    ((page 3 []).status = .running ∧ (page 3 []).MemWf ∧
      (page 3 []).Admits 0x1FFC 4 (modeWrite ||| modeExec)) ∧
    ((page 1 []).Admits 0x1FFC 4 modeExec ∧ ¬ (page 1 []).Admits 0x1FFC 4 modeWrite) :=
  ⟨⟨rfl, by decide, page_admits (by decide)⟩, ⟨page_admits (by decide), page_refuses (by decide)⟩⟩

theorem witness_EmitWritesTheWord :
    (page 0 []).MemWf ∧ (page 0 []).Admits 0x1FFC 4 modeLoader ∧
      ¬ (page 0 []).Admits 0x1FFD 4 modeLoader :=
  ⟨by decide, page_admits (by decide), page_refuses (by decide)⟩

theorem witness_EmittedInstructionRuns :
    (page 1 []).MemWf ∧ Instr.WellFormed (.jal 1 8) ∧ (page 1 []).Admits (page 1 []).cursor 4 modeExec ∧
      0 < (page 1 []).cfg.watchdogBudget ∧ ∃ t, emitInstr (.jal 1 8) (page 1 []) = .next t :=
  ⟨by decide, by decide, page_admits (by decide), by decide, _, rfl⟩

/-- Three bytes up to the region's end, and three of which the last is past it. -/
theorem witness_EmitBytesRule :
    (page 0 []).MemWf ∧
    (∀ k < ([1, 0, 3] : List Byte).length,
      ({ page 0 [] with cursor := 0x1FFD } : State).Admits (0x1FFD + BitVec.ofNat 32 k) 1 modeLoader) ∧
    3 ≤ 2 ^ 32 ∧ (∀ k < 3, (0x2000 : Word) ≠ 0x1FFD + BitVec.ofNat 32 k) ∧
    (∀ j < 2, ({ page 0 [] with cursor := 0x1FFE } : State).Admits (0x1FFE + BitVec.ofNat 32 j) 1 modeLoader) ∧
    ¬ ({ page 0 [] with cursor := 0x1FFE } : State).Admits (0x1FFE + BitVec.ofNat 32 2) 1 modeLoader :=
  ⟨by decide,
    fun k hk => ⟨⟨0x1000, 4096, 0⟩, .head _, by
      have hk : k < 3 := hk
      interval_cases k <;> decide⟩,
    by decide, by decide,
    fun j hj => ⟨⟨0x1000, 4096, 0⟩, .head _, by interval_cases j <;> decide⟩,
    page_refuses (mode := 0) (cells := []) (by decide)⟩

theorem witness_SymbolsAreBoundOnce :
    lookupSymbol State.reset.symbols (.auto 0) = none ∧
      lookupSymbol (bound State.reset 0 5).symbols (.auto 0) = some 5 := by
  decide

/-- A store and a shift; a load at a region's last word and one byte on. -/
theorem witness_PcrelLoRule :
    (row .sw).format ≠ .I ∧ (row .slli).format ≠ .I ∧ (row .lw).format = .I ∧
    (let last : State := { page 1 [] with cursor := 0x1FFC }
     last.Inv ∧ last.Admits last.cursor 4 modeLoader) ∧
    let past : State := { page 1 [] with cursor := 0x1FFD }
    past.Inv ∧ ¬ past.Admits past.cursor 4 modeLoader :=
  ⟨by decide, by decide, rfl,
    ⟨by decide, page_admits (mode := 1) (cells := []) (by decide)⟩,
    ⟨by decide, page_refuses (mode := 1) (cells := []) (by decide)⟩⟩

/-- The cursor at a region's last word and one byte on; a branch and another mnemonic. -/
theorem witness_SymbolicOperandsRecord :
    let last : State := { page 0 [] with cursor := 0x1FFC }
    let past : State := { page 0 [] with cursor := 0x1FFD }
    last.MemWf ∧ last.Admits last.cursor 4 modeLoader ∧ past.MemWf ∧
      ¬ past.Admits past.cursor 4 modeLoader ∧ (row .bgeu).format = .B ∧ (row .jal).format ≠ .B :=
  ⟨by decide, page_admits (mode := 0) (cells := []) (by decide), by decide,
    page_refuses (mode := 0) (cells := []) (by decide), rfl, by decide⟩

theorem witness_AuipcAddiReachesSymbol : State.reset.status = .running ∧ (10 : RegIdx) ≠ 0 := by decide

/-- A backward jump and a forward branch: the label is bound after the word is emitted. -/
theorem witness_RelocationEquivalence :
    let s := page 7 []
    (∃ t u, emitJalTo 1 (.auto 0) s = .next t ∧ (bound t 0 0xFF8).MemWf ∧
      (bound t 0 0xFF8).wordAt s.cursor.toNat = t.wordAt s.cursor.toNat ∧
      lookupSymbol (bound t 0 0xFF8).symbols (.auto 0) = some 0xFF8 ∧
      patch ⟨s.cursor, .jumpPcRel, .auto 0⟩ (bound t 0 0xFF8) = .next u) ∧
    ∃ t u, emitBranchTo .beq 1 2 (.auto 0) s = .next t ∧ (bound t 0 0x1008).MemWf ∧
      patch ⟨s.cursor, .branchPcRel, .auto 0⟩ (bound t 0 0x1008) = .next u :=
  ⟨⟨_, _, rfl, by decide, rfl, rfl, rfl⟩, ⟨_, _, rfl, by decide, rfl⟩⟩

/-- Each kind. -/
theorem witness_PatchWritesTheWord :
    ∀ k ∈ ([.jumpPcRel, .branchPcRel, .absoluteWord32, .hiPcRel20] : List RelocKind),
      let s := bound (page 0 []) 0 0x80000000
      s.MemWf ∧ s.Admits 0x1FFC 4 modeLoader ∧ lookupSymbol s.symbols (.auto 0) = some 0x80000000 ∧
        (⟨0x1FFC, k, .auto 0⟩ : Reloc).kind ≠ .loPcRel12 := by
  intro k hk
  simp only [List.mem_cons, List.not_mem_nil, or_false] at hk
  have h : (bound (page 0 []) 0 0x80000000).Admits 0x1FFC 4 modeLoader :=
    ⟨⟨0x1000, 4096, 0⟩, .head _, by decide⟩
  rcases hk with rfl | rfl | rfl | rfl <;> exact ⟨by decide, h, rfl, by decide⟩

/-- The three clauses: the pair and its target known; its target unknown; no pair. -/
theorem witness_LoPatchFollowsItsHi :
    let s : State := { page 0 [] with symbols := [(.auto 0, 0x1000), (.user "S", 0x1800)]
                                      relocs := [⟨0x1000, .hiPcRel20, .user "S"⟩] }
    let bare : State := { page 0 [] with symbols := [(.auto 0, 0x1000)]
                                         relocs := [⟨0x1000, .hiPcRel20, .user "S"⟩] }
    s.MemWf ∧ s.Admits 0x1004 4 modeLoader ∧ lookupSymbol s.symbols (.auto 0) = some 0x1000 ∧
    (∀ q ∈ s.relocs, q.kind = .hiPcRel20 → q.siteOffset = 0x1000 → q = ⟨0x1000, .hiPcRel20, .user "S"⟩) ∧
    lookupSymbol s.symbols (.user "S") = some 0x1800 ∧ lookupSymbol bare.symbols (.user "S") = none ∧
    ∀ q ∈ (bound (page 0 []) 0 0x1000).relocs, ¬ (q.kind = .hiPcRel20 ∧ q.siteOffset = 0x1000) :=
  ⟨by decide, ⟨⟨0x1000, 4096, 0⟩, .head _, by decide⟩, rfl, by decide, rfl, rfl, by decide⟩

theorem witness_UnknownTargetIsReported :
    lookupSymbol State.reset.symbols (.user "nowhere") = none := rfl

/-- An unlinked session: one whose patches all reach their sites, with the first bytes outside them on
both sides, and one with a site past the region's end. -/
theorem witness_RelocateFrame :
    let s := { bound (page 0 []) 0 0x1008 with relocs := [⟨0x1004, .jumpPcRel, .auto 0⟩] }
    let far := { bound (page 0 []) 0 0x1008 with relocs := [⟨0x1FFD, .jumpPcRel, .auto 0⟩] }
    s.linked = false ∧ (∃ t, patch ⟨0x1004, .jumpPcRel, .auto 0⟩ s = .next t) ∧
    (∃ t, patchAll s.relocs s = .next t) ∧ (∃ t, relocate s = .next t) ∧
    (∀ r ∈ s.relocs, Outside r.siteOffset 4 0x1003 ∧ Outside r.siteOffset 4 0x1008) ∧
    far.linked = false ∧ (∃ e, patch ⟨0x1FFD, .jumpPcRel, .auto 0⟩ far = .refused e) ∧
    ∃ e, patchAll far.relocs far = .refused e :=
  ⟨rfl, ⟨_, rfl⟩, ⟨_, rfl⟩, ⟨_, rfl⟩, by simp [Outside], rfl, ⟨_, rfl⟩, ⟨_, rfl⟩⟩

/-- A register other than 0; each width at the region's end and one byte on. -/
theorem witness_HostPreparesTheMachine :
    (31 : RegIdx) ≠ 0 ∧ (page 0 []).MemWf ∧
    ((page 0 []).Admits 0x1FFF AccessSize.byte.bytes modeLoader ∧
      ¬ (page 0 []).Admits 0x2000 AccessSize.byte.bytes modeLoader) ∧
    ((page 0 []).Admits 0x1FFE AccessSize.half.bytes modeLoader ∧
      ¬ (page 0 []).Admits 0x1FFF AccessSize.half.bytes modeLoader) ∧
    (page 0 []).Admits 0x1FFC AccessSize.word.bytes modeLoader ∧
      ¬ (page 0 []).Admits 0x1FFD AccessSize.word.bytes modeLoader :=
  ⟨by decide, by decide, ⟨page_admits (by decide), page_refuses (by decide)⟩,
    ⟨page_admits (by decide), page_refuses (by decide)⟩, page_admits (by decide),
    page_refuses (by decide)⟩

end Sys2Proof.Tests
end

section
/-! What every step keeps (`10_state.md`): the invariant, the regions, the assembly session, the count,
the pc commit, and that no instruction reads the count or the session. -/

namespace Sys2Proof.Machine

open Sys2Proof State

/-! ## What an instruction keeps -/

/-- What every instruction keeps: the count, the session and the regions (R35), the canonical form of the
address space (R50, R51), and the zero in register 0 (R22). -/
structure ExecKeeps (s t : State) : Prop where
  icount : t.icount = s.icount
  session : SessionKept s t
  wf : s.MemWf → t.MemWf
  zero : s.regs.get 0 = 0#32 → t.regs.get 0 = 0#32

namespace ExecKeeps

variable {s t : State}

theorem refl (s : State) : ExecKeeps s s :=
  ⟨rfl, ⟨rfl, rfl, rfl, rfl, rfl, rfl, rfl, rfl⟩, id, id⟩

theorem setPc (h : ExecKeeps s t) (npc : Word) : ExecKeeps s { t with pc := npc } :=
  ⟨h.icount, h.session, h.wf, h.zero⟩

/-- `raise` and `stop` are `setStatus` too. -/
theorem setStatus (h : ExecKeeps s t) (st : RunStatus) : ExecKeeps s (t.setStatus st) :=
  ⟨h.icount, h.session, h.wf, h.zero⟩

theorem setX (h : ExecKeeps s t) (i : RegIdx) (v : Word) : ExecKeeps s (t.setX i v) :=
  ⟨h.icount, h.session, h.wf, fun _ => setX_regs_zero t i v⟩

theorem of_countTrap (h : ExecKeeps s.countTrap t) : ExecKeeps s t :=
  ⟨h.icount, h.session, h.wf, h.zero⟩

theorem of_writeN {a v : Word} {n : Nat} {req : AccessMode} {m : Memory}
    (hm : s.mem.writeN s.cfg.regionFill a n req v = .ok m) : ExecKeeps s (s.setMem m) :=
  ⟨rfl, ⟨writeN_regions hm, rfl, rfl, rfl, rfl, rfl, rfl, rfl⟩, fun hw => wf_writeN hw hm, id⟩

theorem of_trapKeeps (h : TrapKeeps s t) : ExecKeeps s t :=
  ⟨h.icount, h.session, h.wf, h.zero⟩

end ExecKeeps

theorem takeTrap_keeps {s : State} (hr : s.status = .running) (reply : TrapReply) :
    ExecKeeps s (s.takeTrap reply) := by
  rcases takeTrap_cases hr (rfl : s.takeTrap reply = _) with ⟨-, ht⟩ | ⟨u, hu, ⟨v, ht⟩ | ⟨code, ht⟩ |
    ht | ⟨v, ht⟩⟩ <;> rw [ht]
  · exact (ExecKeeps.refl s).setStatus _
  · exact (ExecKeeps.of_trapKeeps hu).setStatus _
  · exact (ExecKeeps.of_trapKeeps hu).setStatus _
  · exact (ExecKeeps.of_trapKeeps hu).setPc _
  · exact ((ExecKeeps.of_trapKeeps hu).setX _ v).setPc _

theorem exec_keeps {i : Instr} {s t : State} (hr : s.status = .running) (h : exec i s = .next t) :
    ExecKeeps s t := by
  by_cases he : i = .ecall
  · subst he
    cases h
    exact (takeTrap_keeps (s := s.countTrap) hr _).of_countTrap
  · rcases exec_cases i s hr he with ⟨v, npc, ht, -⟩ | ⟨npc, ht, -⟩ | ⟨a, n, v, m, hm, ht, -⟩ |
      ⟨v, ht⟩ | ⟨-, ht⟩ <;> cases h.symm.trans ht
    · exact ((ExecKeeps.refl s).setX _ v).setPc npc
    · exact (ExecKeeps.refl s).setPc npc
    · exact (ExecKeeps.of_writeN hm).setPc _
    · exact (ExecKeeps.refl s).setStatus _
    · exact (ExecKeeps.refl s).setStatus _

/-! ## What a step keeps -/

/-- A step either finds the budget used up and keeps what an instruction keeps, or counts first. -/
theorem step_execKeeps {s t : State} (h : step s = .next t) :
    (s.cfg.watchdogBudget ≤ s.icount ∧ ExecKeeps s t) ∨
      (s.icount < s.cfg.watchdogBudget ∧ ExecKeeps s.tick t) := by
  obtain ⟨hr, ⟨hb, rfl⟩ | ⟨hb, ⟨v, -, rfl⟩ | ⟨w, -, ⟨r, -, rfl⟩ | ⟨i, -, hi⟩⟩⟩⟩ := step_cases h
  · exact .inl ⟨hb, (ExecKeeps.refl s).setStatus _⟩
  · exact .inr ⟨hb, (ExecKeeps.refl s.tick).setStatus _⟩
  · exact .inr ⟨hb, (ExecKeeps.refl s.tick).setStatus _⟩
  · exact .inr ⟨hb, exec_keeps (s := s.tick) hr hi⟩

/-- What every step keeps, and its count (R148, R363). -/
structure StepKeeps (s t : State) : Prop where
  icount : t.icount = if s.icount < s.cfg.watchdogBudget then s.icount + 1 else s.icount
  session : SessionKept s t
  wf : s.MemWf → t.MemWf
  zero : s.regs.get 0 = 0#32 → t.regs.get 0 = 0#32

theorem step_keeps {s t : State} (h : step s = .next t) : StepKeeps s t := by
  rcases step_execKeeps h with ⟨hb, hk⟩ | ⟨hb, hk⟩
  · exact ⟨by rw [if_neg (by omega), hk.icount], hk.session, hk.wf, hk.zero⟩
  · exact ⟨by rw [if_pos hb, hk.icount, tick_icount], hk.session, hk.wf, hk.zero⟩

theorem StepKeeps.icount_le_budget {s t : State} (h : StepKeeps s t)
    (hb : s.icount ≤ s.cfg.watchdogBudget) : t.icount ≤ s.cfg.watchdogBudget := by
  rw [h.icount]
  split <;> omega

/-- Settles O28: each clause of the invariant is one that a step keeps; the count passes no budget because
a step counts only below it. -/
theorem stepKeepsInvariant : Obligations.StepKeepsInvariant := by
  intro s t ⟨hzero, hparams, hmem, hcount, hnodup, hauto⟩ h
  have hk := step_keeps h
  obtain ⟨-, -, hsymbols, -, hautoCount, -, -, hcfg⟩ := hk.session
  refine ⟨hk.zero hzero, hcfg ▸ hparams, hk.wf hmem, ?_, ?_, ?_⟩
  · rw [hcfg]
    exact hk.icount_le_budget hcount
  · rwa [hsymbols]
  · rwa [hsymbols, hautoCount]

/-- Settles O36: the session clause of `step_keeps`. -/
theorem stepsKeepRegionsAndSession : Obligations.StepsKeepRegionsAndSession :=
  fun _ _ h => (step_keeps h).session

/-- Settles O37: a step by `step_keeps`; a launch sets the count itself. -/
theorem countOfSteps : Obligations.CountOfSteps :=
  ⟨fun _ _ h => (step_keeps h).icount, fun _ _ _ => rfl⟩

/-! ## A running machine has a next state -/

theorem fetchAndExecute_next {s : State} (hr : s.status = .running) :
    ∃ t, fetchAndExecute s = .next t := by
  unfold fetchAndExecute
  split
  · exact ⟨_, rfl⟩
  · split
    · exact ⟨_, rfl⟩
    · exact exec_next _ s hr

theorem step_of_not_running {s : State} (hr : s.status ≠ .running) : step s = .fault .runEnded :=
  if_pos hr

theorem step_of_running {s : State} (hr : s.status = .running) :
    step s = if s.cfg.watchdogBudget ≤ s.icount then .next (s.setStatus .watchdogExpired)
      else fetchAndExecute s.tick :=
  if_neg (not_not_intro hr)

/-- Settles O27: with the budget used up the watchdog answers, else the fetched instruction does. -/
theorem runningStepNeverStops : Obligations.RunningStepNeverStops := by
  refine fun s => ⟨fun hr => ?_, step_of_not_running⟩
  rw [step_of_running hr]
  split
  · exact ⟨_, rfl⟩
  · exact fetchAndExecute_next (s := s.tick) hr

/-! ## The pc commit (R147) -/

/-- Where an instruction leaves `pc`: in place when it ends the run, 4 further when the run goes on and
it transfers nowhere. -/
structure PcRule (i : Instr) (s t : State) : Prop where
  ended : t.status ≠ .running → t.pc = s.pc
  goesOn : t.status = .running → transfers i = false → t.pc = s.pc + 4#32

theorem PcRule.of_ended {i : Instr} {s t : State} (hst : t.status ≠ .running) (hpc : t.pc = s.pc) :
    PcRule i s t :=
  ⟨fun _ => hpc, fun h => absurd h hst⟩

theorem PcRule.of_running {i : Instr} {s t : State} (hst : t.status = .running)
    (hpc : transfers i = false → t.pc = s.pc + 4#32) : PcRule i s t :=
  ⟨fun h => absurd hst h, fun _ => hpc⟩

theorem transfers_of_format_B {i : Instr} (h : (row i.mnemonic).format = .B) : transfers i = true := by
  simp [transfers, h]

theorem ecall_pcRule {s : State} (hr : s.status = .running) (reply : TrapReply) :
    PcRule .ecall s (s.takeTrap reply) := by
  rcases takeTrap_cases hr (rfl : s.takeTrap reply = _) with ⟨-, ht⟩ | ⟨u, hu, ⟨v, ht⟩ | ⟨code, ht⟩ |
    ht | ⟨v, ht⟩⟩ <;> rw [ht]
  · exact .of_ended nofun rfl
  · exact .of_ended nofun hu.pc
  · exact .of_ended nofun hu.pc
  · exact .of_running (hu.status.trans hr) fun _ => rfl
  · exact .of_running (hu.status.trans hr) fun _ => rfl

theorem exec_pcRule {i : Instr} {s t : State} (hr : s.status = .running) (h : exec i s = .next t) :
    PcRule i s t := by
  by_cases he : i = .ecall
  · subst he
    cases h
    have hk := ecall_pcRule (s := s.countTrap) hr s.handlerReply
    exact ⟨hk.ended, hk.goesOn⟩
  · rcases exec_cases i s hr he with ⟨v, npc, ht, hpc, -⟩ | ⟨npc, ht, hB⟩ | ⟨a, n, v, m, -, ht, -⟩ |
      ⟨v, ht⟩ | ⟨-, ht⟩ <;> cases h.symm.trans ht
    · exact .of_running hr hpc
    · exact .of_running hr fun hn => by simp [transfers_of_format_B hB] at hn
    · exact .of_running hr fun _ => rfl
    · exact .of_ended nofun rfl
    · exact .of_ended nofun rfl

/-- Settles O34: only a decoded instruction leaves the run going, and it moves `pc` by its rule. -/
theorem pcCommit : Obligations.PcCommit := by
  intro s t h
  obtain ⟨hr, ⟨-, rfl⟩ | ⟨-, ⟨v, -, rfl⟩ | ⟨w, hw, ⟨r, -, rfl⟩ | ⟨i, hi, he⟩⟩⟩⟩ := step_cases h
  · exact ⟨fun _ => rfl, nofun⟩
  · exact ⟨fun _ => rfl, nofun⟩
  · exact ⟨fun _ => rfl, nofun⟩
  · have hk := exec_pcRule (s := s.tick) hr he
    exact ⟨hk.ended, fun hst => ⟨w, i, hw, hi, hk.goesOn hst⟩⟩

/-! ## The count and the session are unseen -/

/-- `s` with the count and the assembly session of `u`, the fields that no instruction reads. Each shared
operation of a step commutes with it. -/
def State.withUnseen (u s : State) : State :=
  { u with regs := s.regs, pc := s.pc, status := s.status, mem := s.mem, trapCount := s.trapCount,
           cfg := s.cfg }

theorem sameEngine_withUnseen (u s : State) : SameEngine s (withUnseen u s) :=
  ⟨rfl, rfl, rfl, rfl, rfl, rfl⟩

theorem eq_withUnseen_of_sameEngine {s s' : State} (h : SameEngine s s') : s' = withUnseen s' s := by
  obtain ⟨hregs, hpc, hstatus, hmem, htrap, hcfg⟩ := h
  rw [withUnseen, ← hregs, ← hpc, ← hstatus, ← hmem, ← htrap, ← hcfg]

theorem commitPc_withUnseen (u s : State) (npc : Word) :
    (withUnseen u s).commitPc npc = withUnseen u (s.commitPc npc) := by
  by_cases hr : s.status = .running
  · rw [commitPc_eq s npc hr, commitPc_eq (withUnseen u s) npc hr]; rfl
  · rw [State.commitPc, State.commitPc, if_neg hr, if_neg (show (withUnseen u s).status ≠ _ from hr)]

theorem trapAccess_withUnseen (u s : State) (x : TrapAccess) :
    (withUnseen u s).trapAccess x = (s.trapAccess x).map (withUnseen u) := by
  cases x with
  | writeReg i v => rfl
  | readByte a =>
    simp only [State.trapAccess, State.withUnseen]
    cases s.mem.readByte s.cfg.regionFill a modeRead <;> rfl
  | writeByte a b =>
    simp only [State.trapAccess, State.withUnseen]
    cases s.mem.writeByte s.cfg.regionFill a modeWrite b <;> rfl

theorem trapAccesses_withUnseen (u s : State) (xs : List TrapAccess) :
    State.trapAccesses xs (withUnseen u s) =
      (withUnseen u (State.trapAccesses xs s).1, (State.trapAccesses xs s).2) := by
  induction xs generalizing s with
  | nil => rfl
  | cons x xs ih =>
    simp only [State.trapAccesses, trapAccess_withUnseen]
    cases s.trapAccess x with
    | error v => rfl
    | ok s' => exact ih s'

theorem trapReturn_withUnseen (u s : State) (e : TrapEnding) :
    (withUnseen u s).trapReturn e = withUnseen u (s.trapReturn e) := by
  rcases e with ⟨_ | v⟩ | code
  · exact commitPc_withUnseen u s _
  · exact commitPc_withUnseen u (s.setX s.cfg.sysRetReg v) _
  · rfl

theorem takeTrap_withUnseen (u s : State) (reply : TrapReply) :
    (withUnseen u s).takeTrap reply = withUnseen u (s.takeTrap reply) := by
  cases reply with
  | unimplemented => rfl
  | runs xs e =>
    simp only [State.takeTrap, trapAccesses_withUnseen]
    rcases State.trapAccesses xs s with ⟨s', _ | v⟩
    · exact trapReturn_withUnseen u s' e
    · rfl

theorem writeAndGo_withUnseen (u : State) {s t : State} {rd : RegIdx} {v npc : Word}
    (h : writeAndGo s rd v npc = .next t) :
    writeAndGo (withUnseen u s) rd v npc = .next (withUnseen u t) := by
  cases h
  exact congrArg _ (commitPc_withUnseen u (s.setX rd v) npc)

theorem branch_withUnseen (u : State) {s t : State} {c : BranchCond} {rs1 rs2 : RegIdx} {d : BitVec 13}
    (h : branch c rs1 rs2 d s = .next t) :
    branch c rs1 rs2 d (withUnseen u s) = .next (withUnseen u t) := by
  cases h
  exact congrArg _ (commitPc_withUnseen u s _)

theorem load_withUnseen (u : State) {s t : State} {n : AccessSize} {ext : Word → Word}
    {rd rs1 : RegIdx} {imm : BitVec 12} (h : load n ext rd rs1 imm s = .next t) :
    load n ext rd rs1 imm (withUnseen u s) = .next (withUnseen u t) := by
  have hread : (withUnseen u s).memRead ((withUnseen u s).ea rs1 imm) n =
    s.memRead (s.ea rs1 imm) n := rfl
  rw [load] at h ⊢
  rw [hread]
  cases hm : s.memRead (s.ea rs1 imm) n with
  | error v => rw [hm] at h; cases h; rfl
  | ok v => rw [hm] at h; exact writeAndGo_withUnseen u h

theorem memWrite_withUnseen (u s : State) (a : Word) (n : AccessSize) (v : Word) :
    (withUnseen u s).memWrite a n v = (s.memWrite a n v).map (withUnseen u) := by
  simp only [State.memWrite, State.withUnseen]
  cases s.mem.writeN s.cfg.regionFill a n.bytes modeWrite v <;> rfl

theorem store_withUnseen (u : State) {s t : State} {n : AccessSize} {rs2 rs1 : RegIdx}
    {imm : BitVec 12} (h : store n rs2 rs1 imm s = .next t) :
    store n rs2 rs1 imm (withUnseen u s) = .next (withUnseen u t) := by
  have hwrite : (withUnseen u s).memWrite ((withUnseen u s).ea rs1 imm) n ((withUnseen u s).x rs2) =
    (s.memWrite (s.ea rs1 imm) n (s.x rs2)).map (withUnseen u) := memWrite_withUnseen u s _ n _
  rw [store] at h ⊢
  rw [hwrite]
  cases hm : s.memWrite (s.ea rs1 imm) n (s.x rs2) with
  | error v => rw [hm] at h; cases h; rfl
  | ok s' => rw [hm] at h; cases h; exact congrArg _ (commitPc_withUnseen u s' _)

/-- Replacing the count and the session before an instruction is replacing them after it, in a state of
any status. -/
theorem exec_withUnseen (u : State) {i : Instr} {s t : State} (h : exec i s = .next t) :
    exec i (withUnseen u s) = .next (withUnseen u t) := by
  cases i with
  | ecall =>
    cases h
    exact congrArg _ (takeTrap_withUnseen u s.countTrap s.handlerReply)
  | invalid => cases h; rfl
  | lb | lh | lw | lbu | lhu => exact load_withUnseen u h
  | sb | sh | sw => exact store_withUnseen u h
  | beq | bne | blt | bge | bltu | bgeu => exact branch_withUnseen u h
  | _ => exact writeAndGo_withUnseen u h

/-- Settles O38: the second state is the first with another count and session. -/
theorem countAndSessionAreUnseen : Obligations.CountAndSessionAreUnseen := by
  intro i s s' t hs h
  rw [eq_withUnseen_of_sameEngine hs]
  exact ⟨_, exec_withUnseen s' h, sameEngine_withUnseen s' t⟩

end Sys2Proof.Machine
end

section
/-! What the host, the encoder and the linker keep (`20_memory.md`, `49_relocation.md`): each of their
operations leads from a state with the invariant to one with it. -/

namespace Sys2Proof.Machine

open Sys2Proof State

/-! ## Sequencing and symbol lookup -/

/-- A sequence that is not refused ran its first operation, then its second. -/
theorem andThen_next {r : StepResult} {f : State → StepResult} {t : State}
    (h : andThen r f = .next t) : ∃ u, r = .next u ∧ f u = .next t := by
  cases r with
  | next u => exact ⟨u, rfl, h⟩
  | fault e => cases h
  | refused e => cases h

/-- `emit_bytes` writes a byte as the host's loader does, then the rest one address up (R108). -/
theorem writeBytesAt_cons_next {a : Word} {b : Byte} {bs : List Byte} {s t : State}
    (h : writeBytesAt a (b :: bs) s = .next t) :
    ∃ u, hostLoaderWrite a .byte (b.setWidth 32) s = .next u ∧ writeBytesAt (a + 1) bs u = .next t := by
  simp only [writeBytesAt] at h
  split at h
  case h_1 => cases h
  case h_2 u hu => exact ⟨u, by simp [hostLoaderWrite, hu], h⟩

theorem lookupSymbol_eq_none_iff {symbols : List (SymName × Word)} {name : SymName} :
    lookupSymbol symbols name = none ↔ name ∉ symbols.map Prod.fst := by
  induction symbols with
  | nil => simp [lookupSymbol]
  | cons p rest ih =>
    obtain ⟨n, a⟩ := p
    by_cases hn : n = name
    · simp [lookupSymbol, hn]
    · simp [lookupSymbol, hn, ih, Ne.symm hn]

theorem autoBelow_succ {n : Nat} {name : SymName} (h : autoBelow n name = true) :
    autoBelow (n + 1) name = true := by
  cases name with
  | user name => rfl
  | auto k =>
    simp only [autoBelow, decide_eq_true_eq] at h ⊢
    omega

/-! ## The invariant, one state operation at a time -/

namespace State.Inv

variable {s t : State}

/-- R8: a page is not empty. -/
theorem pageSize_pos (h : s.Inv) : 0 < s.cfg.pageSize := by
  obtain ⟨-, hparams, -⟩ := h
  simp only [Params.wf, Bool.and_eq_true, decide_eq_true_eq] at hparams
  omega

theorem memWf (h : s.Inv) : s.MemWf := by
  obtain ⟨-, -, hmem, -⟩ := h
  exact hmem

theorem setX (h : s.Inv) (i : RegIdx) (v : Word) : (s.setX i v).Inv := by
  obtain ⟨-, hrest⟩ := h
  exact ⟨setX_regs_zero s i v, hrest⟩

theorem setMem (h : s.Inv) {m : Memory} (hm : m.wf s.cfg.pageSize s.cfg.regionFill = true) :
    (s.setMem m).Inv := by
  obtain ⟨hzero, hparams, -, hrest⟩ := h
  exact ⟨hzero, hparams, hm, hrest⟩

theorem of_writeN {a v : Word} {n : Nat} {req : AccessMode} {m : Memory} (h : s.Inv)
    (hm : s.mem.writeN s.cfg.regionFill a n req v = .ok m) : (s.setMem m).Inv :=
  h.setMem (wf_writeN h.memWf hm)

theorem setCursor (h : s.Inv) (c : Word) : (s.setCursor c).Inv := h

theorem diagnose (h : s.Inv) (d : Diagnostic) : (s.diagnose d).Inv := h

theorem record (h : s.Inv) (kind : RelocKind) (name : SymName) : (s.record kind name).Inv := h

/-- R307: only an unbound name is entered, so each name stands once. -/
theorem addSymbol (h : s.Inv) {name : SymName} (hname : autoBelow s.autoCount name = true)
    (a : Word) : (s.addSymbol name a).Inv := by
  unfold State.addSymbol
  split
  case h_1 => exact h.diagnose _
  case h_2 hnone =>
    obtain ⟨hzero, hparams, hmem, hcount, hnodup, hauto⟩ := h
    refine ⟨hzero, hparams, hmem, hcount, ?_, ?_⟩
    · have hfresh : name ∉ s.symbols.map Prod.fst := lookupSymbol_eq_none_iff.1 hnone
      rw [List.map_append]
      exact hnodup.append (List.nodup_singleton name) (List.disjoint_singleton.2 hfresh)
    · simpa [hname] using hauto

/-- R309: an auto number is used up. -/
theorem autoCount_succ (h : s.Inv) : ({ s with autoCount := s.autoCount + 1 } : State).Inv := by
  obtain ⟨hzero, hparams, hmem, hcount, hnodup, hauto⟩ := h
  refine ⟨hzero, hparams, hmem, hcount, hnodup, ?_⟩
  rw [List.all_eq_true] at hauto ⊢
  exact fun p hp => autoBelow_succ (hauto p hp)

/-! ## The host's operations -/

theorem hostAllocate {base : Word} {length : Nat} {mode : AccessMode} (h : s.Inv)
    (ht : hostAllocate base length mode s = .next t) : t.Inv := by
  unfold Machine.hostAllocate at ht
  split at ht
  case h_1 => cases ht
  case h_2 m hm =>
    cases ht
    exact h.setMem (wf_allocate h.pageSize_pos h.memWf hm)

theorem hostAllocateAnywhere {length : Nat} {mode : AccessMode} (h : s.Inv)
    (ht : hostAllocateAnywhere length mode s = .next t) : t.Inv := by
  unfold Machine.hostAllocateAnywhere at ht
  split at ht
  case h_1 => cases ht
  case h_2 base m hm =>
    cases ht
    exact h.setMem (wf_allocateAnywhere h.pageSize_pos h.memWf hm)

theorem hostLoaderWrite {a v : Word} {n : AccessSize} (h : s.Inv)
    (ht : hostLoaderWrite a n v s = .next t) : t.Inv := by
  obtain ⟨m, hm, rfl⟩ := hostLoaderWrite_next ht
  exact h.of_writeN hm

theorem launch (h : s.Inv) (entry : Word) (regs : Vector Word 32) : (launch entry regs s).Inv := by
  obtain ⟨-, hparams, hmem, -, hsymbols⟩ := h
  exact ⟨by simp [Machine.launch, Vector.get_eq_getElem], hparams, hmem, Nat.zero_le _, hsymbols⟩

theorem newSession (h : s.Inv) (c : Word) : (newSession c s).Inv := by
  obtain ⟨hzero, hparams, hmem, hcount, -⟩ := h
  exact ⟨hzero, hparams, hmem, hcount, List.nodup_nil, rfl⟩

/-! ## The encoder's operations -/

/-- Every emission of one word, `emit` and `emitInstr` among them, is an `emitWord`. -/
theorem emitWord {v : Word} (h : s.Inv) (ht : emitWord v s = .next t) : t.Inv := by
  obtain ⟨m, hm, rfl⟩ := emitWord_next ht
  exact (h.of_writeN hm).setCursor _

theorem writeBytesAt {bs : List Byte} {a : Word} (h : s.Inv)
    (ht : writeBytesAt a bs s = .next t) : t.Inv := by
  induction bs generalizing a s with
  | nil =>
    cases ht
    exact h
  | cons b bs ih =>
    obtain ⟨u, hu, hrest⟩ := writeBytesAt_cons_next ht
    exact ih (h.hostLoaderWrite hu) hrest

theorem emitBytes {bs : List Byte} (h : s.Inv) (ht : emitBytes bs s = .next t) : t.Inv := by
  obtain ⟨u, hu, hcursor⟩ := andThen_next ht
  cases hcursor
  exact (h.writeBytesAt hu).setCursor _

/-- R313: the auto name is the one that the count has just passed. -/
theorem pcrelLo (h : s.Inv) (off : Word) : (s.pcrelLo off).Inv :=
  (h.autoCount_succ.addSymbol (by simp [autoBelow]) _).record _ _

theorem emitBranchTo {m : Mnemonic} {rs1 rs2 : Word} {name : SymName} (h : s.Inv)
    (ht : emitBranchTo m rs1 rs2 name s = .next t) : t.Inv := by
  unfold Machine.emitBranchTo at ht
  split at ht
  · exact (h.record _ _).emitWord ht
  · cases ht

theorem emitWithLo {m : Mnemonic} {rd rs1 off : Word} (h : s.Inv)
    (ht : emitWithLo m rd rs1 off s = .next t) : t.Inv := by
  unfold Machine.emitWithLo at ht
  split at ht
  · exact (h.pcrelLo off).emitWord ht
  · cases ht

/-! ## The linker's operations -/

theorem patch {r : Reloc} (h : s.Inv) (ht : patch r s = .next t) : t.Inv := by
  rcases patch_next ht with ⟨d, rfl⟩ | ⟨v, m, hm, rfl⟩
  · exact h.diagnose d
  · exact h.of_writeN hm

theorem patchAll {rs : List Reloc} (h : s.Inv) (ht : patchAll rs s = .next t) : t.Inv := by
  induction rs generalizing s with
  | nil =>
    cases ht
    exact h
  | cons r rs ih =>
    obtain ⟨u, hu, hrest⟩ := andThen_next ht
    exact ih (h.patch hu) hrest

theorem relocate (h : s.Inv) (ht : relocate s = .next t) : t.Inv := by
  unfold Machine.relocate at ht
  split at ht
  · cases ht
  · obtain ⟨u, hu, hlinked⟩ := andThen_next ht
    have hkept : u.Inv := h.patchAll hu
    cases hlinked
    exact hkept

end State.Inv

/-- Settles O30: one lemma above per operation; the symbolic emissions record first and then emit. -/
theorem hostOperationsKeepInvariant : Obligations.HostOperationsKeepInvariant := fun _ h =>
  ⟨fun _ _ _ _ ht => h.hostAllocate ht, fun _ _ _ ht => h.hostAllocateAnywhere ht,
    fun _ _ _ _ ht => h.hostLoaderWrite ht, h.setX, h.launch, h.newSession,
    fun _ => h.addSymbol rfl _, fun _ => h.addSymbol rfl,
    fun _ _ => h.emitWord, fun _ _ => h.emitWord, fun _ => h.emitWord,
    fun _ _ _ _ _ _ => h.emitWord, fun _ _ => h.emitBytes,
    fun _ _ => (h.record _ _).emitWord, fun _ _ _ => (h.record _ _).emitWord,
    fun _ _ _ _ _ => h.emitBranchTo, fun _ _ _ => (h.record _ _).emitWord,
    fun _ _ _ _ _ => h.emitWithLo, fun _ => h.relocate⟩

end Sys2Proof.Machine
end

section
/-! The operands of a word (`30_encoding.md` rules R90 to R93, R105): an extract, unsigned, signed or of
several fields, as the bits of the word at its positions. -/

namespace Sys2Proof

/-! ## Extracts as bits of the word -/

/-- R90. -/
theorem extractU_eq (w : Word) (f : Field) :
    extractU w f = (w.extractLsb' f.pos f.width).setWidth 32 := by
  refine word_ext fun i hi => ?_
  rw [getLsbD_extractU, BitVec.getLsbD_setWidth, BitVec.getLsbD_extractLsb', decide_eq_true hi,
    Bool.true_and]

/-- R91. -/
theorem extractS_eq (w : Word) (f : Field) :
    extractS w f = (w.extractLsb' f.pos f.width).signExtend 32 := by
  obtain ⟨h1, h2⟩ := f.valid
  rw [extractS, sextN_eq _ h1 (by omega), extractU_eq, BitVec.setWidth_setWidth_of_le _ (by omega),
    BitVec.setWidth_eq]

/-- R93: a field joined below the bits so far. -/
theorem append_extractU {n : Nat} (x : BitVec n) (w : Word) (f : Field) :
    x.setWidth 32 <<< f.width ||| extractU w f =
      (x ++ w.extractLsb' f.pos f.width).setWidth 32 := by
  refine word_ext fun i hi => ?_
  rw [BitVec.getLsbD_or, BitVec.getLsbD_shiftLeft, BitVec.getLsbD_setWidth, getLsbD_extractU,
    BitVec.getLsbD_setWidth, BitVec.getLsbD_append, BitVec.getLsbD_extractLsb']
  by_cases h : i < f.width
  · simp [h, hi]
  · simp [h, hi, show i - f.width < 32 by omega]

/-- The first field of a composite stands alone. -/
theorem zero_append_extractU (w : Word) (f : Field) :
    (0 : Word) <<< f.width ||| extractU w f = (w.extractLsb' f.pos f.width).setWidth 32 := by
  simp [extractU_eq]

/-- A displacement's missing bit 0 (R101, R103). -/
theorem signExtend_shiftLeft_one {n : Nat} (x : BitVec n) :
    x.signExtend 32 <<< 1 = (x ++ 0#1).signExtend 32 := by
  refine word_ext fun i hi => ?_
  rw [BitVec.getLsbD_shiftLeft, BitVec.getLsbD_signExtend, BitVec.getLsbD_signExtend,
    BitVec.getLsbD_append, BitVec.msb_append]
  cases i with
  | zero => simp
  | succ i =>
    have h32 : i < 32 := by omega
    by_cases h : i < n
    · simp [h, hi, h32]
    · cases n with
      | zero => simp [BitVec.eq_nil x]
      | succ n => simp [h, hi, h32, show ¬ i ≤ n by omega]

theorem rdOf_eq (w : Word) : rdOf w = w.extractLsb' 7 5 := by
  simp [rdOf, extractU_eq, fRd]

theorem rs1Of_eq (w : Word) : rs1Of w = w.extractLsb' 15 5 := by
  simp [rs1Of, extractU_eq, fRs1]

theorem rs2Of_eq (w : Word) : rs2Of w = w.extractLsb' 20 5 := by
  simp [rs2Of, extractU_eq, fRs2]

theorem shamtOf_eq (w : Word) : shamtOf w = (w.extractLsb' 20 5).setWidth 32 := extractU_eq w fRs2

theorem imm20Of_eq (w : Word) : imm20Of w = w.extractLsb' 12 20 := by
  simp [imm20Of, extractU_eq, fImmU]

theorem immI_eq (w : Word) : immI w = (w.extractLsb' 20 12).signExtend 32 := extractS_eq w fImmI

theorem immS_eq (w : Word) : immS w = (w.extractLsb' 25 7 ++ w.extractLsb' 7 5).signExtend 32 := by
  rw [immS, extractMultiS, sextN_eq _ (by decide) (by decide)]
  simp only [compS, concatFields, zero_append_extractU, append_extractU, List.map]
  rw [BitVec.setWidth_setWidth_of_le _ (by decide)]
  rfl

theorem immB_eq (w : Word) : immB w = (w.extractLsb' 31 1 ++ w.extractLsb' 7 1 ++
    w.extractLsb' 25 6 ++ w.extractLsb' 8 4 ++ 0#1).signExtend 32 := by
  rw [immB, extractMultiS, sextN_eq _ (by decide) (by decide), ← signExtend_shiftLeft_one]
  simp only [compB, concatFields, zero_append_extractU, append_extractU, List.map]
  rw [BitVec.setWidth_setWidth_of_le _ (by decide)]
  rfl

theorem immJ_eq (w : Word) : immJ w = (w.extractLsb' 31 1 ++ w.extractLsb' 12 8 ++
    w.extractLsb' 20 1 ++ w.extractLsb' 21 10 ++ 0#1).signExtend 32 := by
  rw [immJ, extractMultiS, sextN_eq _ (by decide) (by decide), ← signExtend_shiftLeft_one]
  simp only [compJ, concatFields, zero_append_extractU, append_extractU, List.map]
  rw [BitVec.setWidth_setWidth_of_le _ (by decide)]
  rfl

theorem immU_eq (w : Word) : immU w = w.extractLsb' 12 20 ++ 0#12 := by
  rw [immU, extractU_eq]
  refine word_ext fun i hi => ?_
  rw [BitVec.getLsbD_shiftLeft, BitVec.getLsbD_setWidth, BitVec.getLsbD_append]
  by_cases h : i < 12
  · simp [h]
  · simp [h, hi, fImmU, show i - 12 < 32 by omega]

/-! ## Ranges -/

theorem toInt_signExtend_range {n : Nat} (hn : n ≤ 32) (x : BitVec n) :
    -2 ^ (n - 1) ≤ (x.signExtend 32).toInt ∧ (x.signExtend 32).toInt ≤ 2 ^ (n - 1) - 1 := by
  rw [BitVec.toInt_signExtend_of_le hn]
  exact ⟨x.le_toInt, BitVec.toInt_le⟩

/-- A displacement is twice what its field holds. -/
theorem toInt_signExtend_append_zero {n : Nat} (hn : n + 1 ≤ 32) (x : BitVec n) :
    ((x ++ 0#1).signExtend 32).toInt = 2 * x.toInt := by
  rw [BitVec.toInt_signExtend_of_le hn, BitVec.toInt_append_zero]
  rfl

theorem immI_range (w : Word) : -2048 ≤ (immI w).toInt ∧ (immI w).toInt ≤ 2047 :=
  immI_eq w ▸ toInt_signExtend_range (by decide) _

theorem immS_range (w : Word) : -2048 ≤ (immS w).toInt ∧ (immS w).toInt ≤ 2047 :=
  immS_eq w ▸ toInt_signExtend_range (by decide) _

theorem immB_range (w : Word) :
    -4096 ≤ (immB w).toInt ∧ (immB w).toInt ≤ 4094 ∧ (immB w).toInt % 2 = 0 := by
  rw [immB_eq, toInt_signExtend_append_zero (by decide)]
  generalize w.extractLsb' 31 1 ++ w.extractLsb' 7 1 ++ w.extractLsb' 25 6 ++ w.extractLsb' 8 4 = d
  have hlo := d.le_toInt
  have hhi := d.toInt_lt
  omega

theorem immJ_range (w : Word) :
    -1048576 ≤ (immJ w).toInt ∧ (immJ w).toInt ≤ 1048574 ∧ (immJ w).toInt % 2 = 0 := by
  rw [immJ_eq, toInt_signExtend_append_zero (by decide)]
  generalize w.extractLsb' 31 1 ++ w.extractLsb' 12 8 ++ w.extractLsb' 20 1 ++
    w.extractLsb' 21 10 = d
  have hlo := d.le_toInt
  have hhi := d.toInt_lt
  omega

theorem immU_mod (w : Word) : (immU w).toNat % 4096 = 0 := by
  rw [immU_eq, BitVec.toNat_append]
  simp [Nat.shiftLeft_eq]

theorem shamtOf_le (w : Word) : (shamtOf w).toNat ≤ 31 := by
  rw [shamtOf_eq, BitVec.toNat_setWidth_of_le (by decide)]
  omega

/-- Settles O4: an extract is the bits of the word at its field's position (`extractU_eq`,
`extractS_eq`), a composite is its fields side by side (`append_extractU`). -/
theorem operandsOfAWord : Obligations.OperandsOfAWord := fun w =>
  ⟨rdOf_eq w, rs1Of_eq w, rs2Of_eq w, extractU_eq w fOpcode, extractU_eq w fFunct3,
    extractU_eq w fFunct7, shamtOf_eq w, immI_eq w, immS_eq w, immB_eq w, immU_eq w, immJ_eq w,
    immI_range w, shamtOf_le w, immS_range w, immB_range w, immU_mod w, immJ_range w⟩

/-! ## The codec's laws -/

/-- A field reads back what was packed where it held nothing. -/
theorem extractU_pack_same {acc : Word} {f : Field} (h : extractU acc f = 0#32) (v : Word) :
    extractU (pack acc v f) f = v &&& fieldMask f.width := by
  have hv := f.valid
  refine word_ext fun i hi => ?_
  have hacc : (extractU acc f).getLsbD i = false := by rw [h, BitVec.getLsbD_zero]
  rw [getLsbD_extractU] at hacc
  rw [getLsbD_extractU, getLsbD_pack, BitVec.getLsbD_and, getLsbD_fieldMask]
  by_cases hw : i < f.width
  · simp_all
  · simp [hw]

/-- Packing a field leaves every field beside it. -/
theorem extractU_pack_disjoint {f g : Field}
    (h : f.pos + f.width ≤ g.pos ∨ g.pos + g.width ≤ f.pos) (acc v : Word) :
    extractU (pack acc v f) g = extractU acc g := by
  refine word_ext fun i _ => ?_
  rw [getLsbD_extractU, getLsbD_extractU, getLsbD_pack]
  by_cases hw : i < g.width
  · have hout : ¬ (f.pos ≤ g.pos + i ∧ g.pos + i < f.pos + f.width) := by omega
    rw [← Bool.decide_and, decide_eq_false hout, Bool.false_and, Bool.or_false]
  · simp [hw]

/-- `sext_N` of a value of `N` bits is its two's-complement reading. -/
theorem toInt_sextN {n : Nat} (h1 : 1 ≤ n) (h : n ≤ 32) {v : Word} (hv : v.toNat < 2 ^ n) :
    (sextN n v).toInt = if 2 ^ (n - 1) ≤ v.toNat then (v.toNat : Int) - 2 ^ n else v.toNat := by
  have hpow : 2 ^ n = 2 * 2 ^ (n - 1) := (mul_pow_sub_one (by omega) 2).symm
  rw [sextN_eq n h1 h, BitVec.toInt_signExtend_of_le h, BitVec.toInt_eq_toNat_cond,
    BitVec.toNat_setWidth, Nat.mod_eq_of_lt hv]
  by_cases hs : 2 ^ (n - 1) ≤ v.toNat
  · rw [if_neg (by omega), if_pos hs]
    push_cast
    rfl
  · rw [if_pos (by omega), if_neg hs]

theorem extractU_lt (w : Word) (f : Field) : (extractU w f).toNat < 2 ^ f.width := by
  have hv := f.valid
  rw [extractU_eq, BitVec.toNat_setWidth_of_le (by omega)]
  exact BitVec.isLt _

/-- Joined fields fit the sum of their widths. -/
theorem concatFields_lt (w : Word) {fs : List Field} {acc : Word} {k : Nat} (hacc : acc.toNat < 2 ^ k)
    (h : k + (fs.map Field.width).sum ≤ 32) :
    (concatFields w acc fs).toNat < 2 ^ (k + (fs.map Field.width).sum) := by
  induction fs generalizing acc k with
  | nil => exact hacc
  | cons f fs ih =>
    simp only [List.map_cons, List.sum_cons, ← Nat.add_assoc] at h ⊢
    refine ih ?_ h
    rw [BitVec.toNat_or, BitVec.toNat_shiftLeft]
    refine Nat.or_lt_two_pow ?_ ?_
    · refine Nat.lt_of_le_of_lt (Nat.mod_le _ _) ?_
      rw [Nat.shiftLeft_eq, Nat.pow_add]
      exact Nat.mul_lt_mul_of_pos_right hacc (Nat.two_pow_pos _)
    · exact Nat.lt_of_lt_of_le (extractU_lt w f)
        (Nat.pow_le_pow_right (by decide) (Nat.le_add_left ..))

/-- Settles O5: the codec bit by bit (`getLsbD_pack`, `getLsbD_extractU`); a signed extract by
`toInt_sextN`, its bits fitting the field or fields. -/
theorem codecLaws : Obligations.CodecLaws := by
  refine ⟨fun acc v f g => ⟨fun h => extractU_pack_same h v, fun h => extractU_pack_disjoint h acc v⟩,
    fun w f => ?_, fun w c n hn => ?_⟩
  · obtain ⟨h1, h2⟩ := f.valid
    exact toInt_sextN h1 (by omega) (extractU_lt w f)
  · subst hn
    obtain ⟨h1, h2⟩ := c.valid
    have hlt := concatFields_lt w (acc := 0#32) (k := 0) (by decide) (by rwa [Nat.zero_add])
    rw [Nat.zero_add] at hlt
    exact toInt_sextN h1 h2 hlt

/-! ## Operand truncation (R106) -/

/-- A field takes its own bits of a value and no other. -/
theorem pack_congr {f : Field} {v v' : Word} (h : ∀ i < f.width, v.getLsbD i = v'.getLsbD i)
    (acc : Word) : pack acc v f = pack acc v' f := by
  refine word_ext fun i _ => ?_
  rw [getLsbD_pack, getLsbD_pack]
  by_cases hi : f.pos ≤ i ∧ i < f.pos + f.width
  · rw [h (i - f.pos) (by omega)]
  · rw [← Bool.decide_and, decide_eq_false hi, Bool.false_and, Bool.false_and]

/-- Masking a value changes no field that the mask covers. -/
theorem pack_and {f : Field} {k : Word} (hk : ∀ i < f.width, k.getLsbD i = true) (acc v : Word) :
    pack acc (v &&& k) f = pack acc v f :=
  pack_congr (fun i hi => by rw [BitVec.getLsbD_and, hk i hi, Bool.and_true]) acc

/-- The same for a field that stores the value's bits from bit `n` up. -/
theorem pack_sshiftRight_and {f : Field} {k : Word} {n : Nat}
    (hk : ∀ i < f.width, n + i < 32 ∧ k.getLsbD (n + i) = true) (acc v : Word) :
    pack acc ((v &&& k).sshiftRight n) f = pack acc (v.sshiftRight n) f := by
  refine pack_congr (fun i hi => ?_) acc
  obtain ⟨h32, hbit⟩ := hk i hi
  rw [BitVec.getLsbD_sshiftRight, BitVec.getLsbD_sshiftRight, if_pos h32, if_pos h32,
    BitVec.getLsbD_and, hbit, Bool.and_true]

@[simp] theorem pack_rd_and (acc v : Word) : pack acc (v &&& 31#32) fRd = pack acc v fRd :=
  pack_and (by decide) acc v

@[simp] theorem pack_rs1_and (acc v : Word) : pack acc (v &&& 31#32) fRs1 = pack acc v fRs1 :=
  pack_and (by decide) acc v

@[simp] theorem pack_rs2_and (acc v : Word) : pack acc (v &&& 31#32) fRs2 = pack acc v fRs2 :=
  pack_and (by decide) acc v

theorem encWord_registers_and (m : Mnemonic) (rd rs1 rs2 imm : Word) :
    encWord m (rd &&& 31#32) (rs1 &&& 31#32) (rs2 &&& 31#32) imm = encWord m rd rs1 rs2 imm := by
  unfold encWord
  cases (row m).format <;> simp [encR, encI, encShift, encS, encB, encU, encJ]

theorem encShift_and (op f3 f7 rd rs1 sh : Word) :
    encShift op f3 f7 rd rs1 (sh &&& 31#32) = encShift op f3 f7 rd rs1 sh := by
  simp [encShift, encR]

theorem encI_and (op f3 rd rs1 imm : Word) :
    encI op f3 rd rs1 (imm &&& 0xFFF#32) = encI op f3 rd rs1 imm :=
  pack_and (by decide) _ imm

theorem encU_and (op rd imm20 : Word) : encU op rd (imm20 &&& 0xFFFFF#32) = encU op rd imm20 :=
  pack_and (by decide) _ imm20

theorem encS_and (op f3 rs1 rs2 imm : Word) :
    encS op f3 rs1 rs2 (imm &&& 0xFFF#32) = encS op f3 rs1 rs2 imm := by
  rw [encS, pack_and (by decide), pack_sshiftRight_and (by decide), encS]

theorem encB_and (op f3 rs1 rs2 d : Word) :
    encB op f3 rs1 rs2 (d &&& 0x1FFE#32) = encB op f3 rs1 rs2 d := by
  rw [encB, pack_sshiftRight_and (f := fImmB11) (by decide),
    pack_sshiftRight_and (f := fImmBLo) (by decide), pack_sshiftRight_and (f := fImmBHi) (by decide),
    pack_sshiftRight_and (f := fImmB12) (by decide), encB]

theorem encJ_and (op rd d : Word) : encJ op rd (d &&& 0x1FFFFE#32) = encJ op rd d := by
  rw [encJ, pack_sshiftRight_and (f := fImmJHi) (by decide),
    pack_sshiftRight_and (f := fImmJ11) (by decide), pack_sshiftRight_and (f := fImmJLo) (by decide),
    pack_sshiftRight_and (f := fImmJ20) (by decide), encJ]

/-- Settles O6: each mask covers the bits its fields store (`pack_and`, `pack_sshiftRight_and`). -/
theorem operandsAreTruncated : Obligations.OperandsAreTruncated := by
  refine fun m rd rs1 rs2 imm => ⟨(encWord_registers_and m rd rs1 rs2 imm).symm, ?_, ?_, ?_, ?_, ?_⟩
  · rintro (hf | hf)
    · simp only [encWord, hf, encI_and]
    · simp only [encWord, hf, encS_and]
  · intro hf
    simp only [encWord, hf, encB_and]
  · intro hf
    simp only [encWord, hf, encJ_and]
  · intro hf
    simp only [encWord, hf, encU_and]
  · intro hf
    simp only [encWord, hf, encShift_and]

end Sys2Proof
end

section
/-! The decoder and the encoder undo each other (`30_encoding.md` rules R95, R104, R105, R112, R113): a
row's mask keeps its fixed bits, which are its pattern, and the bits outside the mask are its operands. -/

namespace Sys2Proof

open Machine

/-! ## The rows -/

theorem mem_decodable {m : Mnemonic} (h : m ≠ .invalid) : m ∈ decodable := by
  cases m
  case invalid => exact absurd rfl h
  all_goals decide

/-- The bits the rows of a format fix (R97 to R103, R112). -/
def Format.fixedBits : Format → Word
  | .R | .shift => 0xFE00707F
  | .I | .S | .B => 0x707F
  | .U | .J => 0x7F
  | .system | .zeroWord => 0xFFFFFFFF

theorem row_mask (m : Mnemonic) : (row m).mask = (row m).format.fixedBits := by
  cases m <;> rfl

/-- R112: a row's match column is what its opcode, `funct3` and `funct7` columns pack to. -/
theorem encWord_zero (m : Mnemonic) : encWord m 0 0 0 0 = (row m).pattern := by
  cases m <;> decide

/-- No operand reaches a fixed bit. -/
theorem encWord_and_mask (m : Mnemonic) (rd rs1 rs2 imm : Word) :
    encWord m rd rs1 rs2 imm &&& (row m).mask = (row m).pattern := by
  rw [← encWord_zero, row_mask]
  unfold encWord
  cases (row m).format with
  | R => exact encR_fixed ..
  | I => exact encI_fixed ..
  | shift => exact encR_fixed ..
  | S => exact encS_fixed ..
  | B => exact encB_fixed ..
  | U => exact encU_fixed ..
  | J => exact encJ_fixed ..
  | system => exact BitVec.and_allOnes
  | zeroWord => exact BitVec.zero_and

theorem encode_and_mask (i : Instr) :
    encode i &&& (row i.mnemonic).mask = (row i.mnemonic).pattern :=
  encWord_and_mask ..

/-! ## Decoding an encoded instruction -/

theorem evenDisplacement_iff {n : Nat} (d : BitVec n) :
    evenDisplacement d = true ↔ d.getLsbD 0 = false := by
  rw [evenDisplacement, Bool.not_eq_true']

theorem mnemonic_eq_invalid_iff (i : Instr) : i.mnemonic = .invalid ↔ i = .invalid := by
  cases i <;> simp [Instr.mnemonic]

/-- Each operand reads back from its field; bit 0 of a displacement has none, and is zero. -/
theorem build_encode {i : Instr} (h : i.WellFormed) : build (encode i) i.mnemonic = i := by
  cases i
  case beq rs1 rs2 d | bne rs1 rs2 d | blt rs1 rs2 d | bge rs1 rs2 d | bltu rs1 rs2 d | bgeu rs1 rs2 d =>
    have hd := (evenDisplacement_iff d).1 h
    simp [build, encode, Instr.mnemonic, Instr.operands, encWord, row, immB_encB _ _ _ _ d hd]
  case jal rd d =>
    have hd := (evenDisplacement_iff d).1 h
    simp [build, encode, Instr.mnemonic, Instr.operands, encWord, row, immJ_encJ _ _ d hd]
  all_goals simp [build, encode, Instr.mnemonic, Instr.operands, encWord, row, encShift]

theorem decodeWord_encode {i : Instr} (h : i.WellFormed) : decodeWord (encode i) = .ok i := by
  by_cases hi : i = .invalid
  · rw [hi]
    rfl
  · have hm : i.mnemonic ∈ decodable := mem_decodable (mt (mnemonic_eq_invalid_iff i).1 hi)
    rw [decodeWord_of_match hm ((matchesWord_iff _ _).2 (encode_and_mask i)), build_encode h]

theorem decodeBytes_leBytes (w : Word) (rest : List Byte) :
    decodeBytes (leBytes 4 w ++ rest) = (decodeWord w).map (·, rest) := by
  have hw : leWord (leBytes 4 w) = w := leWord_leBytes_four w
  simp only [leBytes] at hw
  simp only [leBytes, List.cons_append, List.nil_append, decodeBytes, hw]
  cases decodeWord w <;> rfl

/-- Settles O1: the encoded word matches its row, and each operand reads back from its field. -/
theorem decodeOfEncode : Obligations.DecodeOfEncode := fun i h => by
  refine ⟨decodeWord_encode h, fun rest => ?_⟩
  rw [encodeBytes, decodeBytes_leBytes, decodeWord_encode h]
  rfl

/-! ## Encoding a decoded word -/

theorem setWidth_signExtend {n : Nat} (hn : n ≤ 32) (x : BitVec n) :
    (x.signExtend 32).setWidth n = x := by
  refine BitVec.eq_of_getLsbD_eq fun i hi => ?_
  rw [BitVec.getLsbD_setWidth, BitVec.getLsbD_signExtend]
  simp [hi, show i < 32 by omega]

theorem immI_field (w : Word) : (immI w).setWidth 12 = w.extractLsb' 20 12 := by
  rw [immI_eq, setWidth_signExtend (by decide)]

theorem immS_field (w : Word) :
    (immS w).setWidth 12 = w.extractLsb' 25 7 ++ w.extractLsb' 7 5 := by
  rw [immS_eq, setWidth_signExtend (by decide)]

theorem immB_field (w : Word) : (immB w).setWidth 13 = w.extractLsb' 31 1 ++ w.extractLsb' 7 1 ++
    w.extractLsb' 25 6 ++ w.extractLsb' 8 4 ++ 0#1 := by
  rw [immB_eq, setWidth_signExtend (by decide)]

theorem immJ_field (w : Word) : (immJ w).setWidth 21 = w.extractLsb' 31 1 ++ w.extractLsb' 12 8 ++
    w.extractLsb' 20 1 ++ w.extractLsb' 21 10 ++ 0#1 := by
  rw [immJ_eq, setWidth_signExtend (by decide)]

/-! R104 and R105 undo each other outside the fixed bits: the fields a format takes from a word, packed
again, give the word's bits back, whatever the fixed fields hold. -/

theorem encR_operands (op f3 f7 w : Word) :
    encR op f3 f7 ((rdOf w).setWidth 32) ((rs1Of w).setWidth 32) ((rs2Of w).setWidth 32) &&&
      ~~~0xFE00707F = w &&& ~~~0xFE00707F := by
  refine word_ext fun i hi => ?_
  simp only [encR, rdOf, rs1Of, rs2Of, BitVec.getLsbD_and, BitVec.getLsbD_setWidth, getLsbD_extractU,
    getLsbD_pack, fOpcode, fRd, fFunct3, fRs1, fRs2, fFunct7]
  interval_cases i <;> simp

theorem encShift_operands (op f3 f7 w : Word) :
    encShift op f3 f7 ((rdOf w).setWidth 32) ((rs1Of w).setWidth 32)
      (((shamtOf w).setWidth 5).setWidth 32) &&& ~~~0xFE00707F = w &&& ~~~0xFE00707F :=
  encR_operands op f3 f7 w

theorem encI_operands (op f3 w : Word) :
    encI op f3 ((rdOf w).setWidth 32) ((rs1Of w).setWidth 32) (((immI w).setWidth 12).signExtend 32) &&&
      ~~~0x707F = w &&& ~~~0x707F := by
  refine word_ext fun i hi => ?_
  simp only [encI, immI_field, rdOf, rs1Of, BitVec.getLsbD_and, BitVec.getLsbD_setWidth,
    BitVec.getLsbD_signExtend, BitVec.getLsbD_extractLsb', getLsbD_extractU, getLsbD_pack, fOpcode, fRd,
    fFunct3, fRs1, fImmI]
  interval_cases i <;> simp

theorem encS_operands (op f3 w : Word) :
    encS op f3 ((rs1Of w).setWidth 32) ((rs2Of w).setWidth 32) (((immS w).setWidth 12).signExtend 32) &&&
      ~~~0x707F = w &&& ~~~0x707F := by
  refine word_ext fun i hi => ?_
  simp only [encS, immS_field, rs1Of, rs2Of, BitVec.getLsbD_and, BitVec.getLsbD_setWidth,
    BitVec.getLsbD_sshiftRight, BitVec.getLsbD_signExtend, BitVec.getLsbD_append,
    BitVec.getLsbD_extractLsb', getLsbD_extractU, getLsbD_pack, fOpcode, fFunct3, fRs1, fRs2, fImmSLo,
    fImmSHi]
  interval_cases i <;> simp

theorem encB_operands (op f3 w : Word) :
    encB op f3 ((rs1Of w).setWidth 32) ((rs2Of w).setWidth 32) (((immB w).setWidth 13).signExtend 32) &&&
      ~~~0x707F = w &&& ~~~0x707F := by
  refine word_ext fun i hi => ?_
  simp only [encB, immB_field, rs1Of, rs2Of, BitVec.getLsbD_and, BitVec.getLsbD_setWidth,
    BitVec.getLsbD_sshiftRight, BitVec.getLsbD_signExtend, BitVec.getLsbD_append,
    BitVec.getLsbD_extractLsb', getLsbD_extractU, getLsbD_pack, fOpcode, fFunct3, fRs1, fRs2, fImmB12,
    fImmB11, fImmBHi, fImmBLo]
  interval_cases i <;> simp

theorem encU_operands (op w : Word) :
    encU op ((rdOf w).setWidth 32) ((imm20Of w).setWidth 32) &&& ~~~0x7F = w &&& ~~~0x7F := by
  refine word_ext fun i hi => ?_
  simp only [encU, rdOf, imm20Of, BitVec.getLsbD_and, BitVec.getLsbD_setWidth, getLsbD_extractU,
    getLsbD_pack, fOpcode, fRd, fImmU]
  interval_cases i <;> simp

theorem encJ_operands (op w : Word) :
    encJ op ((rdOf w).setWidth 32) (((immJ w).setWidth 21).signExtend 32) &&& ~~~0x7F =
      w &&& ~~~0x7F := by
  refine word_ext fun i hi => ?_
  simp only [encJ, immJ_field, rdOf, BitVec.getLsbD_and, BitVec.getLsbD_setWidth,
    BitVec.getLsbD_sshiftRight, BitVec.getLsbD_signExtend, BitVec.getLsbD_append,
    BitVec.getLsbD_extractLsb', getLsbD_extractU, getLsbD_pack, fOpcode, fRd, fImmJ20, fImmJHi, fImmJ11,
    fImmJLo]
  interval_cases i <;> simp

/-- R104, R105: outside its row's fixed bits a word is its operands. -/
theorem encode_build_operands {m : Mnemonic} (hm : m ∈ decodable) (w : Word) :
    encode (build w m) &&& ~~~(row m).mask = w &&& ~~~(row m).mask := by
  cases m
  case invalid => exact absurd hm (by decide)
  case ecall => exact BitVec.and_zero.trans BitVec.and_zero.symm
  case slli | srli | srai => exact encShift_operands ..
  case sb | sh | sw => exact encS_operands ..
  case beq | bne | blt | bge | bltu | bgeu => exact encB_operands ..
  case lui | auipc => exact encU_operands ..
  case jal => exact encJ_operands ..
  case addi | slti | sltiu | xori | ori | andi | lb | lh | lw | lbu | lhu | jalr =>
    exact encI_operands ..
  all_goals exact encR_operands ..

theorem mnemonic_build (w : Word) (m : Mnemonic) : (build w m).mnemonic = m := by
  cases m <;> rfl

/-- Two words that agree on a mask's bits and off them are one. -/
theorem eq_of_masked {a b k : Word} (hin : a &&& k = b &&& k) (hout : a &&& ~~~k = b &&& ~~~k) :
    a = b := by
  refine word_ext fun i hi => ?_
  have h1 := congrArg (·.getLsbD i) hin
  have h2 := congrArg (·.getLsbD i) hout
  simp only [BitVec.getLsbD_and, BitVec.getLsbD_not, decide_eq_true hi, Bool.true_and] at h1 h2
  cases hk : k.getLsbD i
  · simpa [hk] using h2
  · simpa [hk] using h1

theorem encode_build {m : Mnemonic} (hm : m ∈ decodable) {w : Word}
    (h : w &&& (row m).mask = (row m).pattern) : encode (build w m) = w := by
  have hfixed := encode_and_mask (build w m)
  rw [mnemonic_build] at hfixed
  exact eq_of_masked (hfixed.trans h.symm) (encode_build_operands hm w)

theorem build_wellFormed (w : Word) (m : Mnemonic) : (build w m).WellFormed := by
  cases m
  case beq | bne | blt | bge | bltu | bgeu =>
    refine (evenDisplacement_iff _).2 ?_
    rw [immB_field, BitVec.getLsbD_append]
    rfl
  case jal =>
    refine (evenDisplacement_iff _).2 ?_
    rw [immJ_field, BitVec.getLsbD_append]
    rfl
  all_goals rfl

/-- Settles O2: an accepted word agrees with the encoding on its row's fixed bits, which are the row's
pattern, and on all the others, which are operands. -/
theorem encodeOfDecode : Obligations.EncodeOfDecode := by
  intro w i h
  rcases decodeWord_ok h with ⟨rfl, rfl⟩ | ⟨m, hm, hmatch, rfl⟩
  · exact ⟨rfl, rfl⟩
  · exact ⟨build_wellFormed w m, encode_build hm ((matchesWord_iff _ _).1 hmatch)⟩

/-- Settles O3: two rows are apart (`row_unique`), and a word is decoded only by a row it matches. -/
theorem decodingFollowsTheRows : Obligations.DecodingFollowsTheRows := by
  refine fun w => ⟨?_, fun m hm h => ⟨?_, fun n hn hmatch => ?_⟩, fun h0 hno => ?_⟩
  · rintro rfl
    rfl
  · exact decodeWord_of_match (mem_decodable hm) ((matchesWord_iff _ _).2 h)
  · exact row_unique (mem_decodable hn) (mem_decodable hm) ((matchesWord_iff _ _).2 hmatch)
      ((matchesWord_iff _ _).2 h)
  · cases hd : decodeWord w with
    | error r => exact ⟨r, rfl⟩
    | ok i =>
      rcases decodeWord_ok hd with ⟨hw, -⟩ | ⟨m, hm, hmatch, -⟩
      · exact absurd hw h0
      · have hne : m ≠ .invalid := by
          rintro rfl
          exact absurd hm (by decide)
        exact absurd ((matchesWord_iff _ _).1 hmatch) (hno m hne)

end Sys2Proof
end

section
/-! The illegal words (`30_encoding.md` rule R114): no row of the opcode map matches one, so a step that
fetches one raises `IllegalInstruction`. -/

namespace Sys2Proof.Machine

open Sys2Proof State

/-- A field that a mask covers holds the row's value in every word that matches. -/
theorem extractLsb'_of_match {w k p : Word} (h : w &&& k = p) {pos len : Nat}
    (hk : k.extractLsb' pos len = BitVec.allOnes len) :
    w.extractLsb' pos len = p.extractLsb' pos len := by
  rw [← h, BitVec.extractLsb'_and, hk, BitVec.and_allOnes]

/-- The fields that a row fixes exclude every shape of R114: the opcode for formats U and J, `funct3` too
for I, S and B, `funct7` too for the rest. -/
theorem not_illegalShape_of_match {w : Word} {m : Mnemonic} (hm : m ∈ decodable)
    (h : w &&& (row m).mask = (row m).pattern) : ¬ IllegalShape w := by
  cases m
  case invalid => exact absurd hm (by decide)
  case ecall =>
    obtain rfl : w = 0x73#32 := BitVec.and_allOnes.symm.trans h
    simp [IllegalShape]
  all_goals have hop := extractLsb'_of_match h (pos := 0) (len := 7) (by decide)
  case lui | auipc | jal => simp [IllegalShape, hop, row]
  all_goals have hf3 := extractLsb'_of_match h (pos := 12) (len := 3) (by decide)
  case addi | slti | sltiu | xori | ori | andi | lb | lh | lw | lbu | lhu | jalr | sb | sh | sw | beq |
      bne | blt | bge | bltu | bgeu =>
    simp [IllegalShape, hop, hf3, row]
  all_goals
    have hf7 := extractLsb'_of_match h (pos := 25) (len := 7) (by decide)
    simp [IllegalShape, hop, hf3, hf7, row]

theorem decodeWord_illegal {w : Word} (h : IllegalShape w) : ∃ r, decodeWord w = .error r := by
  cases hd : decodeWord w with
  | error r => exact ⟨r, rfl⟩
  | ok i =>
    rcases decodeWord_ok hd with ⟨rfl, -⟩ | ⟨m, hm, hmatch, -⟩
    · simp [IllegalShape] at h
    · exact absurd h (not_illegalShape_of_match hm ((matchesWord_iff _ _).1 hmatch))

/-- Settles O8: an illegal shape matches no row, so it is no instruction. -/
theorem illegalWordsRaise : Obligations.IllegalWordsRaise := by
  intro s w hr hb hf h
  obtain ⟨r, hd⟩ := decodeWord_illegal h
  have hfetch : s.tick.memFetch s.tick.pc = .ok w := hf
  rw [step_of_running hr, if_neg (by omega), fetchAndExecute, hfetch]
  simp only [hd]
  rfl

end Sys2Proof.Machine
end

section
/-! Emission (`30_encoding.md` rules R107 to R110): what the loader port's writes at the cursor leave, for
a word, for raw bytes and for a symbolic operand, and how they are refused. -/

namespace Sys2Proof.Machine

open Sys2Proof State

/-! ## Bytes after a gated write -/

theorem byteAt_writeN_inside {s : State} (hw : s.MemWf) {a v : Word} {n : Nat} {req : AccessMode}
    {m : Memory} (hm : s.mem.writeN s.cfg.regionFill a n req v = .ok m) {k : Nat} (hk : k < n) :
    (s.setMem m).byteAt (a.toNat + k) = v.extractLsb' (8 * k) 8 := by
  obtain ⟨-, -, hsorted, -⟩ := wf_parts hw
  have hlen : k < (leBytes n v).length := by rwa [length_leBytes]
  rw [(writeN_ok hm).2]
  exact (cellGet_cellSetN_inside hsorted hlen).trans (leBytes_get n v k hlen)

theorem byteAt_writeN_outside {s : State} {a v : Word} {n : Nat} {req : AccessMode} {m : Memory}
    (hm : s.mem.writeN s.cfg.regionFill a n req v = .ok m) {b : Nat}
    (hb : b < a.toNat ∨ a.toNat + n ≤ b) :
    (s.setMem m).byteAt b = s.byteAt b := by
  rw [(writeN_ok hm).2]
  exact cellGet_cellSetN_outside _ _ _ _ (by rwa [length_leBytes])

/-- R62: the word written stands little-endian at its address. -/
theorem wordAt_writeN {s : State} (hw : s.MemWf) {a v : Word} {req : AccessMode} {m : Memory}
    (hm : s.mem.writeN s.cfg.regionFill a 4 req v = .ok m) : (s.setMem m).wordAt a.toNat = v := by
  obtain ⟨-, -, hsorted, -⟩ := wf_parts hw
  have hread := cellGetN_cellSetN (a := a.toNat) (bs := leBytes 4 v) hsorted
  rw [length_leBytes] at hread
  rw [(writeN_ok hm).2]
  exact (leWord_four ..).symm.trans ((congrArg leWord hread).trans (leWord_leBytes_four v))

/-! ## One word -/

theorem emitStep_of_admits {s : State} (hw : s.MemWf) (v : Word) (h : s.Admits s.cursor 4 modeLoader) :
    ∃ t, emitWord v s = .next t ∧ EmitStep s t v s.relocs := by
  obtain ⟨m, hm, he⟩ := emitWord_of_admits hw v h
  exact ⟨_, he, rfl, writeN_regions hm, wordAt_writeN hw hm, fun b req hb =>
    readByte_writeN_outside hm req hb⟩

/-- A check that refuses the four bytes refuses every word there. -/
theorem emitWord_refused {s : State} {e : Violation} (h : s.mem.check s.cursor 4 modeLoader = .error e)
    (v : Word) : emitWord v s = .refused (.loaderAccess e) := by
  simp [emitWord, State.loaderWrite, AccessSize.bytes, Memory.writeN, h]

/-- Settles O47: one gated write at the cursor, and the cursor's advance; the other emissions are by
definition `emitWord` of their word. -/
theorem emitWritesTheWord : Obligations.EmitWritesTheWord := by
  refine fun s v hw => ⟨emitStep_of_admits hw v, fun h => ?_, fun _ _ _ _ _ => rfl, fun _ => rfl, rfl⟩
  obtain ⟨why, hwhy, hc⟩ := check_refused hw h
  exact ⟨why, hwhy, emitWord_refused hc v⟩

/-! ## Symbolic operands -/

/-- An emission after a recorded relocation. -/
theorem emitStep_record {s : State} (hw : s.MemWf) (h : s.Admits s.cursor 4 modeLoader) (v : Word)
    (kind : RelocKind) (name : SymName) :
    ∃ t, emitWord v (s.record kind name) = .next t ∧
      EmitStep s t v (s.relocs ++ [⟨s.cursor, kind, name⟩]) :=
  emitStep_of_admits (s := s.record kind name) hw v h

/-- Recording moves neither the cursor nor the regions, so the access check answers as before it. -/
theorem emitWord_record_refused {s : State} {e : Violation}
    (h : s.mem.check s.cursor 4 modeLoader = .error e) (v : Word) (kind : RelocKind) (name : SymName) :
    emitWord v (s.record kind name) = .refused (.loaderAccess e) :=
  emitWord_refused (s := s.record kind name) h v

theorem row_opcode_of_branch {m : Mnemonic} (h : (row m).format = .B) :
    (row m).opcode = 0b1100011#32 := by
  revert h
  cases m <;> decide

theorem emitBranchTo_of_branch {m : Mnemonic} (h : (row m).format = .B) (rs1 rs2 : Word) (name : SymName)
    (s : State) : emitBranchTo m rs1 rs2 name s =
      emitWord (encB 0b1100011#32 (row m).funct3 rs1 rs2 0#32) (s.record .branchPcRel name) := by
  rw [emitBranchTo, if_pos h, emit, encWord, h, row_opcode_of_branch h]
  rfl

/-- Settles O52: each symbolic emission is `emitWord` of its word with the field zero, after its relocation
is recorded. -/
theorem symbolicOperandsRecord : Obligations.SymbolicOperandsRecord := by
  refine fun s name r a b m hw => ⟨fun h => ⟨emitStep_record hw h _ _ _, fun hB => ?_,
    emitStep_record hw h _ _ _, emitStep_record hw h _ _ _⟩, fun h => ?_, fun hB => if_neg hB⟩
  · rw [emitBranchTo_of_branch hB]
    exact emitStep_record hw h _ _ _
  · obtain ⟨why, hwhy, hc⟩ := check_refused hw h
    refine ⟨why, hwhy, emitWord_record_refused hc _ _ _, fun hB => ?_,
      emitWord_record_refused hc _ _ _, emitWord_record_refused hc _ _ _⟩
    rw [emitBranchTo_of_branch hB]
    exact emitWord_record_refused hc _ _ _

/-! ## Raw bytes -/

/-- Byte `k + 1` from `a` on is another address than `a`, as long as the bytes do not go round. -/
theorem ne_add_ofNat {a : Word} {k : Nat} (h0 : 0 < k) (h : k < 2 ^ 32) : a ≠ a + BitVec.ofNat 32 k := by
  intro he
  have := congrArg BitVec.toNat (BitVec.self_eq_add_right.1 he)
  simp at this
  omega

theorem byteAt_write_byte {s : State} (hw : s.MemWf) {a : Word} {b : Byte} {m : Memory}
    (hm : s.mem.writeN s.cfg.regionFill a 1 modeLoader (b.setWidth 32) = .ok m) :
    (s.setMem m).byteAt a.toNat = b := by
  have hbyte := byteAt_writeN_inside hw hm (k := 0) (by decide)
  simpa [BitVec.extractLsb'_setWidth_of_le] using hbyte

theorem byteAt_write_byte_other {s : State} {a c : Word} {v : Word} {m : Memory}
    (hm : s.mem.writeN s.cfg.regionFill a 1 modeLoader v = .ok m) (hc : c ≠ a) :
    (s.setMem m).byteAt c.toNat = s.byteAt c.toNat := by
  have : c.toNat ≠ a.toNat := fun h => hc (BitVec.eq_of_toNat_eq h)
  exact byteAt_writeN_outside hm (by omega)

/-- What a run of bytes that completes leaves (R108): only memory differs, the regions stay. -/
theorem writeBytesAt_state {bs : List Byte} {a : Word} {s t : State} (h : writeBytesAt a bs s = .next t) :
    t = s.setMem t.mem ∧ t.mem.regions = s.mem.regions := by
  induction bs generalizing a s with
  | nil =>
    cases h
    exact ⟨rfl, rfl⟩
  | cons b bs ih =>
    obtain ⟨u, hu, hrest⟩ := writeBytesAt_cons_next h
    obtain ⟨m, hm, rfl⟩ := hostLoaderWrite_next hu
    obtain ⟨ht, hr⟩ := ih hrest
    exact ⟨ht, hr.trans (writeN_regions hm)⟩

theorem writeBytesAt_other {bs : List Byte} {a c : Word} {s t : State} (h : writeBytesAt a bs s = .next t)
    (hc : ∀ k < bs.length, c ≠ a + BitVec.ofNat 32 k) : t.byteAt c.toNat = s.byteAt c.toNat := by
  induction bs generalizing a s with
  | nil =>
    cases h
    rfl
  | cons b bs ih =>
    obtain ⟨u, hu, hrest⟩ := writeBytesAt_cons_next h
    obtain ⟨m, hm, rfl⟩ := hostLoaderWrite_next hu
    have hfirst : c ≠ a := by simpa using hc 0 (by simp)
    have htail : ∀ k < bs.length, c ≠ a + 1 + BitVec.ofNat 32 k := fun k hk => by
      rw [add_one_add]
      exact hc (k + 1) (by simpa using hk)
    rw [ih hrest htail, byteAt_write_byte_other hm hfirst]

theorem writeBytesAt_bytes {bs : List Byte} {a : Word} {s t : State} (hw : s.MemWf)
    (h : writeBytesAt a bs s = .next t) (hlen : bs.length ≤ 2 ^ 32) {k : Nat} (hk : k < bs.length) :
    t.byteAt (a + BitVec.ofNat 32 k).toNat = bs[k] := by
  induction bs generalizing a s k with
  | nil => cases hk
  | cons b bs ih =>
    obtain ⟨u, hu, hrest⟩ := writeBytesAt_cons_next h
    obtain ⟨m, hm, rfl⟩ := hostLoaderWrite_next hu
    rw [List.length_cons] at hlen
    cases k with
    | zero =>
      have hlater : ∀ j < bs.length, a ≠ a + 1 + BitVec.ofNat 32 j := fun j hj => by
        rw [add_one_add]
        exact ne_add_ofNat (by omega) (by omega)
      rw [BitVec.add_zero, writeBytesAt_other hrest hlater]
      exact byteAt_write_byte hw hm
    | succ k =>
      rw [← add_one_add]
      exact ih (s := s.setMem m) (wf_writeN hw hm) hrest (by omega) (by simpa using hk)

/-- Settles O49: the bytes are written one address after the other, none over an earlier one. -/
theorem emitBytesRule : Obligations.EmitBytesRule := by
  refine fun s bs hw => ⟨fun h => ?_, fun k hk hbefore hn => ?_⟩
  · obtain ⟨t, ht⟩ := writeBytesAt_of_admits hw h
    obtain ⟨hstate, hregions⟩ := writeBytesAt_state ht
    refine ⟨t.setCursor (s.cursor + BitVec.ofNat 32 bs.length), by rw [emitBytes, ht]; rfl, ?_,
      hregions, fun hlen k hk => writeBytesAt_bytes hw ht hlen hk,
      fun c hc => (writeBytesAt_other ht hc :)⟩
    rw [hstate]
    rfl
  · rw [emitBytes, writeBytesAt_refused hw hk hbefore hn]
    rfl

end Sys2Proof.Machine
end

section
/-! One step (`40_engine_step.md` rules R141 to R144): what each answer of the fetch and of the decoder
makes of it, and the launch of an emitted instruction. -/

namespace Sys2Proof.Machine

open Sys2Proof State

/-! ## Fetch and decode -/

theorem step_within_budget {s : State} (hr : s.status = .running)
    (hb : s.icount < s.cfg.watchdogBudget) : step s = fetchAndExecute s.tick := by
  rw [step_of_running hr, if_neg (by omega)]

theorem fetchAndExecute_of_refused {s : State} {v : Violation} (hf : s.memFetch s.pc = .error v) :
    fetchAndExecute s = .next (s.raise (.memoryProtectionViolation v)) := by
  rw [fetchAndExecute, hf]

theorem fetchAndExecute_of_rejected {s : State} {w : Word} {r : Reject}
    (hf : s.memFetch s.pc = .ok w) (hd : decodeWord w = .error r) :
    fetchAndExecute s = .next (s.raise (.illegalInstruction w)) := by
  simp only [fetchAndExecute, hf, hd]

theorem fetchAndExecute_of_decoded {s : State} {w : Word} {i : Instr}
    (hf : s.memFetch s.pc = .ok w) (hd : decodeWord w = .ok i) : fetchAndExecute s = exec i s := by
  simp only [fetchAndExecute, hf, hd]

/-- Settles O24: below the budget the count comes first; it is not what the fetch reads. -/
theorem stepRunsDecodedInstruction : Obligations.StepRunsDecodedInstruction :=
  fun s _ _ hr hb hf hd =>
    (step_within_budget hr hb).trans (fetchAndExecute_of_decoded (s := s.tick) hf hd)

/-- R142: an admitted fetch gets the word that stands there. -/
theorem memFetch_of_admits {s : State} (hw : s.MemWf) {a : Word} (h : s.Admits a 4 modeExec) :
    s.memFetch a = .ok (s.wordAt a.toNat) := by
  rw [State.memFetch, readN_of_admits hw (by decide) h, leWord_four]
  rfl

/-- The reason of a refused fetch is R57's where the address space is in its one form; the fetch is
refused in any case. -/
theorem memFetch_of_not_admits {s : State} {a : Word} (h : ¬ s.Admits a 4 modeExec) :
    ∃ why, (s.MemWf → RefusalReason s a modeExec why) ∧
      s.memFetch a = .error ⟨why, a, modeExec⟩ := by
  by_cases hw : s.MemWf
  · obtain ⟨why, hwhy, hf⟩ := readN_refused hw h
    exact ⟨why, fun _ => hwhy, hf⟩
  · obtain ⟨why, hf⟩ := readN_of_not_admits h
    exact ⟨why, fun hw' => absurd hw' hw, hf⟩

/-- Settles O26: the fetch by whether the regions admit it; the zero word is decoded as the halt word. -/
theorem fetchOutcomes : Obligations.FetchOutcomes := by
  refine fun s hr hb => ⟨fun hn => ?_, fun hw ha h0 => ?_, fun hw ha ⟨r, hd⟩ => ?_⟩
  · obtain ⟨why, hwhy, hf⟩ := memFetch_of_not_admits hn
    exact ⟨why, hwhy, (step_within_budget hr hb).trans (fetchAndExecute_of_refused (s := s.tick) hf)⟩
  · have hf : s.memFetch s.pc = .ok 0#32 := h0 ▸ memFetch_of_admits hw ha
    exact stepRunsDecodedInstruction s 0#32 .invalid hr hb hf rfl
  · exact (step_within_budget hr hb).trans
      (fetchAndExecute_of_rejected (s := s.tick) (memFetch_of_admits hw ha) hd)

/-! ## An emitted instruction -/

/-- R75 for the loader port: an emitted word is what a fetch at its address sees. -/
theorem memFetch_emitWord {s t : State} {v : Word} (hw : s.MemWf) (ha : s.Admits s.cursor 4 modeExec)
    (h : emitWord v s = .next t) : t.memFetch s.cursor = .ok v := by
  obtain ⟨m, hm, rfl⟩ := emitWord_next h
  exact readN_writeN_word hw hm (check_of_admits hw (by decide) ha)

theorem emitWord_cfg {s t : State} {v : Word} (h : emitWord v s = .next t) : t.cfg = s.cfg := by
  obtain ⟨m, -, rfl⟩ := emitWord_next h
  rfl

/-- Settles O48: the launch fetches the emitted word, which decodes to its instruction. -/
theorem emittedInstructionRuns : Obligations.EmittedInstructionRuns := by
  intro s t i regs hw hi ha hb ht
  have hbudget : 0 < t.cfg.watchdogBudget := emitWord_cfg ht ▸ hb
  exact stepRunsDecodedInstruction (launch s.cursor regs t) (encode i) i rfl hbudget
    (memFetch_emitWord (t := t) hw ha ht) (decodeWord_encode hi)

/-! ## What an instruction writes -/

/-- What an instruction other than `ecall` may write: the register its `rd` field names (R146), and
memory if it is a store (R27). -/
structure WritesOneDestination (i : Instr) (s t : State) : Prop where
  others : ∀ j, j ≠ i.operands.rd → t.x j = s.x j
  noRd : (row i.mnemonic).format = .S ∨ (row i.mnemonic).format = .B → ∀ j, t.x j = s.x j
  mem : (row i.mnemonic).format ≠ .S → t.mem = s.mem

theorem WritesOneDestination.of_regs {i : Instr} {s t : State} (hregs : t.regs = s.regs)
    (hmem : (row i.mnemonic).format ≠ .S → t.mem = s.mem) : WritesOneDestination i s t :=
  ⟨fun j _ => x_congr hregs j, fun _ => x_congr hregs, hmem⟩

theorem WritesOneDestination.of_setX {i : Instr} {s : State} (v npc : Word)
    (hS : (row i.mnemonic).format ≠ .S) (hB : (row i.mnemonic).format ≠ .B) :
    WritesOneDestination i s { s.setX i.operands.rd v with pc := npc } :=
  ⟨fun j hj => (x_congr rfl j).trans (setX_x_other s _ j v hj), fun h => (h.elim hS hB).elim,
    fun _ => rfl⟩

theorem exec_writesOneDestination {i : Instr} {s t : State} (hr : s.status = .running)
    (he : i ≠ .ecall) (h : exec i s = .next t) : WritesOneDestination i s t := by
  rcases exec_cases i s hr he with ⟨v, npc, ht, -, hS, hB⟩ | ⟨npc, ht, -⟩ |
    ⟨a, n, v, m, -, ht, hS⟩ | ⟨v, ht⟩ | ⟨-, ht⟩ <;> cases h.symm.trans ht
  · exact .of_setX v npc hS hB
  · exact .of_regs rfl fun _ => rfl
  · exact .of_regs rfl fun hn => absurd hS hn
  · exact .of_regs rfl fun _ => rfl
  · exact .of_regs rfl fun _ => rfl

/-- Settles O35: `ecall`'s format is neither S nor B, and its other clauses say nothing of it. -/
theorem oneDestinationPerInstruction : Obligations.OneDestinationPerInstruction := by
  intro i s t hr h
  have writes := fun he => exec_writesOneDestination hr he h
  refine ⟨(exec_keeps hr h).zero, fun he => (writes he).others, fun hSB => (writes ?_).noRd hSB,
    fun hS he => (writes he).mem hS⟩
  rintro rfl
  revert hSB
  decide

end Sys2Proof.Machine
end

section
/-! The datapath (`40_engine_step.md` rules R150 to R155): the operand forms of the instruction rules are
the immediates of the word, and each shape of an instruction is what the multiplexers select. -/

namespace Sys2Proof.Machine

open Sys2Proof State

/-! ## The immediates (R105) -/

theorem sext12_immI (w : Word) : sext12 ((immI w).setWidth 12) = immI w := by
  rw [sext12, immI_field, immI_eq]

theorem sext12_immS (w : Word) : sext12 ((immS w).setWidth 12) = immS w := by
  rw [sext12, immS_field, immS_eq]

theorem signExtend_immB (w : Word) : ((immB w).setWidth 13).signExtend 32 = immB w := by
  rw [immB_field, immB_eq]

theorem signExtend_immJ (w : Word) : ((immJ w).setWidth 21).signExtend 32 = immJ w := by
  rw [immJ_field, immJ_eq]

theorem setWidth_shamtOf (w : Word) : ((shamtOf w).setWidth 5).setWidth 32 = shamtOf w := by
  rw [shamtOf_eq, BitVec.setWidth_setWidth_of_le (w.extractLsb' 20 5) (by decide), BitVec.setWidth_eq]

theorem upperImm_imm20Of (w : Word) : upperImm (imm20Of w) = immU w := by
  rw [upperImm, imm20Of_eq, immU, extractU_eq]
  rfl

/-! ## The shapes of an instruction through the multiplexers -/

section Shapes

variable {m : Mnemonic} {w : Word} {s : State}

/-- R153: the ALU's result written back. -/
theorem aluResult_datapath {a : AluA} {b : AluB} {op : AluOp} {v : Word}
    (hm : controlOf m = ⟨a, b, op, .idle, .aluResult, .pc4⟩)
    (hv : v = alu op (aluAVal s w a) (aluBVal s w b)) :
    writeAndGo s (rdOf w) v (s.pc + 4) = .next (datapath m w s) := by
  simp [writeAndGo, datapath, hm, hv, memStage, writeBack, nextPc]

/-- R154: the return address written back, the target taken from the next-pc multiplexer. -/
theorem link_datapath {a : AluA} {b : AluB} {op : AluOp} {sel : PcSel} {npc : Word}
    (hm : controlOf m = ⟨a, b, op, .idle, .pc4, sel⟩)
    (hn : npc = nextPc sel s w (alu op (aluAVal s w a) (aluBVal s w b))) :
    writeAndGo s (rdOf w) (s.pc + 4) npc = .next (datapath m w s) := by
  simp [writeAndGo, datapath, hm, hn, memStage, writeBack]

theorem branch_datapath {c : BranchCond} (hm : controlOf m = ctlBranch c) :
    branch c (rs1Of w) (rs2Of w) ((immB w).setWidth 13) s = .next (datapath m w s) := by
  simp [branch, signExtend_immB, datapath, hm, ctlBranch, memStage, writeBack, nextPc]

theorem load_datapath {n : AccessSize} {signed : Bool} {extend : Word → Word}
    (hm : controlOf m = ctlLoad n signed) (hx : extend = extendLoaded n signed) :
    load n extend (rdOf w) (rs1Of w) ((immI w).setWidth 12) s = .next (datapath m w s) := by
  simp only [load, State.ea, sext12_immI, hx, datapath, hm, ctlLoad, memStage, aluAVal, aluBVal, alu,
    reduceCtorEq, if_false]
  cases s.memRead (s.x (rs1Of w) + immI w) n <;> rfl

theorem store_datapath {n : AccessSize} (hm : controlOf m = ctlStore n) :
    store n (rs2Of w) (rs1Of w) ((immS w).setWidth 12) s = .next (datapath m w s) := by
  simp only [store, State.ea, sext12_immS, datapath, hm, ctlStore, memStage, aluAVal, aluBVal, alu,
    reduceCtorEq, if_false]
  cases s.memWrite (s.x (rs1Of w) + immS w) n (s.x (rs2Of w)) <;> rfl

end Shapes

/-- R155 row by row. The halt word, whose status no multiplexer sets, is no decoded row. -/
theorem exec_build {m : Mnemonic} (hm : m ∈ decodable) (w : Word) (s : State) :
    exec (build w m) s = .next (datapath m w s) := by
  cases m
  case invalid => exact absurd hm (by decide)
  case addi | slti | sltiu | xori | ori | andi =>
    exact aluResult_datapath rfl (congrArg (alu _ _) (sext12_immI w))
  case slli | srli | srai => exact aluResult_datapath rfl (congrArg (alu _ _) (setWidth_shamtOf w))
  case lb | lh | lw | lbu | lhu => exact load_datapath rfl rfl
  case sb | sh | sw => exact store_datapath rfl
  case beq | bne | blt | bge | bltu | bgeu => exact branch_datapath rfl
  case lui => exact aluResult_datapath rfl ((upperImm_imm20Of w).trans (BitVec.zero_add _).symm)
  case auipc => exact aluResult_datapath rfl (congrArg (s.pc + ·) (upperImm_imm20Of w))
  case jal => exact link_datapath rfl (congrArg (s.pc + ·) (signExtend_immJ w))
  case jalr =>
    exact link_datapath rfl (congrArg (s.x (rs1Of w) + · &&& 0xFFFFFFFE) (sext12_immI w))
  case ecall => rfl
  all_goals exact aluResult_datapath rfl rfl

/-- Settles O39: a decoded word other than the halt word matches a row and is built from it. -/
theorem datapathComputesTheInstruction : Obligations.DatapathComputesTheInstruction := by
  intro w i s h hi _
  rcases decodeWord_ok h with ⟨-, rfl⟩ | ⟨m, hm, -, rfl⟩
  · exact absurd rfl hi
  · rw [mnemonic_build]
    exact exec_build hm w s

end Sys2Proof.Machine
end

section
/-! The register-register integer instructions (`41_r_type_integer.md` rules R170 to R180): the word of
format R, the ALU operations as the rules write them, and a shift as arithmetic on its operand's number. -/

namespace Sys2Proof.Machine

open Sys2Proof State

/-! ## What completes with a result -/

theorem resultIs_of_writeAndGo {i : Instr} {s : State} {rd : RegIdx} {v npc : Word}
    (hr : s.status = .running) (h : exec i s = writeAndGo s rd v npc) : ResultIs i s rd v npc := by
  rw [ResultIs, h]
  exact regStep_writeAndGo hr rd v npc

/-- R170: the ALU's result, under the value `v` its rule gives it. -/
theorem resultIs_of_aluReg {i : Instr} {op : AluOp} {s : State} {rd rs1 rs2 : RegIdx} {v : Word}
    (hr : s.status = .running) (h : exec i s = aluReg op rd rs1 rs2 s)
    (hv : alu op (s.x rs1) (s.x rs2) = v) : ResultIs i s rd v (s.pc + 4#32) :=
  hv ▸ resultIs_of_writeAndGo hr h

/-! ## The word of format R (R97, R104) -/

theorem encR_eq_wordR (f7 : BitVec 7) (rs2 rs1 : RegIdx) (f3 : BitVec 3) (rd : RegIdx) (op : BitVec 7) :
    encR (op.setWidth 32) (f3.setWidth 32) (f7.setWidth 32) (rd.setWidth 32) (rs1.setWidth 32)
      (rs2.setWidth 32) = wordR f7 rs2 rs1 f3 rd op := by
  refine word_ext fun i hi => ?_
  simp only [encR, wordR, getLsbD_pack, BitVec.getLsbD_append, BitVec.getLsbD_setWidth, fOpcode, fRd,
    fFunct3, fRs1, fRs2, fFunct7]
  interval_cases i <;> simp

/-- A row of format R: its three fixed columns and the instruction's registers, side by side. -/
theorem encode_eq_wordR {i : Instr} {f7 : BitVec 7} {rs2 rs1 : RegIdx} {f3 : BitVec 3} {rd : RegIdx}
    {op : BitVec 7} {imm pattern mask : Word}
    (hrow : row i.mnemonic = ⟨.R, op.setWidth 32, f3.setWidth 32, f7.setWidth 32, pattern, mask⟩)
    (hops : i.operands = ⟨rd, rs1, rs2, imm⟩) : encode i = wordR f7 rs2 rs1 f3 rd op := by
  rw [encode, encWord, hrow, hops]
  exact encR_eq_wordR ..

/-! ## The ALU operations as the rules write them (R151) -/

theorem shiftAmount_eq (b : Word) : shiftAmount b = b.toNat % 32 :=
  toNat_and_fieldMask 5 (by decide) b

theorem alu_sll (a b : Word) : alu .sll a b = a <<< (b.toNat % 32) := by
  rw [alu, shiftAmount_eq]

theorem alu_srl (a b : Word) : alu .srl a b = a >>> (b.toNat % 32) := by
  rw [alu, shiftAmount_eq]

theorem alu_sra (a b : Word) : alu .sra a b = a.sshiftRight (b.toNat % 32) := by
  rw [alu, shiftAmount_eq]

theorem alu_slt (a b : Word) : alu .slt a b = if a.toInt < b.toInt then 1#32 else 0#32 := by
  simp [alu, boolWord, ltSigned]

theorem alu_sltu (a b : Word) : alu .sltu a b = if a.toNat < b.toNat then 1#32 else 0#32 := by
  simp [alu, boolWord, ltUnsigned]

/-- Settles O9: each is the ALU's result written back, and its word is of format R. -/
theorem registerRegisterResults : Obligations.RegisterRegisterResults := fun _ _ _ _ hr =>
  ⟨⟨encode_eq_wordR rfl rfl, resultIs_of_aluReg hr rfl rfl⟩,
    ⟨encode_eq_wordR rfl rfl, resultIs_of_aluReg hr rfl rfl⟩,
    ⟨encode_eq_wordR rfl rfl, resultIs_of_aluReg hr rfl (alu_sll _ _)⟩,
    ⟨encode_eq_wordR rfl rfl, resultIs_of_aluReg hr rfl (alu_slt _ _)⟩,
    ⟨encode_eq_wordR rfl rfl, resultIs_of_aluReg hr rfl (alu_sltu _ _)⟩,
    ⟨encode_eq_wordR rfl rfl, resultIs_of_aluReg hr rfl rfl⟩,
    ⟨encode_eq_wordR rfl rfl, resultIs_of_aluReg hr rfl (alu_srl _ _)⟩,
    ⟨encode_eq_wordR rfl rfl, resultIs_of_aluReg hr rfl (alu_sra _ _)⟩,
    ⟨encode_eq_wordR rfl rfl, resultIs_of_aluReg hr rfl rfl⟩,
    ⟨encode_eq_wordR rfl rfl, resultIs_of_aluReg hr rfl rfl⟩⟩

/-! ## Shifts in numbers (R173, R177, R178) -/

theorem toNat_alu_sll (a b : Word) :
    (alu .sll a b).toNat = a.toNat * 2 ^ (b.toNat % 32) % 2 ^ 32 := by
  rw [alu_sll, BitVec.toNat_shiftLeft, Nat.shiftLeft_eq]

theorem toNat_alu_srl (a b : Word) : (alu .srl a b).toNat = a.toNat / 2 ^ (b.toNat % 32) := by
  rw [alu_srl, BitVec.toNat_ushiftRight, Nat.shiftRight_eq_div_pow]

/-- The copies of the sign bit shifted in round toward minus infinity. -/
theorem toInt_alu_sra (a b : Word) : (alu .sra a b).toInt = a.toInt.fdiv (2 ^ (b.toNat % 32)) := by
  rw [alu_sra, BitVec.toInt_sshiftRight, Int.shiftRight_eq_div_pow, Nat.cast_pow, Nat.cast_ofNat,
    Int.fdiv_eq_ediv_of_nonneg _ (by positivity)]

/-- Settles O10: the results of the three shifts are the ALU's, whose numbers are above. -/
theorem shiftsMultiplyAndDivide : Obligations.ShiftsMultiplyAndDivide := by
  rintro s rd rs1 rs2 n hr rfl
  exact ⟨⟨_, resultIs_of_aluReg hr rfl rfl, toNat_alu_sll _ _⟩,
    ⟨_, resultIs_of_aluReg hr rfl rfl, toNat_alu_srl _ _⟩,
    ⟨_, resultIs_of_aluReg hr rfl rfl, toInt_alu_sra _ _⟩⟩

end Sys2Proof.Machine
end

section
/-! The four multiplies (`42_r_type_muldiv.md` rules R190 to R194): the low half of a product of the
operands as either reading extends them, and the high half of the product of the operands' numbers as
that of the extended words. -/

namespace Sys2Proof.Machine

open Sys2Proof State

/-! ## The low half (R191) -/

theorem setWidth_signExtend_double (a : Word) : (a.signExtend 64).setWidth 32 = a := by
  refine word_ext fun i hi => ?_
  rw [BitVec.getLsbD_setWidth, BitVec.getLsbD_signExtend]
  simp [hi, show i < 64 by omega]

/-- The low half of a product depends on the low halves of its factors alone. -/
theorem alu_mul_of_low {a b : Word} {x y : BitVec 64} (hx : x.setWidth 32 = a) (hy : y.setWidth 32 = b) :
    alu .mul a b = (x * y).extractLsb' 0 32 := by
  rw [← BitVec.setWidth_eq_extractLsb' (by decide), BitVec.setWidth_mul x y (by decide), hx, hy, alu]

theorem alu_mul_unsigned (a b : Word) :
    alu .mul a b = (a.setWidth 64 * b.setWidth 64).extractLsb' 0 32 :=
  alu_mul_of_low (by simp) (by simp)

theorem alu_mul_signed (a b : Word) :
    alu .mul a b = (a.signExtend 64 * b.signExtend 64).extractLsb' 0 32 :=
  alu_mul_of_low (setWidth_signExtend_double a) (setWidth_signExtend_double b)

/-! ## The high halves (R192 to R194) -/

/-- The 64 bits of a product of numbers are the product of the numbers' 64 bits. -/
theorem productHigh_mul (m n : Int) :
    productHigh (m * n) = (BitVec.ofInt 64 m * BitVec.ofInt 64 n).extractLsb' 32 32 := by
  rw [productHigh, BitVec.ofInt_mul]

theorem ofInt_toInt_double (a : Word) : BitVec.ofInt 64 a.toInt = a.signExtend 64 := rfl

theorem ofInt_toNat_double (a : Word) : BitVec.ofInt 64 a.toNat = a.setWidth 64 := by
  rw [BitVec.ofInt_natCast, BitVec.ofNat_toNat]

theorem alu_mulh (a b : Word) :
    alu .mulh a b = (a.signExtend 64 * b.signExtend 64).extractLsb' 32 32 := by
  rw [alu, productHigh_mul, ofInt_toInt_double, ofInt_toInt_double]

theorem alu_mulhsu (a b : Word) :
    alu .mulhsu a b = (a.signExtend 64 * b.setWidth 64).extractLsb' 32 32 := by
  rw [alu, productHigh_mul, ofInt_toInt_double, ofInt_toNat_double]

theorem alu_mulhu (a b : Word) :
    alu .mulhu a b = (a.setWidth 64 * b.setWidth 64).extractLsb' 32 32 := by
  rw [alu, productHigh_mul, ofInt_toNat_double, ofInt_toNat_double]

/-- Settles O11: each is the ALU's result written back, under the product its rule gives, and its word
is of format R. -/
theorem multiplyResults : Obligations.MultiplyResults := fun _ _ _ _ hr =>
  ⟨⟨encode_eq_wordR rfl rfl, resultIs_of_aluReg hr rfl (alu_mul_unsigned _ _),
      resultIs_of_aluReg hr rfl (alu_mul_signed _ _)⟩,
    ⟨encode_eq_wordR rfl rfl, resultIs_of_aluReg hr rfl (alu_mulh _ _)⟩,
    ⟨encode_eq_wordR rfl rfl, resultIs_of_aluReg hr rfl (alu_mulhsu _ _)⟩,
    ⟨encode_eq_wordR rfl rfl, resultIs_of_aluReg hr rfl (alu_mulhu _ _)⟩⟩

end Sys2Proof.Machine
end

section
/-! The register-immediate instructions (`43_i_type_alu.md` rules R210 to R219): the words of format I
and of its shift form, and the shift amount that the five-bit field holds. -/

namespace Sys2Proof.Machine

open Sys2Proof State

/-! ## What completes with a result (R210) -/

/-- The ALU's result on the operand `b` the field gives, under the value `v` its rule gives it. -/
theorem resultIs_of_aluImm {i : Instr} {op : AluOp} {s : State} {rd rs1 : RegIdx} {b v : Word}
    (hr : s.status = .running) (h : exec i s = aluImm op rd rs1 b s) (hv : alu op (s.x rs1) b = v) :
    ResultIs i s rd v (s.pc + 4#32) :=
  hv ▸ resultIs_of_writeAndGo hr h

/-! ## The words of format I and of its shift form (R98, R99, R104) -/

/-- The field takes the low 12 bits of the sign-extended immediate, which are the immediate. -/
theorem encI_eq_wordI (imm : BitVec 12) (rs1 : RegIdx) (f3 : BitVec 3) (rd : RegIdx) (op : BitVec 7) :
    encI (op.setWidth 32) (f3.setWidth 32) (rd.setWidth 32) (rs1.setWidth 32) (imm.signExtend 32) =
      wordI imm rs1 f3 rd op := by
  refine word_ext fun i hi => ?_
  simp only [encI, wordI, getLsbD_pack, BitVec.getLsbD_append, BitVec.getLsbD_setWidth,
    BitVec.getLsbD_signExtend, fOpcode, fRd, fFunct3, fRs1, fImmI]
  interval_cases i <;> simp

/-- A row of format I: its opcode and funct3 columns and the instruction's operands, side by side. -/
theorem encode_eq_wordI {i : Instr} {imm : BitVec 12} {rs2 rs1 : RegIdx} {f3 : BitVec 3} {rd : RegIdx}
    {op : BitVec 7} {f7 pattern mask : Word}
    (hrow : row i.mnemonic = ⟨.I, op.setWidth 32, f3.setWidth 32, f7, pattern, mask⟩)
    (hops : i.operands = ⟨rd, rs1, rs2, imm.signExtend 32⟩) : encode i = wordI imm rs1 f3 rd op := by
  rw [encode, encWord, hrow, hops]
  exact encI_eq_wordI ..

/-- A row of the shift form: the word of format R with the amount in the `rs2` position. -/
theorem encode_shift_eq_wordR {i : Instr} {f7 : BitVec 7} {sh : BitVec 5} {rs2 rs1 : RegIdx}
    {f3 : BitVec 3} {rd : RegIdx} {op : BitVec 7} {pattern mask : Word}
    (hrow : row i.mnemonic = ⟨.shift, op.setWidth 32, f3.setWidth 32, f7.setWidth 32, pattern, mask⟩)
    (hops : i.operands = ⟨rd, rs1, rs2, sh.setWidth 32⟩) : encode i = wordR f7 sh rs1 f3 rd op := by
  rw [encode, encWord, hrow, hops]
  exact encR_eq_wordR ..

/-! ## The shift amount (R217 to R219) -/

/-- A five-bit amount is the whole of what the ALU shifts by. -/
theorem shiftAmount_setWidth (sh : BitVec 5) : shiftAmount (sh.setWidth 32) = sh.toNat := by
  rw [shiftAmount_eq, BitVec.toNat_setWidth_of_le (by decide), Nat.mod_eq_of_lt sh.isLt]

theorem alu_sll_setWidth (a : Word) (sh : BitVec 5) : alu .sll a (sh.setWidth 32) = a <<< sh.toNat := by
  rw [alu, shiftAmount_setWidth]

theorem alu_srl_setWidth (a : Word) (sh : BitVec 5) : alu .srl a (sh.setWidth 32) = a >>> sh.toNat := by
  rw [alu, shiftAmount_setWidth]

theorem alu_sra_setWidth (a : Word) (sh : BitVec 5) :
    alu .sra a (sh.setWidth 32) = a.sshiftRight sh.toNat := by
  rw [alu, shiftAmount_setWidth]

/-- Settles O14: each is the ALU's result on its immediate written back, and its word is of format I
or, for the shifts, of its shift form. -/
theorem registerImmediateResults : Obligations.RegisterImmediateResults := fun _ _ _ _ _ hr =>
  ⟨⟨encode_eq_wordI rfl rfl, resultIs_of_aluImm hr rfl rfl⟩,
    ⟨encode_eq_wordI rfl rfl, resultIs_of_aluImm hr rfl (alu_slt _ _)⟩,
    ⟨encode_eq_wordI rfl rfl, resultIs_of_aluImm hr rfl (alu_sltu _ _)⟩,
    ⟨encode_eq_wordI rfl rfl, resultIs_of_aluImm hr rfl rfl⟩,
    ⟨encode_eq_wordI rfl rfl, resultIs_of_aluImm hr rfl rfl⟩,
    ⟨encode_eq_wordI rfl rfl, resultIs_of_aluImm hr rfl rfl⟩,
    ⟨encode_shift_eq_wordR rfl rfl, resultIs_of_aluImm hr rfl (alu_sll_setWidth _ _)⟩,
    ⟨encode_shift_eq_wordR rfl rfl, resultIs_of_aluImm hr rfl (alu_srl_setWidth _ _)⟩,
    ⟨encode_shift_eq_wordR rfl rfl, resultIs_of_aluImm hr rfl (alu_sra_setWidth _ _)⟩⟩

end Sys2Proof.Machine
end

section
/-! The loads (`44_loads.md` rules R230 to R235): what an admitted read through the data port gets, at
each width, and the two outcomes of a load by whether the regions admit its access. -/

namespace Sys2Proof.Machine

open Sys2Proof State

/-! ## An admitted read (R57, R60, R62) -/

theorem memRead_byte_of_admits {s : State} (hw : s.MemWf) {a : Word} (h : s.Admits a 1 modeRead) :
    s.memRead a .byte = .ok ((s.byteAt a.toNat).setWidth 32) :=
  (readN_of_admits hw (by decide) h).trans (congrArg _ (leWord_one ..))

theorem memRead_half_of_admits {s : State} (hw : s.MemWf) {a : Word} (h : s.Admits a 2 modeRead) :
    s.memRead a .half = .ok ((s.halfAt a.toNat).setWidth 32) :=
  (readN_of_admits hw (by decide) h).trans (congrArg _ (leWord_two ..))

theorem memRead_word_of_admits {s : State} (hw : s.MemWf) {a : Word} (h : s.Admits a 4 modeRead) :
    s.memRead a .word = .ok (s.wordAt a.toNat) :=
  (readN_of_admits hw (by decide) h).trans (congrArg _ (leWord_four ..))

/-! ## The extensions of a value read (R231, R232, R234, R235) -/

/-- The bytes of a value read come back whole from the word that holds them. -/
theorem setWidth_setWidth_word {n : Nat} (hn : n ≤ 32) (v : BitVec n) :
    (v.setWidth 32).setWidth n = v := by
  rw [BitVec.setWidth_setWidth_of_le v hn, BitVec.setWidth_eq]

theorem sext8_setWidth (b : Byte) : sext8 (b.setWidth 32) = b.signExtend 32 :=
  congrArg (·.signExtend 32) (setWidth_setWidth_word (by decide) b)

theorem zext8_setWidth (b : Byte) : zext8 (b.setWidth 32) = b.setWidth 32 :=
  congrArg (·.setWidth 32) (setWidth_setWidth_word (by decide) b)

theorem sext16_setWidth (h : BitVec 16) : sext16 (h.setWidth 32) = h.signExtend 32 :=
  congrArg (·.signExtend 32) (setWidth_setWidth_word (by decide) h)

theorem zext16_setWidth (h : BitVec 16) : zext16 (h.setWidth 32) = h.setWidth 32 :=
  congrArg (·.setWidth 32) (setWidth_setWidth_word (by decide) h)

/-! ## The two outcomes (R230) -/

section Outcomes

variable {i : Instr} {s : State} {n : AccessSize} {extend : Word → Word} {rd rs1 : RegIdx}
  {imm : BitVec 12}

/-- The value read, under the value `v` that the rule's extension gives it. -/
theorem resultIs_of_load {w v : Word} (hr : s.status = .running)
    (hi : exec i s = load n extend rd rs1 imm s) (hm : s.memRead (s.ea rs1 imm) n = .ok w)
    (hv : extend w = v) : ResultIs i s rd v (s.pc + 4#32) := by
  refine resultIs_of_writeAndGo hr (hi.trans ?_)
  rw [load, hm, ← hv]
  rfl

theorem accessFaults_of_load (hw : s.MemWf) (hi : exec i s = load n extend rd rs1 imm s)
    (h : ¬ s.Admits (s.ea rs1 imm) n.bytes modeRead) :
    AccessFaults i s (s.ea rs1 imm) modeRead := by
  obtain ⟨why, hwhy, hm⟩ := readN_refused hw h
  refine ⟨why, hwhy, hi.trans ?_⟩
  rw [load, State.memRead, hm]
  rfl

end Outcomes

/-- Settles O15: a load whose access the regions admit completes with the bytes there as its rule extends
them, any other faults, and its word is of format I. -/
theorem loadResults : Obligations.LoadResults := fun _ _ _ _ hr hw =>
  ⟨encode_eq_wordI rfl rfl, encode_eq_wordI rfl rfl, encode_eq_wordI rfl rfl, encode_eq_wordI rfl rfl,
    encode_eq_wordI rfl rfl, rfl,
    fun h => ⟨resultIs_of_load hr rfl (memRead_byte_of_admits hw h) (sext8_setWidth _),
      resultIs_of_load hr rfl (memRead_byte_of_admits hw h) (zext8_setWidth _)⟩,
    fun h => ⟨accessFaults_of_load hw (n := .byte) rfl h, accessFaults_of_load hw (n := .byte) rfl h⟩,
    fun h => ⟨resultIs_of_load hr rfl (memRead_half_of_admits hw h) (sext16_setWidth _),
      resultIs_of_load hr rfl (memRead_half_of_admits hw h) (zext16_setWidth _)⟩,
    fun h => ⟨accessFaults_of_load hw (n := .half) rfl h, accessFaults_of_load hw (n := .half) rfl h⟩,
    fun h => resultIs_of_load hr rfl (memRead_word_of_admits hw h) rfl,
    fun h => accessFaults_of_load hw (n := .word) rfl h⟩

end Sys2Proof.Machine
end

section
/-! The stores (`45_stores.md` rules R245 to R248): the word of format S, what an admitted write leaves,
and the two outcomes of a store by whether the regions admit its access. -/

namespace Sys2Proof.Machine

open Sys2Proof State

/-! ## The word of format S (R100, R104) -/

/-- The two immediate fields take bits 4..0 and 11..5 of the sign-extended immediate, which are its own. -/
theorem encS_eq_wordS (imm : BitVec 12) (rs2 rs1 : RegIdx) (f3 : BitVec 3) (op : BitVec 7) :
    encS (op.setWidth 32) (f3.setWidth 32) (rs1.setWidth 32) (rs2.setWidth 32) (imm.signExtend 32) =
      wordS imm rs2 rs1 f3 op := by
  refine word_ext fun i hi => ?_
  simp only [encS, wordS, getLsbD_pack, BitVec.getLsbD_append, BitVec.getLsbD_setWidth,
    BitVec.getLsbD_sshiftRight, BitVec.getLsbD_signExtend, BitVec.getLsbD_extractLsb', fOpcode, fFunct3,
    fRs1, fRs2, fImmSLo, fImmSHi]
  interval_cases i <;> simp

/-- A row of format S: its opcode and funct3 columns and the instruction's operands, side by side. -/
theorem encode_eq_wordS {i : Instr} {imm : BitVec 12} {rd rs2 rs1 : RegIdx} {f3 : BitVec 3}
    {op : BitVec 7} {f7 pattern mask : Word}
    (hrow : row i.mnemonic = ⟨.S, op.setWidth 32, f3.setWidth 32, f7, pattern, mask⟩)
    (hops : i.operands = ⟨rd, rs1, rs2, imm.signExtend 32⟩) : encode i = wordS imm rs2 rs1 f3 op := by
  rw [encode, encWord, hrow, hops]
  exact encS_eq_wordS ..

/-! ## What a write and the pc's advance leave (R61, R62) -/

theorem storeStep_of_writeN {s : State} (hw : s.MemWf) {a v : Word} {n : Nat} {req : AccessMode}
    {m : Memory} (hm : s.mem.writeN s.cfg.regionFill a n req v = .ok m) :
    StoreStep s { s.setMem m with pc := s.pc + 4#32 } a n v :=
  ⟨rfl, writeN_regions hm, fun _ hk => byteAt_writeN_inside hw hm hk,
    fun _ req' hb => readByte_writeN_outside hm req' hb⟩

/-! ## The two outcomes (R245) -/

section Outcomes

variable {i : Instr} {s : State} {n : AccessSize} {rs2 rs1 : RegIdx} {imm : BitVec 12}

theorem storeIs_of_store (hr : s.status = .running) (hw : s.MemWf)
    (hi : exec i s = store n rs2 rs1 imm s) (h : s.Admits (s.ea rs1 imm) n.bytes modeWrite) :
    StoreIs i s (s.ea rs1 imm) n.bytes (s.x rs2) := by
  have hn : 1 ≤ n.bytes := by cases n <;> decide
  have hm := writeN_of_admits hw hn (s.x rs2) h
  refine ⟨_, hi.trans ?_, storeStep_of_writeN hw hm⟩
  rw [store, State.memWrite, hm]
  exact congrArg Host.Outcome.next (commitPc_eq (s.setMem _) _ hr)

theorem accessFaults_of_store (hw : s.MemWf) (hi : exec i s = store n rs2 rs1 imm s)
    (h : ¬ s.Admits (s.ea rs1 imm) n.bytes modeWrite) :
    AccessFaults i s (s.ea rs1 imm) modeWrite := by
  obtain ⟨why, hwhy, hm⟩ := writeN_refused hw (s.x rs2) h
  refine ⟨why, hwhy, hi.trans ?_⟩
  rw [store, State.memWrite, hm]
  rfl

end Outcomes

/-- Settles O16: a store whose access the regions admit leaves its bytes and the next pc, any other
faults, and its word is of format S. -/
theorem storeResults : Obligations.StoreResults := fun _ _ _ _ hr hw =>
  ⟨encode_eq_wordS rfl rfl, encode_eq_wordS rfl rfl, encode_eq_wordS rfl rfl, rfl,
    storeIs_of_store hr hw (n := .byte) rfl, accessFaults_of_store hw (n := .byte) rfl,
    storeIs_of_store hr hw (n := .half) rfl, accessFaults_of_store hw (n := .half) rfl,
    storeIs_of_store hr hw (n := .word) rfl, accessFaults_of_store hw (n := .word) rfl⟩

end Sys2Proof.Machine
end

section
/-! The conditional branches (`46_branches.md` rules R260 to R266): the comparator's conditions as the
rules write them, the word of format B, and the pc that a branch commits. -/

namespace Sys2Proof.Machine

open Sys2Proof State

/-! ## The comparator's conditions as the rules write them (R261 to R266) -/

theorem condHolds_eq (a b : Word) : condHolds .eq a b = true ↔ a = b := by
  simp [condHolds]

theorem condHolds_ne (a b : Word) : condHolds .ne a b = true ↔ a ≠ b := by
  simp [condHolds]

theorem condHolds_lt (a b : Word) : condHolds .lt a b = true ↔ a.toInt < b.toInt := by
  simp [condHolds, ltSigned]

theorem condHolds_ge (a b : Word) : condHolds .ge a b = true ↔ b.toInt ≤ a.toInt := by
  simp [condHolds, ltSigned]

theorem condHolds_ltu (a b : Word) : condHolds .ltu a b = true ↔ a.toNat < b.toNat := by
  simp [condHolds, ltUnsigned]

theorem condHolds_geu (a b : Word) : condHolds .geu a b = true ↔ b.toNat ≤ a.toNat := by
  simp [condHolds, ltUnsigned]

/-! ## The word of format B (R101, R104) -/

/-- The four immediate fields take bits 11, 4..1, 10..5 and 12 of the sign-extended displacement, which
are its own; bit 0 is not stored. -/
theorem encB_eq_wordB (d : BitVec 13) (rs2 rs1 : RegIdx) (f3 : BitVec 3) (op : BitVec 7) :
    encB (op.setWidth 32) (f3.setWidth 32) (rs1.setWidth 32) (rs2.setWidth 32) (d.signExtend 32) =
      wordB d rs2 rs1 f3 op := by
  refine word_ext fun i hi => ?_
  simp only [encB, wordB, getLsbD_pack, BitVec.getLsbD_append, BitVec.getLsbD_setWidth,
    BitVec.getLsbD_sshiftRight, BitVec.getLsbD_signExtend, BitVec.getLsbD_extractLsb', fOpcode, fFunct3,
    fRs1, fRs2, fImmB12, fImmB11, fImmBHi, fImmBLo]
  interval_cases i <;> simp

/-- A row of format B: its opcode and funct3 columns, the registers and the pieces of the displacement,
side by side. -/
theorem encode_eq_wordB {i : Instr} {d : BitVec 13} {rd rs2 rs1 : RegIdx} {f3 : BitVec 3}
    {op : BitVec 7} {f7 pattern mask : Word}
    (hrow : row i.mnemonic = ⟨.B, op.setWidth 32, f3.setWidth 32, f7, pattern, mask⟩)
    (hops : i.operands = ⟨rd, rs1, rs2, d.signExtend 32⟩) : encode i = wordB d rs2 rs1 f3 op := by
  rw [encode, encWord, hrow, hops]
  exact encB_eq_wordB ..

/-! ## The pc that a branch commits (R260) -/

/-- The whole next state of a branch, under the proposition `P` that its rule gives as the condition. -/
theorem exec_of_branch {i : Instr} {c : BranchCond} {s : State} {rs1 rs2 : RegIdx} {d : BitVec 13}
    {P : Prop} [Decidable P] (hr : s.status = .running) (hi : exec i s = branch c rs1 rs2 d s)
    (hc : condHolds c (s.x rs1) (s.x rs2) = true ↔ P) :
    exec i s = .next { s with pc := if P then s.pc + d.signExtend 32 else s.pc + 4#32 } := by
  rw [hi, branch, commitPc_eq _ _ hr]
  simp only [hc]
  rfl

/-- Settles O17: each is a branch on its comparator's condition, which is the rule's, and its word is of
format B. -/
theorem branchResults : Obligations.BranchResults := fun _ _ _ _ hr =>
  ⟨⟨encode_eq_wordB rfl rfl, exec_of_branch hr rfl (condHolds_eq _ _)⟩,
    ⟨encode_eq_wordB rfl rfl, exec_of_branch hr rfl (condHolds_ne _ _)⟩,
    ⟨encode_eq_wordB rfl rfl, exec_of_branch hr rfl (condHolds_lt _ _)⟩,
    ⟨encode_eq_wordB rfl rfl, exec_of_branch hr rfl (condHolds_ge _ _)⟩,
    ⟨encode_eq_wordB rfl rfl, exec_of_branch hr rfl (condHolds_ltu _ _)⟩,
    ⟨encode_eq_wordB rfl rfl, exec_of_branch hr rfl (condHolds_geu _ _)⟩⟩

end Sys2Proof.Machine
end

section
/-! The ends of a run (`48_system.md`, rules R292 and R293): the halt word, and the cause of each way to
end. -/

namespace Sys2Proof.Machine

open Sys2Proof State

/-! ## The halt word (R292) -/

/-- Settles O19: each part is what the definition says of the halt word. -/
theorem haltWordHalts : Obligations.HaltWordHalts := ⟨rfl, rfl, fun _ => rfl⟩

/-! ## How an instruction ends the run -/

/-- The statuses in which an instruction at `pc` can end the run, each with its cause: the halt word
(R292), `exit` (R354), a fault (R341). -/
inductive EndsBy (i : Instr) (pc : Word) (st : RunStatus) : Prop where
  | halt (hi : i = .invalid) (hst : st = .halted)
  | exit (hi : i = .ecall) (code : Int) (hst : st = .exited code)
  | fault (kind : FaultKind) (hst : st = .faulted kind pc)

/-- A trap that is not returned from is a stop or a fault at the `pc` of the `ecall`, which the handler's
accesses keep. -/
theorem ecall_endsBy {s : State} (hr : s.status = .running) (reply : TrapReply)
    (hend : (s.takeTrap reply).status ≠ .running) : EndsBy .ecall s.pc (s.takeTrap reply).status := by
  rcases takeTrap_cases hr (rfl : s.takeTrap reply = _) with ⟨-, ht⟩ | ⟨u, hu, ⟨v, ht⟩ | ⟨code, ht⟩ |
    ht | ⟨v, ht⟩⟩ <;> rw [ht] at hend ⊢
  · exact .fault _ rfl
  · exact .fault (.memoryProtectionViolation v) (by rw [raise_status, hu.pc])
  · exact .exit rfl code.toInt rfl
  · exact absurd (hu.status.trans hr) hend
  · exact absurd (hu.status.trans hr) hend

/-- An instruction that ends the run is the halt word, an `ecall`, or faults at its own `pc`. -/
theorem exec_endsBy {i : Instr} {s t : State} (hr : s.status = .running) (h : exec i s = .next t)
    (hend : t.status ≠ .running) : EndsBy i s.pc t.status := by
  by_cases he : i = .ecall
  · subst he
    cases h
    exact ecall_endsBy (s := s.countTrap) hr s.handlerReply hend
  · rcases exec_cases i s hr he with ⟨v, npc, ht, -⟩ | ⟨npc, ht, -⟩ | ⟨a, n, v, m, -, ht, -⟩ |
      ⟨v, ht⟩ | ⟨hi, ht⟩ <;> cases h.symm.trans ht
    · exact absurd hr hend
    · exact absurd hr hend
    · exact absurd hr hend
    · exact .fault _ rfl
    · exact .halt hi rfl

/-- Settles O32: the watchdog and the two faults of the fetch end the run themselves; otherwise the
decoded instruction does, and the fetched word is its encoding (`encodeOfDecode`). -/
theorem fourWaysToEnd : Obligations.FourWaysToEnd := by
  intro s t h hend
  obtain ⟨hr, ⟨hb, rfl⟩ | ⟨-, ⟨v, -, rfl⟩ | ⟨w, hw, ⟨r, -, rfl⟩ | ⟨i, hi, he⟩⟩⟩⟩ := step_cases h
  · exact .inl ⟨rfl, hb⟩
  · exact .inr (.inr (.inr ⟨_, rfl⟩))
  · exact .inr (.inr (.inr ⟨_, rfl⟩))
  · obtain ⟨-, rfl⟩ := encodeOfDecode w i hi
    rcases exec_endsBy (s := s.tick) hr he hend with ⟨rfl, hst⟩ | ⟨rfl, code, hst⟩ | ⟨kind, hst⟩
    · exact .inr (.inl ⟨hst, hw⟩)
    · exact .inr (.inr (.inl ⟨code, hst, hw⟩))
    · exact .inr (.inr (.inr ⟨kind, hst⟩))

end Sys2Proof.Machine
end

section
/-! The symbol table (`49_relocation.md` rules R306 to R309, R311, R313): a name is bound once, and
`%pcrel_lo` takes a name that nothing has bound. -/

namespace Sys2Proof.Machine

open Sys2Proof State

/-! ## Lookup in a table with one more entry -/

theorem lookupSymbol_append_same {symbols : List (SymName × Word)} {name : SymName}
    (h : lookupSymbol symbols name = none) (addr : Word) :
    lookupSymbol (symbols ++ [(name, addr)]) name = some addr := by
  induction symbols with
  | nil => simp [lookupSymbol]
  | cons p rest ih =>
    obtain ⟨n, a⟩ := p
    by_cases hn : n = name
    · simp [lookupSymbol, hn] at h
    · simp only [lookupSymbol, hn, if_false, List.cons_append] at h ⊢
      exact ih h

theorem lookupSymbol_append_other {name n : SymName} (h : n ≠ name) (symbols : List (SymName × Word))
    (addr : Word) : lookupSymbol (symbols ++ [(name, addr)]) n = lookupSymbol symbols n := by
  induction symbols with
  | nil => simp [lookupSymbol, Ne.symm h]
  | cons p rest ih => simp only [lookupSymbol, List.cons_append, ih]

/-! ## `AddSymbol` (R307) -/

theorem addSymbol_of_unbound {s : State} {name : SymName} (h : lookupSymbol s.symbols name = none)
    (addr : Word) : s.addSymbol name addr = { s with symbols := s.symbols ++ [(name, addr)] } := by
  rw [State.addSymbol, h]

theorem addSymbol_of_bound {s : State} {name : SymName} {a : Word}
    (h : lookupSymbol s.symbols name = some a) (addr : Word) :
    s.addSymbol name addr = s.diagnose (.duplicateSymbol name) := by
  rw [State.addSymbol, h]

/-- Settles O50: an unbound name is appended to the table, a bound one is reported. -/
theorem symbolsAreBoundOnce : Obligations.SymbolsAreBoundOnce := by
  refine fun s name addr => ⟨fun h => ?_, fun a h => ?_, fun _ => rfl⟩
  · rw [addSymbol_of_unbound h]
    exact ⟨by rw [State.addSymbolOk, h]; rfl, lookupSymbol_append_same h addr,
      fun n hn => lookupSymbol_append_other hn _ _, rfl⟩
  · exact ⟨by rw [State.addSymbolOk, h]; rfl, addSymbol_of_bound h addr⟩

/-! ## `%pcrel_lo` (R309, R311, R313) -/

/-- The name an auto symbol takes next is bound by nothing (R309). -/
theorem State.Inv.lookupSymbol_next_auto {s : State} (h : s.Inv) :
    lookupSymbol s.symbols (.auto s.autoCount) = none := by
  obtain ⟨-, -, -, -, -, hauto⟩ := h
  rw [lookupSymbol_eq_none_iff, List.mem_map]
  rintro ⟨p, hp, hname⟩
  have hbelow := List.all_eq_true.1 hauto p hp
  rw [hname] at hbelow
  simp [autoBelow] at hbelow

/-- The state that `%pcrel_lo` leaves before its word is emitted: the next auto name bound to the hi
instruction's address, the Lo-relocation recorded. -/
def State.withNextAuto (s : State) (off : Word) : State := { s with
  symbols := s.symbols ++ [(.auto s.autoCount, s.cursor + off)]
  relocs := s.relocs ++ [⟨s.cursor, .loPcRel12, .auto s.autoCount⟩]
  autoCount := s.autoCount + 1 }

theorem pcrelLo_eq {s : State} (h : s.Inv) (off : Word) : s.pcrelLo off = s.withNextAuto off := by
  have hfresh : lookupSymbol { s with autoCount := s.autoCount + 1 }.symbols (.auto s.autoCount) = none :=
    h.lookupSymbol_next_auto
  rw [State.pcrelLo, addSymbol_of_unbound hfresh]
  rfl

theorem emitWithLo_of_formatI {s : State} (h : s.Inv) {m : Mnemonic} (hI : (row m).format = .I)
    (rd rs1 off : Word) : emitWithLo m rd rs1 off s =
      emitWord (encI (row m).opcode (row m).funct3 rd rs1 0#32) (s.withNextAuto off) := by
  rw [emitWithLo, if_pos hI, emit, encWord, hI, pcrelLo_eq h]
  rfl

/-- Settles O51: the auto name is bound and the relocation recorded (`pcrelLo_eq`); then one word is
emitted, which neither of the two hinders. -/
theorem pcrelLoRule : Obligations.PcrelLoRule := by
  refine fun s m rd rs1 off h => ⟨fun hI => if_neg hI, fun hI ha => ?_, fun hI hn => ?_⟩
  · obtain ⟨t, he, hstate, hregions, hword, hbytes⟩ := emitStep_of_admits (s := s.withNextAuto off)
      h.memWf (encI (row m).opcode (row m).funct3 rd rs1 0#32) ha
    have hfresh := h.lookupSymbol_next_auto
    have hsymbols : t.symbols = s.symbols ++ [(.auto s.autoCount, s.cursor + off)] := by
      rw [hstate]
      rfl
    refine ⟨t, (emitWithLo_of_formatI h hI rd rs1 off).trans he, ?_, hfresh, ?_, fun n hn => ?_,
      hregions, hword, hbytes⟩ <;> rw [hsymbols]
    · exact hstate
    · exact lookupSymbol_append_same hfresh _
    · exact lookupSymbol_append_other hn _ _
  · obtain ⟨why, hwhy, hc⟩ := check_refused h.memWf hn
    exact ⟨why, hwhy, (emitWithLo_of_formatI h hI rd rs1 off).trans
      (emitWord_refused (s := s.withNextAuto off) hc _)⟩

end Sys2Proof.Machine
end

section
/-! The linker (`49_relocation.md` rules R320 to R328): the word each patch leaves at its site, that it is
the word of the literal displacement, and the patches of a whole session one after another. -/

namespace Sys2Proof.Machine

open Sys2Proof State

/-! ## One word through the loader port (R69) -/

/-- Only memory differs: the word `w` stands at `a`, and every byte outside it reads as before. -/
structure WordWritten (s t : State) (a w : Word) : Prop where
  state : t = { s with mem := t.mem }
  regions : t.mem.regions = s.mem.regions
  bytes : ∀ b req, Outside a 4 b → t.readByte b req = s.readByte b req
  word : t.wordAt a.toNat = w

theorem wordWritten_of_writeN {s : State} (hw : s.MemWf) {a v : Word} {req : AccessMode} {m : Memory}
    (hm : s.mem.writeN s.cfg.regionFill a 4 req v = .ok m) : WordWritten s (s.setMem m) a v :=
  ⟨rfl, writeN_regions hm, fun _ req' hb => readByte_writeN_outside hm req' hb, wordAt_writeN hw hm⟩

theorem hostLoaderWrite_of_writeN {s : State} {a v : Word} {n : AccessSize} {m : Memory}
    (hm : s.mem.writeN s.cfg.regionFill a n.bytes modeLoader v = .ok m) :
    hostLoaderWrite a n v s = .next (s.setMem m) := by
  simp only [hostLoaderWrite, State.loaderWrite, hm]

theorem wordWritten_of_hostLoaderWrite {s : State} (hw : s.MemWf) {a : Word} (v : Word)
    (h : s.Admits a 4 modeLoader) :
    ∃ t, hostLoaderWrite a .word v s = .next t ∧ WordWritten s t a v :=
  have hm := writeN_of_admits hw (by decide) v h
  ⟨_, hostLoaderWrite_of_writeN hm, wordWritten_of_writeN hw hm⟩

theorem loaderRead_word_of_admits {s : State} (hw : s.MemWf) {a : Word} (h : s.Admits a 4 modeLoader) :
    s.loaderRead a .word = .ok (s.wordAt a.toNat) :=
  (readN_of_admits hw (by decide) h).trans (congrArg _ (leWord_four ..))

/-- A site in a region is read, changed and written back. -/
theorem wordWritten_of_patchWord {s : State} (hw : s.MemWf) {site : Word} (f : Word → Word)
    (h : s.Admits site 4 modeLoader) :
    ∃ t, patchWord site f s = .next t ∧ WordWritten s t site (f (s.wordAt site.toNat)) := by
  obtain ⟨t, ht, hword⟩ := wordWritten_of_hostLoaderWrite hw (f (s.wordAt site.toNat)) h
  exact ⟨t, by simp only [patchWord, loaderRead_word_of_admits hw h, ht], hword⟩

/-- A site that a patch reached is in a region. -/
theorem admits_of_patchWord {s t : State} {site : Word} {f : Word → Word}
    (h : patchWord site f s = .next t) : s.Admits site 4 modeLoader := by
  unfold patchWord at h
  split at h
  · cases h
  · obtain ⟨m, hm, -⟩ := hostLoaderWrite_next h
    obtain ⟨⟨r, hr⟩, -⟩ := writeN_ok hm
    exact admits_of_check hr

/-! ## The target of a patch (R322) -/

theorem withTarget_of_unbound {s : State} {name : SymName} (h : lookupSymbol s.symbols name = none)
    (site : Word) (f : Word → StepResult) :
    withTarget name site s f = .next (s.diagnose (.unknownSymbol name site)) := by
  rw [withTarget, h]

theorem withTarget_of_bound {s : State} {name : SymName} {a : Word}
    (h : lookupSymbol s.symbols name = some a) (site : Word) (f : Word → StepResult) :
    withTarget name site s f = f a := by
  rw [withTarget, h]

theorem patchAll_of_next {r : Reloc} {s t : State} (h : patch r s = .next t) (rest : List Reloc) :
    patchAll (r :: rest) s = patchAll rest t := by
  rw [patchAll, h, andThen]

theorem patchAll_of_refused {r : Reloc} {s : State} {e : Refusal} (h : patch r s = .refused e)
    (rest : List Reloc) : patchAll (r :: rest) s = .refused e := by
  rw [patchAll, h, andThen]

/-- Settles O58: whatever the kind, the target is looked up first. -/
theorem unknownTargetIsReported : Obligations.UnknownTargetIsReported := by
  intro s r rest h
  have hp : patch r s = .next (s.diagnose (.unknownSymbol r.targetSymbolName r.siteOffset)) :=
    withTarget_of_unbound h _ _
  exact ⟨hp, patchAll_of_next hp rest⟩

/-! ## The word a patch leaves (R321 to R325) -/

/-- The word that a relocation of a kind whose target is at `a` makes of the word `w` at its site. A
Lo-relocation's target gives it no displacement of its own (R325): its word stays. -/
def linkedWord (site a w : Word) : RelocKind → Word
  | .jumpPcRel => w ||| encJ 0 0 (a - site)
  | .branchPcRel => w ||| encB 0 0 0 0 (a - site)
  | .absoluteWord32 => a
  | .hiPcRel20 => w ||| (hi20 (a - site) <<< 12)
  | .loPcRel12 => w

theorem wordWritten_of_patch {s : State} {r : Reloc} {a : Word} (hw : s.MemWf)
    (h : s.Admits r.siteOffset 4 modeLoader) (ha : lookupSymbol s.symbols r.targetSymbolName = some a)
    (hk : r.kind ≠ .loPcRel12) :
    ∃ t, patch r s = .next t ∧ WordWritten s t r.siteOffset
      (linkedWord r.siteOffset a (s.wordAt r.siteOffset.toNat) r.kind) := by
  obtain ⟨site, kind, name⟩ := r
  rw [patch, withTarget_of_bound ha]
  cases kind with
  | loPcRel12 => exact absurd rfl hk
  | absoluteWord32 => exact wordWritten_of_hostLoaderWrite hw a h
  | jumpPcRel | branchPcRel | hiPcRel20 => exact wordWritten_of_patchWord hw _ h

/-- R324: the biased high part in its place. -/
theorem hi20_shiftLeft (d : Word) : hi20 d <<< 12 = (d + 0x800#32).extractLsb' 12 20 ++ 0#12 :=
  immU_eq (d + 0x800#32)

/-- Settles O56: one word is written at the site (`wordWritten_of_patch`), and `linkedWord` says which. -/
theorem patchWritesTheWord : Obligations.PatchWritesTheWord := by
  intro s r a hw h ha hk
  obtain ⟨t, ht, hword⟩ := wordWritten_of_patch hw h ha hk
  refine ⟨t, ht, hword.state, hword.regions, hword.bytes, fun hj => ?_, fun hb => ?_, fun habs => ?_,
    fun hh => ?_⟩
  · rw [hword.word, hj]
    rfl
  · rw [hword.word, hb]
    rfl
  · rw [hword.word, habs]
    rfl
  · rw [hword.word, hh, ← hi20_shiftLeft]
    rfl

/-! ## A Lo-relocation and its Hi-relocation (R320, R325) -/

/-- The linker's side index answers the first Hi-relocation recorded at the address. -/
theorem hiIndex_eq_find? (rs : List Reloc) (a : Word) :
    hiIndex rs a = rs.find? fun r => r.kind = .hiPcRel20 ∧ r.siteOffset = a := by
  induction rs with
  | nil => rfl
  | cons r rs ih =>
    by_cases hr : r.kind = .hiPcRel20 ∧ r.siteOffset = a
    · simp [hiIndex, hr]
    · rw [hiIndex, if_neg hr, ih, List.find?_cons_of_neg (by simpa using hr)]

theorem hiIndex_eq_none {rs : List Reloc} {a : Word}
    (h : ∀ q ∈ rs, ¬ (q.kind = .hiPcRel20 ∧ q.siteOffset = a)) : hiIndex rs a = none := by
  rw [hiIndex_eq_find?, List.find?_eq_none]
  exact fun q hq => by simpa using h q hq

theorem hiIndex_eq_some {rs : List Reloc} {a : Word} {h : Reloc} (hmem : h ∈ rs)
    (hkind : h.kind = .hiPcRel20) (hsite : h.siteOffset = a)
    (huniq : ∀ q ∈ rs, q.kind = .hiPcRel20 → q.siteOffset = a → q = h) : hiIndex rs a = some h := by
  rw [hiIndex_eq_find?]
  cases hf : rs.find? fun r => r.kind = .hiPcRel20 ∧ r.siteOffset = a with
  | none =>
    have hno := List.find?_eq_none.1 hf h hmem
    simp [hkind, hsite] at hno
  | some q =>
    obtain ⟨hqkind, hqsite⟩ : q.kind = .hiPcRel20 ∧ q.siteOffset = a := by
      simpa using List.find?_some hf
    rw [huniq q (List.mem_of_find?_eq_some hf) hqkind hqsite]

/-- R325: the low part in its place. -/
theorem lo12_shiftLeft (d : Word) : lo12 d <<< 20 = d.extractLsb' 0 12 ++ 0#20 := by
  refine word_ext fun i hi => ?_
  rw [BitVec.getLsbD_shiftLeft, lo12, getLsbD_extractU, BitVec.getLsbD_append,
    BitVec.getLsbD_extractLsb']
  by_cases h : i < 20
  · simp [h]
  · simp only [h, hi, fLo12, decide_true, decide_false, Bool.not_false, Bool.true_and, if_false]
    rfl

/-- Settles O57: the side index answers the one Hi-relocation there, or none; then its target is looked up
as any other is. -/
theorem loPatchFollowsItsHi : Obligations.LoPatchFollowsItsHi := by
  refine fun s site hiAddr name hw h ha => ⟨fun q hmem hkind hsite huniq => ⟨fun a hq => ?_, fun hq => ?_⟩,
    fun hnone => ?_⟩
  · obtain ⟨t, ht, hword⟩ := wordWritten_of_patchWord hw (· ||| (lo12 (a - q.siteOffset) <<< 20)) h
    refine ⟨t, ?_, hword.state, ?_, hword.bytes⟩
    · simp only [patch, withTarget_of_bound ha, hiIndex_eq_some hmem hkind hsite huniq,
        withTarget_of_bound hq, ht]
    · rw [hword.word, lo12_shiftLeft, hsite]
  · simp only [patch, withTarget_of_bound ha, hiIndex_eq_some hmem hkind hsite huniq,
      withTarget_of_unbound hq]
    rfl
  · simp only [patch, withTarget_of_bound ha, hiIndex_eq_none hnone]
    rfl

/-! ## The word of the literal displacement (R328) -/

/-- A jump's displacement bits, OR-ed into the word with that field zero. -/
theorem encJ_or (op rd d : Word) : encJ op rd 0 ||| encJ 0 0 d = encJ op rd d := by
  refine word_ext fun i hi => ?_
  simp only [encJ, BitVec.getLsbD_or, getLsbD_pack, fOpcode, fRd, fImmJ20, fImmJHi, fImmJ11, fImmJLo]
  interval_cases i <;> simp

/-- The same for a branch. -/
theorem encB_or (op f3 rs1 rs2 d : Word) :
    encB op f3 rs1 rs2 0 ||| encB 0 0 0 0 d = encB op f3 rs1 rs2 d := by
  refine word_ext fun i hi => ?_
  simp only [encB, BitVec.getLsbD_or, getLsbD_pack, fOpcode, fFunct3, fRs1, fRs2, fImmB12, fImmB11,
    fImmBHi, fImmBLo]
  interval_cases i <;> simp

/-- An emission that completes has its four bytes in a region, where any other word fits too. -/
theorem admits_of_emitWord {s t : State} {w : Word} (h : emitWord w s = .next t) :
    s.Admits s.cursor 4 modeLoader := by
  obtain ⟨m, hm, -⟩ := emitWord_next h
  obtain ⟨⟨r, hr⟩, -⟩ := writeN_ok hm
  exact admits_of_check hr

theorem wordAt_of_emitWord {s t : State} {w : Word} (hw : s.MemWf) (h : emitWord w s = .next t) :
    t.wordAt s.cursor.toNat = w := by
  obtain ⟨m, hm, rfl⟩ := emitWord_next h
  exact wordAt_writeN hw hm

/-- A patch whose target is bound reached its site. -/
theorem admits_of_patch {r : Reloc} {s u : State} {a : Word}
    (ha : lookupSymbol s.symbols r.targetSymbolName = some a) (hk : r.kind ≠ .loPcRel12)
    (h : patch r s = .next u) : s.Admits r.siteOffset 4 modeLoader := by
  obtain ⟨site, kind, name⟩ := r
  rw [patch, withTarget_of_bound ha] at h
  cases kind with
  | loPcRel12 => exact absurd rfl hk
  | absoluteWord32 =>
    obtain ⟨m, hm, -⟩ := hostLoaderWrite_next h
    obtain ⟨⟨r, hr⟩, -⟩ := writeN_ok hm
    exact admits_of_check hr
  | jumpPcRel | branchPcRel | hiPcRel20 => exact admits_of_patchWord h

theorem wordAt_of_patch {r : Reloc} {s u : State} {a : Word} (hw : s.MemWf)
    (ha : lookupSymbol s.symbols r.targetSymbolName = some a) (hk : r.kind ≠ .loPcRel12)
    (h : patch r s = .next u) : u.wordAt r.siteOffset.toNat =
      linkedWord r.siteOffset a (s.wordAt r.siteOffset.toNat) r.kind := by
  obtain ⟨t, ht, hword⟩ := wordWritten_of_patch hw (admits_of_patch ha hk h) ha hk
  cases h.symm.trans ht
  exact hword.word

/-- Emission against a label, then the patch: the word `w'` that the patch makes of the emitted word `w`
is the one that its own emission would have put there. -/
theorem emitWord_of_linked {s t t' u : State} {kind : RelocKind} {name : SymName} {addr w w' : Word}
    (hw : s.MemWf) (hw' : t'.MemWf) (hkept : t'.wordAt s.cursor.toNat = t.wordAt s.cursor.toNat)
    (haddr : lookupSymbol t'.symbols name = some addr) (hk : kind ≠ .loPcRel12)
    (hlink : linkedWord s.cursor addr w kind = w') (he : emitWord w (s.record kind name) = .next t)
    (hp : patch ⟨s.cursor, kind, name⟩ t' = .next u) :
    ∃ v, emitWord w' s = .next v ∧ u.wordAt s.cursor.toNat = v.wordAt s.cursor.toNat := by
  have hold : t'.wordAt s.cursor.toNat = w :=
    hkept.trans (wordAt_of_emitWord (s := s.record kind name) hw he)
  obtain ⟨v, hv, -, -, hword, -⟩ :=
    emitStep_of_admits hw w' (admits_of_emitWord (s := s.record kind name) he)
  refine ⟨v, hv, ?_⟩
  rw [hword, wordAt_of_patch (r := ⟨s.cursor, kind, name⟩) hw' haddr hk hp, hold, hlink]

/-- Settles O55: the emitted word has the displacement's field zero, and the patch fills it
(`encJ_or`, `encB_or`). -/
theorem relocationEquivalence : Obligations.RelocationEquivalence := by
  refine fun s t t' u name rd a b addr m hw hw' hkept haddr => ⟨fun he hp => ?_, fun he hp => ?_⟩
  · exact emitWord_of_linked (kind := .jumpPcRel) hw hw' hkept haddr nofun (encJ_or _ rd _) he hp
  · have hB : (row m).format = .B := by
      by_contra hn
      rw [emitBranchTo, if_neg hn] at he
      cases he
    rw [emitBranchTo_of_branch hB] at he
    rw [emit, encWord, hB, row_opcode_of_branch hB]
    exact emitWord_of_linked (kind := .branchPcRel) hw hw' hkept haddr nofun (encB_or _ _ a b _) he hp

/-! ## A whole session (R320) -/

/-- What the patches of `rs` keep: all but the bytes at their sites and the diagnostics, which grow. -/
structure LinkKeeps (rs : List Reloc) (s t : State) : Prop where
  state : t = { s with mem := t.mem, diagnostics := t.diagnostics }
  regions : t.mem.regions = s.mem.regions
  diagnostics : ∃ more, t.diagnostics = s.diagnostics ++ more
  bytes : ∀ b req, (∀ r ∈ rs, Outside r.siteOffset 4 b) → t.readByte b req = s.readByte b req

theorem LinkKeeps.refl (s : State) : LinkKeeps [] s s :=
  ⟨rfl, rfl, ⟨[], (List.append_nil _).symm⟩, fun _ _ _ => rfl⟩

theorem LinkKeeps.cons {r : Reloc} {rs : List Reloc} {s t u : State} (h1 : LinkKeeps [r] s t)
    (h2 : LinkKeeps rs t u) : LinkKeeps (r :: rs) s u where
  state := h2.state.trans
    (congrArg (fun v : State => { v with mem := u.mem, diagnostics := u.diagnostics }) h1.state)
  regions := h2.regions.trans h1.regions
  diagnostics := by
    obtain ⟨d1, hd1⟩ := h1.diagnostics
    obtain ⟨d2, hd2⟩ := h2.diagnostics
    exact ⟨d1 ++ d2, by rw [hd2, hd1, List.append_assoc]⟩
  bytes b req hb := (h2.bytes b req fun q hq => hb q (List.mem_cons_of_mem r hq)).trans
    (h1.bytes b req fun q hq => hb q (by simp_all))

theorem patch_keeps {r : Reloc} {s t : State} (h : patch r s = .next t) : LinkKeeps [r] s t := by
  rcases patch_next h with ⟨d, rfl⟩ | ⟨v, m, hm, rfl⟩
  · exact ⟨rfl, rfl, ⟨[d], rfl⟩, fun _ _ _ => rfl⟩
  · exact ⟨rfl, writeN_regions hm, ⟨[], (List.append_nil _).symm⟩, fun b req hb =>
      readByte_writeN_outside hm req (hb r (List.mem_singleton_self r))⟩

theorem patchAll_keeps {rs : List Reloc} {s t : State} (h : patchAll rs s = .next t) :
    LinkKeeps rs s t := by
  induction rs generalizing s with
  | nil =>
    cases h
    exact .refl _
  | cons r rs ih =>
    obtain ⟨u, hu, hrest⟩ := andThen_next h
    exact (patch_keeps hu).cons (ih hrest)

theorem relocate_of_unlinked {s : State} (h : s.linked = false) :
    relocate s = andThen (patchAll s.relocs s) fun t => .next { t with linked := true } := by
  rw [relocate, h]
  rfl

theorem relocate_of_linked {s : State} (h : s.linked = true) : relocate s = .refused .alreadyLinked := by
  rw [relocate, if_pos h]

/-- A `Relocate()` that completes is the patches of an unlinked session. -/
theorem relocate_next {s t : State} (h : relocate s = .next t) :
    ∃ u, patchAll s.relocs s = .next u ∧ t = { u with linked := true } := by
  cases hl : s.linked with
  | true =>
    rw [relocate_of_linked hl] at h
    cases h
  | false =>
    rw [relocate_of_unlinked hl] at h
    obtain ⟨u, hu, ht⟩ := andThen_next h
    cases ht
    exact ⟨u, hu, rfl⟩

/-- Settles O59: the recorded order is `patchAll`'s recursion, the frame is that of every patch
(`patchAll_keeps`). -/
theorem relocateFrame : Obligations.RelocateFrame := by
  refine fun s => ⟨fun hl => ⟨fun t h => ?_, fun e h => ?_⟩, rfl,
    fun r rest => ⟨fun t h => patchAll_of_next h rest, fun e h => patchAll_of_refused h rest⟩,
    fun t h => ?_⟩
  · rw [relocate_of_unlinked hl, h]
    rfl
  · rw [relocate_of_unlinked hl, h]
    rfl
  · obtain ⟨u, hu, rfl⟩ := relocate_next h
    have hk := patchAll_keeps hu
    exact ⟨congrArg (fun v : State => { v with linked := true }) hk.state, hk.regions,
      hk.diagnostics, hk.bytes, relocate_of_linked rfl⟩

end Sys2Proof.Machine
end

section
/-! The trap boundary (`60_exceptions.md` rules R344, R350 to R356): what `ecall` keeps whatever the handler
does, and what each access of the handler leaves. -/

namespace Sys2Proof.Machine

open Sys2Proof State

/-! ## What a trap keeps (R352) -/

/-- How an `ecall` leaves the status and the `pc` (R147, R355): the run goes on 4 further, or it ends in
place. -/
def TrapEnds (s t : State) : Prop :=
  (t.status = .running ∧ t.pc = s.pc + 4#32) ∨
    (t.pc = s.pc ∧ ((∃ code, t.status = .exited code) ∨
      (∃ v, t.status = .faulted (.memoryProtectionViolation v) s.pc) ∨
      t.status = .faulted (.unimplementedSyscall (s.x 17#5)) s.pc))

/-- What `takeTrap_keeps` does not say of a trap: the count of traps, the bytes without Write, the end. -/
structure TrapFrame (s t : State) : Prop where
  trapCount : t.trapCount = s.trapCount
  bytes : ∀ a : Word, ¬ s.Admits a 1 modeWrite → t.byteAt a.toNat = s.byteAt a.toNat
  ends : TrapEnds s t

theorem takeTrap_frame {s : State} (hr : s.status = .running) (reply : TrapReply) :
    TrapFrame s (s.takeTrap reply) := by
  rcases takeTrap_cases hr (rfl : s.takeTrap reply = _) with ⟨-, ht⟩ | ⟨u, hu, ⟨v, ht⟩ | ⟨code, ht⟩ |
    ht | ⟨v, ht⟩⟩ <;> rw [ht]
  · exact ⟨rfl, fun _ _ => rfl, .inr ⟨rfl, .inr (.inr rfl)⟩⟩
  · exact ⟨hu.trapCount, hu.bytes, .inr ⟨hu.pc, .inr (.inl ⟨v, by rw [raise_status, hu.pc]⟩)⟩⟩
  · exact ⟨hu.trapCount, hu.bytes, .inr ⟨hu.pc, .inl ⟨_, rfl⟩⟩⟩
  · exact ⟨hu.trapCount, hu.bytes, .inl ⟨hu.status.trans hr, rfl⟩⟩
  · exact ⟨hu.trapCount, hu.bytes, .inl ⟨hu.status.trans hr, rfl⟩⟩

/-- Settles O22: `ecall` is the trap after its count, whatever the handler answers. -/
theorem ecallFrame : Obligations.EcallFrame := by
  intro s hr
  have hf := takeTrap_frame (s := s.countTrap) hr s.handlerReply
  have hk := (takeTrap_keeps (s := s.countTrap) hr s.handlerReply).of_countTrap
  exact ⟨_, rfl, hk.session, hk.icount, hf.trapCount, hk.zero, hf.bytes, hf.ends⟩

/-! ## Taking the trap and returning (R350, R355) -/

section Accesses

variable {s t : State} {accesses : List TrapAccess}

theorem takeTrap_of_refused {v : Violation} (hx : State.trapAccesses accesses s = (t, some v))
    (ending : TrapEnding) :
    s.takeTrap (.runs accesses ending) =
      { t with status := .faulted (.memoryProtectionViolation v) s.pc } := by
  rw [← (trapAccesses_keeps hx).pc, State.takeTrap, hx]
  rfl

/-- Accesses none of which is refused leave the ending to a running state at the same `pc`. -/
theorem takeTrap_of_done (hx : State.trapAccesses accesses s = (t, none)) (ending : TrapEnding) :
    s.takeTrap (.runs accesses ending) = t.trapReturn ending := by
  rw [State.takeTrap, hx]

theorem trapReturn_none (hr : s.status = .running) (hx : State.trapAccesses accesses s = (t, none)) :
    t.trapReturn (.returned none) = { t with pc := s.pc + 4#32 } := by
  have hk := trapAccesses_keeps hx
  rw [State.trapReturn, commitPc_eq _ _ (hk.status.trans hr), hk.pc]
  rfl

theorem trapReturn_some (hr : s.status = .running) (hx : State.trapAccesses accesses s = (t, none))
    (v : Word) :
    t.trapReturn (.returned (some v)) = { t.setX s.cfg.sysRetReg v with pc := s.pc + 4#32 } := by
  have hk := trapAccesses_keeps hx
  obtain ⟨-, -, -, -, -, -, -, hcfg⟩ := hk.session
  rw [State.trapReturn, hcfg, hk.pc]
  exact commitPc_eq (t.setX s.cfg.sysRetReg v) _ (hk.status.trans hr)

end Accesses

theorem trapAccesses_cons_of_ok {s u : State} {x : TrapAccess} (h : s.trapAccess x = .ok u)
    (xs : List TrapAccess) : State.trapAccesses (x :: xs) s = State.trapAccesses xs u := by
  rw [State.trapAccesses, h]

theorem trapAccesses_cons_of_error {s : State} {x : TrapAccess} {v : Violation}
    (h : s.trapAccess x = .error v) (xs : List TrapAccess) :
    State.trapAccesses (x :: xs) s = (s, some v) := by
  rw [State.trapAccesses, h]

/-! ## The effect of one access (R70) -/

/-- What a write through the register helper leaves (R22). -/
theorem regWritten_setX (s : State) (i : RegIdx) (v : Word) : RegWritten s (s.setX i v) i v :=
  ⟨rfl, setX_regs_zero s i v, setX_x_same s i v, fun j hj => setX_x_other s i j v hj⟩

theorem bytesWritten_of_writeN {s : State} (hw : s.MemWf) {a v : Word} {n : Nat} {req : AccessMode}
    {m : Memory} (hm : s.mem.writeN s.cfg.regionFill a n req v = .ok m) :
    BytesWritten s (s.setMem m) a n v :=
  ⟨rfl, writeN_regions hm, fun _ hk => byteAt_writeN_inside hw hm hk,
    fun _ req' hb => readByte_writeN_outside hm req' hb⟩

/-- `WriteByte` is `WriteN` of one byte (R59, R61). -/
theorem writeByte_eq_writeN (fill : Byte) (m : Memory) (a : Word) (req : AccessMode) (b : Byte) :
    m.writeByte fill a req b = m.writeN fill a 1 req (b.setWidth 32) := by
  simp only [Memory.writeByte, Memory.writeN, leBytes, cellSetN, setWidth_setWidth_word (n := 8) (by decide)]

theorem trapAccess_readByte_of_admits {s : State} (hw : s.MemWf) {a : Word}
    (h : s.Admits a 1 modeRead) : s.trapAccess (.readByte a) = .ok s := by
  obtain ⟨r, hr⟩ := check_of_admits hw (Nat.le_refl 1) h
  simp only [State.trapAccess, Memory.readByte, hr]

theorem trapAccess_readByte_refused {s : State} (hw : s.MemWf) {a : Word}
    (h : ¬ s.Admits a 1 modeRead) : ∃ why, RefusalReason s a modeRead why ∧
      s.trapAccess (.readByte a) = .error ⟨why, a, modeRead⟩ := by
  obtain ⟨why, hwhy, hr⟩ := check_refused hw h
  exact ⟨why, hwhy, by simp only [State.trapAccess, Memory.readByte, hr]⟩

theorem trapAccess_writeByte_of_admits {s : State} (hw : s.MemWf) {a : Word} (b : Byte)
    (h : s.Admits a 1 modeWrite) : ∃ u, s.trapAccess (.writeByte a b) = .ok u ∧
      BytesWritten s u a 1 (b.setWidth 32) := by
  have hm := writeN_of_admits hw (Nat.le_refl 1) (b.setWidth 32) h
  exact ⟨_, by rw [State.trapAccess, writeByte_eq_writeN, hm], bytesWritten_of_writeN hw hm⟩

theorem trapAccess_writeByte_refused {s : State} (hw : s.MemWf) {a : Word} (b : Byte)
    (h : ¬ s.Admits a 1 modeWrite) : ∃ why, RefusalReason s a modeWrite why ∧
      s.trapAccess (.writeByte a b) = .error ⟨why, a, modeWrite⟩ := by
  obtain ⟨why, hwhy, hm⟩ := writeN_refused hw (b.setWidth 32) h
  exact ⟨why, hwhy, by rw [State.trapAccess, writeByte_eq_writeN, hm]⟩

/-- Settles O23: the trap runs the accesses and then its ending on what they left (`takeTrap_of_done`,
`takeTrap_of_refused`); the effect of each access is above. -/
theorem trapTakesAndReturns : Obligations.TrapTakesAndReturns := fun s _ _ hr =>
  ⟨rfl, rfl,
    fun hx => ⟨(takeTrap_of_done hx _).trans (trapReturn_none hr hx),
      fun v => (takeTrap_of_done hx _).trans (trapReturn_some hr hx v), fun _ => takeTrap_of_done hx _⟩,
    fun _ ending hx => takeTrap_of_refused hx ending,
    rfl,
    fun _ xs => ⟨fun _ h => trapAccesses_cons_of_ok h xs, fun _ h => trapAccesses_cons_of_error h xs⟩,
    fun i v => ⟨_, rfl, regWritten_setX s i v⟩,
    fun hw _ b => ⟨trapAccess_readByte_of_admits hw, trapAccess_readByte_refused hw,
      trapAccess_writeByte_of_admits hw b, trapAccess_writeByte_refused hw b⟩⟩

/-! ## `exit`, and no handler at all (R354, R383 item 7) -/

/-- Settles O20: number 0 is `exit`, which the model itself answers. -/
theorem exitEndsTheRun : Obligations.ExitEndsTheRun := by
  intro s ha h17
  have hcall : s.syscall = .exit (s.x 10#5) := if_pos h17
  have hreply : s.handlerReply = .runs [] (.stop (s.x 10#5)) := by
    rw [State.handlerReply, if_pos ha, hcall]
  rw [exec, execEcall, hreply]
  rfl

/-- Settles O21: with no handler attached no number is implemented. -/
theorem ecallWithoutHandlerFaults : Obligations.EcallWithoutHandlerFaults := by
  intro s ha
  have hreply : s.handlerReply = .unimplemented := by
    rw [State.handlerReply, ha]
    rfl
  rw [exec, execEcall, hreply]
  rfl

end Sys2Proof.Machine
end

section
/-! What the host does before a run (`20_memory.md` rule R69, `40_engine_step.md` rule R156,
`70_reset_and_hazards.md` rules R380, R382): the loader's writes, a launch, the reset state. -/

namespace Sys2Proof.Machine

open Sys2Proof State

theorem hostLoaderWrite_of_admits {s : State} (hw : s.MemWf) {a : Word} (v : Word) {n : AccessSize}
    (h : s.Admits a n.bytes modeLoader) :
    ∃ t, hostLoaderWrite a n v s = .next t ∧ BytesWritten s t a n.bytes v := by
  have hn : 1 ≤ n.bytes := by cases n <;> decide
  have hm := writeN_of_admits hw hn v h
  exact ⟨_, hostLoaderWrite_of_writeN hm, bytesWritten_of_writeN hw hm⟩

theorem hostLoaderWrite_refused {s : State} (hw : s.MemWf) {a : Word} (v : Word) {n : AccessSize}
    (h : ¬ s.Admits a n.bytes modeLoader) : ∃ why, RefusalReason s a modeLoader why ∧
      hostLoaderWrite a n v s = .refused (.loaderAccess ⟨why, a, modeLoader⟩) := by
  obtain ⟨why, hwhy, hm⟩ := writeN_refused hw v h
  exact ⟨why, hwhy, by rw [hostLoaderWrite, State.loaderWrite, hm]⟩

/-- Settles O60: a new session sets its fields, a preset is the register helper's write, and a loader
write is one gated write of mode 0. -/
theorem hostPreparesTheMachine : Obligations.HostPreparesTheMachine := fun s =>
  ⟨fun _ => rfl, regWritten_setX s, fun hw _ v _ =>
    ⟨hostLoaderWrite_of_admits hw v, hostLoaderWrite_refused hw v⟩⟩

/-- Register 0 is forced to zero; the others are the host's values. -/
theorem launch_x {entry : Word} {regs : Vector Word 32} {s : State} {j : RegIdx} (hj : j ≠ 0#5) :
    (launch entry regs s).x j = regs.get j.toFin := by
  have hne : 0 ≠ j.toNat := fun h => hj (BitVec.eq_of_toNat_eq (by simp [← h]))
  simp [State.x, hj, launch, Vector.get_eq_getElem, hne]

/-- Settles O40: `launch_x` for the registers; the rest is what a launch sets. -/
theorem launchState : Obligations.LaunchState := fun _ _ _ =>
  ⟨by simp [launch, Vector.get_eq_getElem], fun _ => launch_x, rfl⟩

/-- Settles O29: the clauses at reset, one by one; there is no region and no symbol. -/
theorem resetMeetsInvariant : Obligations.ResetMeetsInvariant :=
  ⟨by decide, by decide, rfl, Nat.zero_le _, List.nodup_nil, rfl⟩

end Sys2Proof.Machine
end

section
/-! The four divides (`42_r_type_muldiv.md` rules R195 to R199): the corner cases and the quotients as the
rules write them, and the division law of their numbers. -/

namespace Sys2Proof.Machine

open Sys2Proof State

/-! ## The ALU's results as the rules write them (R195 to R198) -/

theorem toInt_eq_zero_iff (b : Word) : b.toInt = 0 ↔ b = 0#32 :=
  BitVec.toInt_inj (y := 0#32)

theorem toNat_eq_zero_iff (b : Word) : b.toNat = 0 ↔ b = 0#32 :=
  BitVec.toNat_inj (y := 0#32)

/-- The one quotient that no word holds, by its operands. -/
theorem overflow_iff (a b : Word) :
    a.toInt = -2 ^ 31 ∧ b.toInt = -1 ↔ a = 0x80000000#32 ∧ b = 0xFFFFFFFF#32 :=
  and_congr (BitVec.toInt_inj (y := 0x80000000#32)) (BitVec.toInt_inj (y := 0xFFFFFFFF#32))

theorem ofInt_tdiv (a b : Word) : BitVec.ofInt 32 (a.toInt.tdiv b.toInt) = a.sdiv b :=
  BitVec.eq_of_toInt_eq (by rw [BitVec.toInt_ofInt, BitVec.toInt_sdiv])

theorem ofInt_tmod (a b : Word) :
    BitVec.ofInt 32 (a.toInt - b.toInt * a.toInt.tdiv b.toInt) = a.srem b := by
  rw [← Int.tmod_def, ← BitVec.toInt_srem, BitVec.ofInt_toInt]

theorem alu_div (a b : Word) : alu .div a b =
    if b = 0#32 then 0xFFFFFFFF#32
    else if a = 0x80000000#32 ∧ b = 0xFFFFFFFF#32 then 0x80000000#32 else a.sdiv b := by
  simp only [alu, divSigned, toInt_eq_zero_iff, overflow_iff, ofInt_tdiv, BitVec.ofNat_eq_ofNat]

theorem alu_rem (a b : Word) : alu .rem a b =
    if b = 0#32 then a
    else if a = 0x80000000#32 ∧ b = 0xFFFFFFFF#32 then 0#32 else a.srem b := by
  simp only [alu, remSigned, toInt_eq_zero_iff, overflow_iff, ofInt_tmod, BitVec.ofNat_eq_ofNat]

theorem alu_divu (a b : Word) : alu .divu a b = if b = 0#32 then 0xFFFFFFFF#32 else a.udiv b := by
  simp only [alu, divUnsigned, toNat_eq_zero_iff, BitVec.udiv_eq, BitVec.udiv_def,
    BitVec.ofNat_eq_ofNat]

theorem alu_remu (a b : Word) : alu .remu a b = if b = 0#32 then a else a.umod b := by
  simp only [alu, remUnsigned, toNat_eq_zero_iff, BitVec.umod_eq, BitVec.umod_def]

/-- Settles O12: each is the ALU's result written back, under the value its rule gives, and its word is
of format R. -/
theorem divideResults : Obligations.DivideResults := fun _ _ _ _ hr =>
  ⟨⟨encode_eq_wordR rfl rfl, resultIs_of_aluReg hr rfl (alu_div _ _)⟩,
    ⟨encode_eq_wordR rfl rfl, resultIs_of_aluReg hr rfl (alu_divu _ _)⟩,
    ⟨encode_eq_wordR rfl rfl, resultIs_of_aluReg hr rfl (alu_rem _ _)⟩,
    ⟨encode_eq_wordR rfl rfl, resultIs_of_aluReg hr rfl (alu_remu _ _)⟩⟩

/-! ## The division law (R199) -/

section Law

variable {a b : Word}

theorem toNat_alu_divu (hb : b ≠ 0#32) : (alu .divu a b).toNat = a.toNat / b.toNat := by
  rw [alu_divu, if_neg hb, BitVec.udiv_eq, BitVec.toNat_udiv]

theorem toNat_alu_remu (hb : b ≠ 0#32) : (alu .remu a b).toNat = a.toNat % b.toNat := by
  rw [alu_remu, if_neg hb, BitVec.umod_eq, BitVec.toNat_umod]

theorem toInt_alu_div (hb : b ≠ 0#32) (ho : ¬ (a = 0x80000000#32 ∧ b = 0xFFFFFFFF#32)) :
    (alu .div a b).toInt = a.toInt.tdiv b.toInt := by
  rw [alu_div, if_neg hb, if_neg ho]
  exact BitVec.toInt_sdiv_of_ne_or_ne a b (not_and_or.1 ho)

theorem toInt_alu_rem (hb : b ≠ 0#32) (ho : ¬ (a = 0x80000000#32 ∧ b = 0xFFFFFFFF#32)) :
    (alu .rem a b).toInt = a.toInt.tmod b.toInt := by
  rw [alu_rem, if_neg hb, if_neg ho, BitVec.toInt_srem]

theorem natAbs_tmod_lt (m : Int) {n : Int} (hn : n ≠ 0) : (m.tmod n).natAbs < n.natAbs := by
  rw [Int.natAbs_tmod]
  exact Nat.mod_lt _ (Int.natAbs_pos.2 hn)

theorem tmod_nonpos {m : Int} (n : Int) (hm : m ≤ 0) : m.tmod n ≤ 0 := by
  have hneg := Int.tmod_nonneg n (Int.neg_nonneg_of_nonpos hm)
  rw [Int.neg_tmod] at hneg
  omega

end Law

/-- Settles O13: quotient and remainder are those of the natural and of the integer division rounded
toward zero, whose law is the library's. -/
theorem divisionLaw : Obligations.DivisionLaw := by
  refine fun s rd rs1 rs2 hr hb => ⟨⟨_, _, resultIs_of_aluReg hr rfl rfl, resultIs_of_aluReg hr rfl rfl, ?_⟩,
    fun ho => ⟨_, _, resultIs_of_aluReg hr rfl rfl, resultIs_of_aluReg hr rfl rfl, ?_⟩⟩
  · rw [toNat_alu_divu hb, toNat_alu_remu hb]
    exact ⟨(Nat.div_add_mod ..).symm, Nat.mod_lt _ (Nat.pos_of_ne_zero (mt (toNat_eq_zero_iff _).1 hb))⟩
  · rw [toInt_alu_div hb ho, toInt_alu_rem hb ho]
    exact ⟨(Int.mul_tdiv_add_tmod ..).symm, natAbs_tmod_lt _ (mt (toInt_eq_zero_iff _).1 hb),
      Int.tmod_nonneg _, tmod_nonpos _⟩

end Sys2Proof.Machine
end

section
/-! The upper-immediate instructions and the jumps (`47_upper_imm_and_jumps.md` rules R276 to R279): the
words of formats U and J, and the upper immediate as bits. -/

namespace Sys2Proof.Machine

open Sys2Proof State

/-! ## The words of formats U and J (R102 to R104) -/

theorem encU_eq_wordU (imm20 : BitVec 20) (rd : RegIdx) (op : BitVec 7) :
    encU (op.setWidth 32) (rd.setWidth 32) (imm20.setWidth 32) = wordU imm20 rd op := by
  refine word_ext fun i hi => ?_
  simp only [encU, wordU, getLsbD_pack, BitVec.getLsbD_append, BitVec.getLsbD_setWidth, fOpcode, fRd,
    fImmU]
  interval_cases i <;> simp

/-- A row of format U: its opcode column and the instruction's operands, side by side. -/
theorem encode_eq_wordU {i : Instr} {imm20 : BitVec 20} {rd rs1 rs2 : RegIdx} {op : BitVec 7}
    {f3 f7 pattern mask : Word} (hrow : row i.mnemonic = ⟨.U, op.setWidth 32, f3, f7, pattern, mask⟩)
    (hops : i.operands = ⟨rd, rs1, rs2, imm20.setWidth 32⟩) : encode i = wordU imm20 rd op := by
  rw [encode, encWord, hrow, hops]
  exact encU_eq_wordU ..

/-- The four immediate fields take bits 19..12, 11, 10..1 and 20 of the sign-extended displacement, which
are its own; bit 0 is not stored. -/
theorem encJ_eq_wordJ (d : BitVec 21) (rd : RegIdx) (op : BitVec 7) :
    encJ (op.setWidth 32) (rd.setWidth 32) (d.signExtend 32) = wordJ d rd op := by
  refine word_ext fun i hi => ?_
  simp only [encJ, wordJ, getLsbD_pack, BitVec.getLsbD_append, BitVec.getLsbD_setWidth,
    BitVec.getLsbD_sshiftRight, BitVec.getLsbD_signExtend, BitVec.getLsbD_extractLsb', fOpcode, fRd,
    fImmJ20, fImmJHi, fImmJ11, fImmJLo]
  interval_cases i <;> simp

/-- A row of format J: its opcode column, `rd` and the pieces of the displacement, side by side. -/
theorem encode_eq_wordJ {i : Instr} {d : BitVec 21} {rd rs1 rs2 : RegIdx} {op : BitVec 7}
    {f3 f7 pattern mask : Word} (hrow : row i.mnemonic = ⟨.J, op.setWidth 32, f3, f7, pattern, mask⟩)
    (hops : i.operands = ⟨rd, rs1, rs2, d.signExtend 32⟩) : encode i = wordJ d rd op := by
  rw [encode, encWord, hrow, hops]
  exact encJ_eq_wordJ ..

/-! ## The upper immediate (R276) -/

theorem upperImm_eq (imm20 : BitVec 20) : upperImm imm20 = imm20 ++ 0#12 := by
  refine word_ext fun i hi => ?_
  rw [upperImm, BitVec.getLsbD_shiftLeft, BitVec.getLsbD_setWidth, BitVec.getLsbD_append]
  by_cases h : i < 12
  · simp [h]
  · simp [h, hi, show i - 12 < 32 by omega]

/-- Settles O18: each is a result written back and a next pc, and its word is of format U, J or I. -/
theorem upperImmediateAndJumpResults : Obligations.UpperImmediateAndJumpResults :=
  fun _ _ _ imm20 _ _ hr =>
    ⟨⟨encode_eq_wordU rfl rfl, upperImm_eq imm20 ▸ resultIs_of_writeAndGo hr rfl⟩,
      ⟨encode_eq_wordU rfl rfl, upperImm_eq imm20 ▸ resultIs_of_writeAndGo hr rfl⟩,
      ⟨encode_eq_wordJ rfl rfl, resultIs_of_writeAndGo hr rfl⟩,
      ⟨encode_eq_wordI rfl rfl, resultIs_of_writeAndGo hr rfl⟩⟩

end Sys2Proof.Machine
end

section
/-! Runs (`40_engine_step.md` rules R140, R148, `60_exceptions.md` rule R341): the watchdog, that every run
ends, and what a fault leaves. -/

namespace Sys2Proof.Machine

open Sys2Proof State

/-! ## The watchdog and the end of a run (R140, R148) -/

/-- Settles O25: with the budget used up the watchdog answers before the fetch. -/
theorem watchdogEndsTheRun : Obligations.WatchdogEndsTheRun := fun s hr hb => by
  rw [step_of_running hr, if_pos hb]
  rfl

theorem runFor_of_next {s t : State} (h : step s = .next t) (fuel : Nat) :
    runFor (fuel + 1) s = runFor fuel t := by
  rw [step] at h
  rw [runFor, h]

theorem runFor_of_not_running {s : State} (h : s.status ≠ .running) (fuel : Nat) : runFor fuel s = s := by
  cases fuel with
  | zero => rfl
  | succ fuel =>
    have hf := step_of_not_running h
    rw [step] at hf
    rw [runFor, hf]

/-- With a step of fuel for each instruction that the budget still admits, and one to find it used up, a
run ends: a step counts, or it is the watchdog's and ends the run. -/
theorem runFor_ends {fuel : Nat} {s : State} (hb : s.icount ≤ s.cfg.watchdogBudget)
    (hfuel : s.cfg.watchdogBudget < s.icount + fuel) :
    (runFor fuel s).status ≠ .running ∧ (runFor fuel s).icount ≤ s.cfg.watchdogBudget := by
  induction fuel generalizing s with
  | zero => omega
  | succ fuel ih =>
    by_cases hr : s.status = .running
    case neg =>
      rw [runFor_of_not_running hr]
      exact ⟨hr, hb⟩
    case pos =>
      obtain ⟨t, ht⟩ := (runningStepNeverStops s).1 hr
      have hk := step_keeps ht
      obtain ⟨-, -, -, -, -, -, -, hcfg⟩ := hk.session
      rw [runFor_of_next ht]
      by_cases hlt : s.icount < s.cfg.watchdogBudget
      · have hcount : t.icount = s.icount + 1 := by rw [hk.icount, if_pos hlt]
        rw [← hcfg]
        exact ih (by rw [hcfg]; omega) (by rw [hcfg]; omega)
      · cases ht.symm.trans (watchdogEndsTheRun s hr (by omega))
        have hend : ({ s with status := .watchdogExpired } : State).status ≠ .running := nofun
        rw [runFor_of_not_running hend]
        exact ⟨hend, hb⟩

/-- Settles O31: `run` has the fuel that `runFor_ends` asks for. -/
theorem everyRunEnds : Obligations.EveryRunEnds := fun _ hb => runFor_ends hb (by omega)

/-! ## What a fault leaves (R341) -/

/-- An instruction other than `ecall` that faults has raised its fault and done nothing else. -/
theorem exec_faulted {i : Instr} {s t : State} {kind : FaultKind} {p : Word} (hr : s.status = .running)
    (he : i ≠ .ecall) (h : exec i s = .next t) (hf : t.status = .faulted kind p) :
    t = s.raise kind := by
  rcases exec_cases i s hr he with ⟨v, npc, ht, -⟩ | ⟨npc, ht, -⟩ | ⟨a, n, v, m, -, ht, -⟩ |
    ⟨v, ht⟩ | ⟨-, ht⟩ <;> cases h.symm.trans ht
  · cases hr.symm.trans hf
  · cases hr.symm.trans hf
  · cases hr.symm.trans hf
  · cases hf
    rfl
  · cases hf

/-- An instruction that faults, `ecall` too, names its own `pc`. -/
theorem exec_faulted_pc {i : Instr} {s t : State} {kind : FaultKind} {p : Word} (hr : s.status = .running)
    (h : exec i s = .next t) (hf : t.status = .faulted kind p) : p = s.pc := by
  have hend : t.status ≠ .running := by
    rw [hf]
    nofun
  rcases exec_endsBy hr h hend with ⟨-, hst⟩ | ⟨-, code, hst⟩ | ⟨kind', hst⟩ <;>
    cases hf.symm.trans hst
  rfl

/-- Settles O33: a fault of the fetch or of the decoder is raised after the count; one of an instruction
by `exec_faulted`, and the word of an `ecall` is its one encoding (`encodeOfDecode`). -/
theorem faultsArePrecise : Obligations.FaultsArePrecise := by
  intro s t kind p h hf
  obtain ⟨hr, ⟨-, rfl⟩ | ⟨-, ⟨v, -, rfl⟩ | ⟨w, hw, ⟨r, -, rfl⟩ | ⟨i, hi, he⟩⟩⟩⟩ := step_cases h
  · cases hf
  · cases hf
    exact ⟨rfl, rfl, rfl, fun _ => rfl⟩
  · cases hf
    exact ⟨rfl, rfl, rfl, fun _ => rfl⟩
  · have hpc := (exec_pcRule (s := s.tick) hr he).ended (by rw [hf]; nofun)
    refine ⟨exec_faulted_pc (s := s.tick) hr he hf, hpc, (exec_keeps (s := s.tick) hr he).icount,
      fun hne => ?_⟩
    refine exec_faulted (s := s.tick) hr ?_ he hf
    rintro rfl
    obtain ⟨-, rfl⟩ := encodeOfDecode w .ecall hi
    exact hne hw

end Sys2Proof.Machine
end

section
/-! The address space (`20_memory.md` rules R50 to R62, R75): lookup and the access check, narrower
accesses inside a written word, and what allocation inserts. -/

namespace Sys2Proof.Machine

open Sys2Proof State

/-! ## Lookup and the access check (R53, R57) -/

/-- Settles O41: a region found contains the address, and in sorted regions one that contains it is
found. -/
theorem lookupFindsTheCoveringRegion : Obligations.LookupFindsTheCoveringRegion := by
  intro s a hw r
  obtain ⟨hregions, hsorted, -, -⟩ := wf_parts hw
  exact ⟨lookup_some, fun ⟨hr, ha⟩ =>
    lookup_eq_some hsorted (fun q hq => region_wf_pos (hregions q hq)) hr ha⟩

/-- The loader port asks for no flag, so none is missing (R69). -/
theorem noFlags_missing (mode : AccessMode) : modeLoader &&& ~~~mode &&& 7 = 0 := by
  simp [modeLoader]

/-- Part of an admitted span is admitted. -/
theorem admits_part {s : State} {a b : Word} {n k : Nat} {req : AccessMode} (h : s.Admits a n req)
    (hlo : a.toNat ≤ b.toNat) (hhi : b.toNat + k ≤ a.toNat + n) : s.Admits b k req := by
  obtain ⟨r, hr, hb, he, hm⟩ := h
  exact ⟨r, hr, by omega, by omega, hm⟩

theorem admits_loader {s : State} {a : Word} {n : Nat} {req : AccessMode} (h : s.Admits a n req) :
    s.Admits a n modeLoader := by
  obtain ⟨r, hr, hb, he, -⟩ := h
  exact ⟨r, hr, hb, he, noFlags_missing r.mode⟩

/-- Settles O42: an admitted span passes; a refused one names the reason that R57's order gives it
(`check_refused`). -/
theorem accessCheck : Obligations.AccessCheck := by
  intro s a n req hw hn
  have first : s.Admits a n req → s.Admits a 1 req := fun h => admits_part h (Nat.le_refl _) (by omega)
  have refused : ¬ s.Admits a n req → ∀ {why}, (∀ y, RefusalReason s a req y → y = why) →
      s.mem.check a n req = .error ⟨why, a, req⟩ := by
    intro h why hwhy
    obtain ⟨y, hy, hc⟩ := check_refused hw h
    rw [hc, hwhy y hy]
  refine ⟨⟨fun ⟨r, hr⟩ => admits_of_check hr, check_of_admits hw hn⟩, fun h => ?_, fun h1 h2 => ?_,
    fun h1 h2 => ?_⟩
  · exact refused (fun ha => h (admits_loader (first ha))) fun y ⟨hy, _, _⟩ => hy h
  · exact refused (fun ha => h2 (first ha)) fun y ⟨_, hy, _⟩ => hy h1 h2
  · exact refused h2 fun y ⟨_, _, hy⟩ => hy h1

/-! ## Narrower reads in a written word (R62) -/

/-- The address of a byte of an admitted span is not wrapped round. -/
theorem toNat_add_of_admits {s : State} (hw : s.MemWf) {a : Word} {n k : Nat} {req : AccessMode}
    (h : s.Admits a n req) (hk : k < n) : (a + BitVec.ofNat 32 k).toNat = a.toNat + k := by
  obtain ⟨r, hr, hb, he, -⟩ := h
  have htop := region_below_top hw hr
  rw [BitVec.toNat_add, BitVec.toNat_ofNat]
  omega

section Narrow

variable {s t : State} {a v : Word}

/-- What a word written at `a` leaves of it, as the read port sees it. -/
structure WordStands (t : State) (a v : Word) : Prop where
  wf : t.MemWf
  admits : t.Admits a 4 modeRead
  bytes : ∀ k < 4, t.byteAt (a.toNat + k) = v.extractLsb' (8 * k) 8

theorem wordStands_of_memWrite (hw : s.MemWf) (h : s.Admits a 4 modeRead)
    (ht : s.memWrite a .word v = .ok t) : WordStands t a v := by
  obtain ⟨-, m, hm, rfl⟩ := memWrite_ok ht
  exact ⟨wf_writeN hw hm, (admits_congr (writeN_regions hm) a 4 modeRead).2 h,
    fun _ hk => byteAt_writeN_inside hw hm hk⟩

/-- A byte `k` of the word. -/
theorem WordStands.memRead_byte (h : WordStands t a v) {k : Nat} (hk : k < 4) :
    t.memRead (a + BitVec.ofNat 32 k) .byte = .ok ((v.extractLsb' (8 * k) 8).setWidth 32) := by
  have hadd := toNat_add_of_admits h.wf h.admits hk
  rw [memRead_byte_of_admits h.wf (admits_part h.admits (by omega) (by omega)), hadd, h.bytes k hk]

/-- The half that starts at byte `k`. -/
theorem WordStands.memRead_half (h : WordStands t a v) {k : Nat} (hk : k + 1 < 4) :
    t.memRead (a + BitVec.ofNat 32 k) .half = .ok ((v.extractLsb' (8 * k) 16).setWidth 32) := by
  have hadd := toNat_add_of_admits h.wf h.admits (show k < 4 by omega)
  have hhalf : t.halfAt (a.toNat + k) = v.extractLsb' (8 * k) 16 := by
    rw [State.halfAt, Nat.add_assoc, h.bytes k (by omega), h.bytes (k + 1) hk]
    exact BitVec.extractLsb'_append_extractLsb'_eq_extractLsb' rfl
  rw [memRead_half_of_admits h.wf (admits_part h.admits (by omega) (by omega)), hadd, hhalf]

end Narrow

/-- Settles O45: the word reads back, and each narrower read finds its own bytes of it. -/
theorem mixedWidthAccesses : Obligations.MixedWidthAccesses := by
  intro s t a v hw h ht
  have hs := wordStands_of_memWrite hw h ht
  obtain ⟨-, m, hm, rfl⟩ := memWrite_ok ht
  have hhalf := hs.memRead_half (k := 0) (by decide)
  have hbyte := hs.memRead_byte (k := 0) (by decide)
  rw [BitVec.add_zero] at hhalf hbyte
  exact ⟨readN_writeN_word hw hm (check_of_admits hw (by decide) h), hhalf,
    hs.memRead_half (k := 2) (by decide), hbyte, hs.memRead_byte (k := 1) (by decide),
    hs.memRead_byte (k := 2) (by decide), hs.memRead_byte (k := 3) (by decide)⟩

/-! ## A stored word and the next fetch (R75) -/

theorem flags_of_or {mode req req' : AccessMode} (h : (req ||| req') &&& ~~~mode &&& 7 = 0) :
    req &&& ~~~mode &&& 7 = 0 ∧ req' &&& ~~~mode &&& 7 = 0 := by
  revert mode req req'
  decide

theorem admits_of_or {s : State} {a : Word} {n : Nat} {req req' : AccessMode}
    (h : s.Admits a n (req ||| req')) : s.Admits a n req ∧ s.Admits a n req' := by
  obtain ⟨r, hr, hb, he, hm⟩ := h
  obtain ⟨h1, h2⟩ := flags_of_or hm
  exact ⟨⟨r, hr, hb, he, h1⟩, ⟨r, hr, hb, he, h2⟩⟩

/-- The region that holds a span and the one that admits its first byte are one (R51). -/
theorem admits_of_first {s : State} (hw : s.MemWf) {a : Word} {n : Nat} {req req' : AccessMode}
    (hn : 1 ≤ n) (h : s.Admits a n req) (h1 : s.Admits a 1 req') : s.Admits a n req' := by
  obtain ⟨-, hsorted, -, -⟩ := wf_parts hw
  obtain ⟨r, hr, hb, he, -⟩ := h
  obtain ⟨q, hq, hqb, hqe, hm⟩ := h1
  obtain rfl := region_unique hsorted hr hq (a := a.toNat) ⟨hb, by omega⟩ ⟨hqb, by omega⟩
  exact ⟨r, hr, hb, he, hm⟩

/-- The whole next state of a store that the gate passes. -/
theorem store_of_writeN {s : State} {n : AccessSize} {rs2 rs1 : RegIdx} {imm : BitVec 12} {m : Memory}
    (hr : s.status = .running)
    (hm : s.mem.writeN s.cfg.regionFill (s.ea rs1 imm) n.bytes modeWrite (s.x rs2) = .ok m) :
    store n rs2 rs1 imm s = .next { s.setMem m with pc := s.pc + 4#32 } := by
  rw [store, State.memWrite, hm]
  exact congrArg Host.Outcome.next (commitPc_eq (s.setMem m) _ hr)

/-- Settles O46: the store's bytes are those the fetch reads; without Write the region that holds them is
the one whose flag is missing. -/
theorem storedWordIsFetched : Obligations.StoredWordIsFetched := by
  refine fun s rs2 rs1 imm hr hw => ⟨fun h => ?_, fun hx hnw => ?_⟩
  · obtain ⟨hwrite, hexec⟩ := admits_of_or h
    obtain ⟨m, hm⟩ : ∃ m, s.mem.writeN s.cfg.regionFill (s.ea rs1 imm) 4 modeWrite (s.x rs2) = .ok m :=
      ⟨_, writeN_of_admits hw (by decide) _ hwrite⟩
    exact ⟨_, store_of_writeN (n := .word) hr hm,
      readN_writeN_word hw hm (check_of_admits hw (by decide) hexec)⟩
  · obtain ⟨why, ⟨-, hmissing, -⟩, hf⟩ :=
      accessFaults_of_store (i := .sw rs2 rs1 imm) (n := .word) hw rfl hnw
    have hfirst : s.Admits (s.ea rs1 imm) 1 modeLoader :=
      admits_loader (admits_part hx (Nat.le_refl _) (by omega))
    obtain rfl := hmissing hfirst fun h1 => hnw (admits_of_first hw (by decide) hx h1)
    exact hf

/-! ## Allocation (R54) -/

theorem roundUp_lt {page : Nat} (hp : 0 < page) (length : Nat) : roundUp page length < length + page := by
  have h := Nat.div_mul_le_self (length + page - 1) page
  unfold roundUp
  omega

/-- R8, D4: a page is not empty. -/
theorem pageSize_pos_of_wf {p : Params} (h : p.wf = true) : 0 < p.pageSize := by
  simp only [Params.wf, Bool.and_eq_true, decide_eq_true_eq] at h
  omega

/-- What `Allocate` rejects: no length, an unaligned base, a span past the top, a region in the way. -/
def AllocationBad (s : State) (base : Word) (length : Nat) : Prop :=
  length = 0 ∨ base.toNat % s.cfg.pageSize ≠ 0 ∨
    2 ^ 32 < base.toNat + roundUp s.cfg.pageSize length ∨
    ∃ r ∈ s.mem.regions, base.toNat < r.base.toNat + r.length ∧
      r.base.toNat < base.toNat + roundUp s.cfg.pageSize length

theorem any_meets_iff {rs : List Region} {base n : Nat} :
    (rs.any fun r => r.meets base n) = true ↔
      ∃ r ∈ rs, base < r.base.toNat + r.length ∧ r.base.toNat < base + n := by
  simp [Region.meets]

/-- The test of `Memory.allocate`. -/
theorem allocationBad_iff {s : State} {base : Word} {length : Nat} :
    (length = 0 ∨ base.toNat % s.cfg.pageSize ≠ 0 ∨
      base.toNat + roundUp s.cfg.pageSize length > 2 ^ 32 ∨
      s.mem.regions.any (fun r => r.meets base.toNat (roundUp s.cfg.pageSize length)) = true) ↔
      AllocationBad s base length :=
  or_congr_right (or_congr_right (or_congr_right any_meets_iff))

section Allocate

variable {s : State} {base : Word} {length : Nat} {mode : AccessMode}

theorem hostAllocate_of_bad (h : AllocationBad s base length) :
    hostAllocate base length mode s = .refused .allocationRejected := by
  rw [hostAllocate, Memory.allocate, if_pos (allocationBad_iff.2 h)]

theorem hostAllocate_of_some {m : Memory}
    (hm : s.mem.allocate s.cfg.pageSize base length mode = some m) :
    hostAllocate base length mode s = .next (s.setMem m) := by
  rw [hostAllocate, hm]

theorem allocate_of_not_bad (h : ¬ AllocationBad s base length) :
    s.mem.allocate s.cfg.pageSize base length mode = some { s.mem with
      regions := insertRegion ⟨base, roundUp s.cfg.pageSize length, mode⟩ s.mem.regions } :=
  if_neg (mt allocationBad_iff.1 h)

/-- An address that no cell lists reads as the fill. -/
theorem cellGet_of_unlisted {fill : Byte} {cs : List Host.Cell} {a : Nat} (h : ∀ c ∈ cs, c.1 ≠ a) :
    cellGet fill cs a = fill := by
  induction cs with
  | nil => rfl
  | cons c cs ih =>
    rw [cellGet, if_neg (h c List.mem_cons_self)]
    exact ih fun d hd => h d (List.mem_cons_of_mem c hd)

/-- Every cell lies in a region, and no region reaches into the span allocated. -/
theorem byteAt_of_not_bad (hw : s.MemWf) (h : ¬ AllocationBad s base length) {a : Nat}
    (hlo : base.toNat ≤ a) (hhi : a < base.toNat + roundUp s.cfg.pageSize length) :
    s.byteAt a = s.cfg.regionFill := by
  obtain ⟨-, -, -, hcells⟩ := wf_parts hw
  refine cellGet_of_unlisted fun c hc hca => h (.inr (.inr (.inr ?_)))
  have hcov := List.all_eq_true.1 hcells c hc
  simp only [covered, List.any_eq_true, Bool.and_eq_true, decide_eq_true_eq] at hcov
  obtain ⟨r, hr, hrlo, hrhi⟩ := hcov
  exact ⟨r, hr, by omega, by omega⟩

end Allocate

/-- Settles O43: the test of `Memory.allocate` is the rule's (`allocationBad_iff`); the region inserted
holds no listed cell. -/
theorem allocateRule : Obligations.AllocateRule := by
  intro s base length mode hw hcfg n
  have hp := pageSize_pos_of_wf hcfg
  refine ⟨⟨roundUp_dvd _ _, roundUp_ge hp _, roundUp_lt hp _⟩, hostAllocate_of_bad, fun h => ?_⟩
  have hm := allocate_of_not_bad (mode := mode) h
  exact ⟨_, hostAllocate_of_some hm, wf_allocate hp hw hm, rfl, fun _ => mem_insertRegion,
    fun _ => rfl, fun _ => byteAt_of_not_bad hw h⟩

/-! ## Allocation anywhere (R55) -/

/-- The end of the highest region, 0 when there is none, as the rule describes it. -/
def HighestEnd (rs : List Region) (e : Nat) : Prop :=
  (rs = [] ∧ e = 0) ∨ ((∃ r ∈ rs, e = r.base.toNat + r.length) ∧
    ∀ r ∈ rs, r.base.toNat + r.length ≤ e)

/-- In sorted regions the one with the greatest base has the greatest end. -/
theorem highest_end {rs : List Region} (hsorted : regionsSorted rs = true)
    (hpos : ∀ q ∈ rs, 0 < q.length) {r : Region} (h : highest rs = some r) :
    ∀ q ∈ rs, q.base.toNat + q.length ≤ r.base.toNat + r.length := by
  intro q hq
  have hmax := highest_max h q hq
  have hr := hpos r (highest_mem h)
  rcases regions_apart hsorted hq (highest_mem h) with rfl | hqr | hrq
  · exact Nat.le_refl _
  · omega
  · omega

theorem anywhereBase_eq {s : State} (hw : s.MemWf) {e : Nat} (he : HighestEnd s.mem.regions e) :
    s.mem.anywhereBase s.cfg.pageSize = e + s.cfg.pageSize := by
  obtain ⟨hregions, hsorted, -, -⟩ := wf_parts hw
  rcases he with ⟨hnil, rfl⟩ | ⟨⟨r, hr, rfl⟩, hmax⟩
  · rw [Memory.anywhereBase, hnil]
    exact (Nat.zero_add _).symm
  · cases hh : highest s.mem.regions with
    | none => simp [highest_eq_none.1 hh] at hr
    | some q =>
      have hqr := hmax q (highest_mem hh)
      have hrq := highest_end hsorted (fun p hp => region_wf_pos (hregions p hp)) hh r hr
      simp only [Memory.anywhereBase, hh]
      omega

section Anywhere

variable {s : State} {length : Nat} {mode : AccessMode}

theorem hostAllocateAnywhere_of_past_top (h : ¬ s.mem.anywhereBase s.cfg.pageSize < 2 ^ 32) :
    hostAllocateAnywhere length mode s = .refused .allocationRejected := by
  rw [hostAllocateAnywhere, Memory.allocateAnywhere, if_neg h]

/-- Where the base fits, the call is `Allocate` there, with the base kept beside its answer. -/
theorem allocateAnywhere_eq (h : s.mem.anywhereBase s.cfg.pageSize < 2 ^ 32) :
    s.mem.allocateAnywhere s.cfg.pageSize length mode =
      (s.mem.allocate s.cfg.pageSize (BitVec.ofNat 32 (s.mem.anywhereBase s.cfg.pageSize)) length
        mode).map (BitVec.ofNat 32 (s.mem.anywhereBase s.cfg.pageSize), ·) := by
  rw [Memory.allocateAnywhere, if_pos h]
  cases s.mem.allocate s.cfg.pageSize (BitVec.ofNat 32 (s.mem.anywhereBase s.cfg.pageSize)) length
    mode <;> rfl

theorem hostAllocateAnywhere_eq (h : s.mem.anywhereBase s.cfg.pageSize < 2 ^ 32) :
    hostAllocateAnywhere length mode s =
      hostAllocate (BitVec.ofNat 32 (s.mem.anywhereBase s.cfg.pageSize)) length mode s := by
  rw [hostAllocateAnywhere, allocateAnywhere_eq h, hostAllocate]
  cases s.mem.allocate s.cfg.pageSize (BitVec.ofNat 32 (s.mem.anywhereBase s.cfg.pageSize)) length
    mode <;> rfl

/-- An allocation that is not refused was accepted by the address space. -/
theorem hostAllocate_next {base : Word} {t : State} (ht : hostAllocate base length mode s = .next t) :
    ∃ m, s.mem.allocate s.cfg.pageSize base length mode = some m := by
  cases hm : s.mem.allocate s.cfg.pageSize base length mode with
  | none =>
    rw [hostAllocate, hm] at ht
    cases ht
  | some m => exact ⟨m, rfl⟩

theorem allocatedAnywhereAt_of_next {t : State} (h : s.mem.anywhereBase s.cfg.pageSize < 2 ^ 32)
    (ht : hostAllocateAnywhere length mode s = .next t) : allocatedAnywhereAt length mode s =
      some (BitVec.ofNat 32 (s.mem.anywhereBase s.cfg.pageSize)) := by
  rw [hostAllocateAnywhere_eq h] at ht
  obtain ⟨m, hm⟩ := hostAllocate_next ht
  simp only [allocatedAnywhereAt, allocateAnywhere_eq h, hm, Option.map_some]

end Anywhere

/-- Settles O44: the base asked for is one page past the highest end (`anywhereBase_eq`). -/
theorem allocateAnywhereRule : Obligations.AllocateAnywhereRule := by
  intro s length mode hw e he
  rw [← anywhereBase_eq hw he]
  exact ⟨fun h => hostAllocateAnywhere_of_past_top (by omega), fun h =>
    ⟨hostAllocateAnywhere_eq h, fun _ ht => allocatedAnywhereAt_of_next h ht⟩⟩

end Sys2Proof.Machine
end

section
/-! The high and low parts of a displacement (`49_relocation.md` rules R324 to R326), and the pair of
instructions that adds them up. -/

namespace Sys2Proof.Machine

open Sys2Proof State

theorem lo12_setWidth (d : Word) : (lo12 d).setWidth 12 = d.setWidth 12 :=
  calc (lo12 d).setWidth 12 = ((d.extractLsb' 0 12).setWidth 32).setWidth 12 :=
        congrArg (·.setWidth 12) (extractU_eq d fLo12)
    _ = d.extractLsb' 0 12 := setWidth_setWidth_word (by decide) _
    _ = d.setWidth 12 := (BitVec.setWidth_eq_extractLsb' (by decide)).symm

/-- The high part of `e` in its place is `e` without its low 12 bits. -/
theorem toNat_upper (e : Word) : (e.extractLsb' 12 20 ++ 0#12).toNat = e.toNat / 4096 * 4096 := by
  have hlt := e.isLt
  simp only [BitVec.toNat_append, BitVec.extractLsb'_toNat, BitVec.toNat_ofNat, Nat.zero_mod, Nat.or_zero,
    Nat.shiftRight_eq_div_pow, Nat.shiftLeft_eq]
  omega

/-- A negative low part is 4096 short of its unsigned reading, modulo `2^32`. -/
theorem toNat_signExtend_low (d : Word) : ((d.setWidth 12).signExtend 32).toNat =
    if 2048 ≤ d.toNat % 4096 then d.toNat % 4096 + (2 ^ 32 - 4096) else d.toNat % 4096 := by
  rw [BitVec.toNat_signExtend, BitVec.msb_eq_decide, BitVec.toNat_setWidth_of_le (by decide),
    BitVec.toNat_setWidth]
  by_cases h : 2048 ≤ d.toNat % 4096
  · simp [h]
  · simp [h]

/-- Settles O53: the bias carries into the high part exactly when the low part is negative. -/
theorem hiLoRoundTrip : Obligations.HiLoRoundTrip := by
  intro d
  rw [hi20_shiftLeft, lo12_setWidth]
  refine BitVec.eq_of_toNat_eq ?_
  have hlt := d.isLt
  rw [BitVec.toNat_add, toNat_upper, toNat_signExtend_low, BitVec.toNat_add, BitVec.toNat_ofNat]
  by_cases h : 2048 ≤ d.toNat % 4096
  · rw [if_pos h]
    omega
  · rw [if_neg h]
    omega

/-- The high part as the field of `auipc` takes it. -/
theorem upperImm_hi20 (d : Word) : upperImm ((hi20 d).setWidth 20) = hi20 d <<< 12 :=
  upperImm_imm20Of (d + 0x800)

/-- Settles O54: the two results add up by `hiLoRoundTrip`, and no register but `rd` is written. -/
theorem auipcAddiReachesSymbol : Obligations.AuipcAddiReachesSymbol := by
  intro s rd target hr hrd
  obtain ⟨t, ht, htstate, -, htrd, htother⟩ :=
    resultIs_of_writeAndGo (i := .auipc rd ((hi20 (target - s.pc)).setWidth 20)) hr rfl
  have htr : t.status = .running := by rw [htstate]; exact hr
  have htpc : t.pc = s.pc + 4#32 := by rw [htstate]; rfl
  obtain ⟨u, hu, hustate, -, hurd, huother⟩ :=
    resultIs_of_aluImm (i := .addi rd rd ((lo12 (target - s.pc)).setWidth 12)) htr rfl rfl
  refine ⟨t, u, ht, hu, ?_, ?_, fun j hj => (huother j hj).trans (htother j hj)⟩
  · rw [hurd hrd, htrd hrd, upperImm_hi20]
    calc s.pc + hi20 (target - s.pc) <<< 12 + ((lo12 (target - s.pc)).setWidth 12).signExtend 32
        = s.pc + (target - s.pc) := by rw [BitVec.add_assoc, hiLoRoundTrip]
      _ = target := by rw [BitVec.add_comm, BitVec.sub_add_cancel]
  · rw [hustate, htpc, BitVec.add_assoc]
    rfl

end Sys2Proof.Machine
end

section
/-! The words of the rules' examples (`41_r_type_integer.md` to `48_system.md`). -/

namespace Sys2Proof

/-- Settles O7: sixteen literal words, each decoded by evaluation. -/
theorem sampleWordsDecode : Obligations.SampleWordsDecode := by
  unfold Obligations.SampleWordsDecode
  decide

end Sys2Proof
end
